-- ==== Sys2Proof/Word.lean ====
section
/-! DEFINITION. The word types of the codec core: a byte of a buffer (00_scope.md R9), the 16-bit dimensions
(10_state.md R26, R27) and the 64-bit registers (10_state.md R21). Counts, offsets and lengths are natural numbers
(00_scope.md R9: exact arithmetic, never wrapping). -/

namespace Sys2Proof

/-- A byte of SRC, DST or a stream: 0 to 255, unsigned (00_scope.md R9). -/
abbrev Byte := BitVec 8

/-- A `u16` dimension of an image (00_scope.md R6). -/
abbrev Half := BitVec 16

/-- A host-visible register, XLEN = 64 (00_scope.md R7, 10_state.md R21). -/
abbrev Dword := BitVec 64

end Sys2Proof
end

