-- ==== Sys2Proof/Config.lean ====
section
/-! DEFINITION. What the spec leaves to an implementation, and the free values. The buffer sizes are held in State
(the registers SRC_SIZE and DST_SIZE, 10_state.md R30, R31), so statements hold for every size; here is only what
State.reset puts there. The opaque constants have no body: nothing can be proved of their values. -/

namespace Sys2Proof

/-- SRC_SIZE of State.reset. DESIGN CHOICE (log entry 4, unsafe): the least size that holds any stream COMPRESS can
make of the largest image (00_scope.md R7). -/
def Config.srcSizeAtReset : Nat := 12985961500

/-- DST_SIZE of State.reset. DESIGN CHOICE (log entry 4, unsafe): as SRC_SIZE (00_scope.md R7). -/
def Config.dstSizeAtReset : Nat := 12985961500

/-- REG_BASE, the platform address of the register block (00_scope.md R7, 20_memory.md R56): OPEN. -/
opaque Config.regBase : Nat

/-- The byte a host read of a buffer returns while BUSY = 1, one per draw (20_memory.md R54,
93_implementation_defined.md U3). -/
opaque Config.freeByte : Nat → Byte

/-- The value an unsupported register read returns, one per draw (20_memory.md R58, 93_implementation_defined.md
U4). -/
opaque Config.freeDword : Nat → Dword

/-- What a SRC byte without a defined value holds: one value per generation and offset
(70_reset_and_hazards.md R182, 93_implementation_defined.md U2). -/
opaque Config.freeSrcByte : Nat → Nat → Byte

/-- What a DST byte without a defined value holds: one value per generation and offset
(70_reset_and_hazards.md R182, 60_exceptions.md R159, 93_implementation_defined.md U1, U2). -/
opaque Config.freeDstByte : Nat → Nat → Byte

end Sys2Proof
end

