-- ==== Sys2Proof/Syntax.lean ====
section
/-! DEFINITION. The instructions: the two stream records (30_encoding.md R70 to R76) and the commands a CMD write
starts (30_encoding.md R78 to R80), one constructor per row of the opcode table. -/

namespace Sys2Proof

/-- The codec core's instructions. A record is an instruction of the stream a DECOMPRESS follows; the others are
the commands of CMD. The operands of a command are in registers, and bits 63:4 of a CMD write are ignored
(30_encoding.md R78, R81), so a command carries no operand here. -/
inductive Instr where
  /-- RUN: the data byte `v`, `r + 3` times (30_encoding.md R72, R74). -/
  | run (r : BitVec 7) (v : Byte)
  /-- LIT: the bytes `bs` verbatim, 1 to 128 of them (30_encoding.md R73, R74). -/
  | lit (bs : List Byte)
  /-- OP 0 (40_decompress.md R100). -/
  | decompress
  /-- OP 1 (41_compress.md R120). -/
  | compress
  /-- OP 2 (42_convert.md R140). -/
  | planarToRgb
  /-- OP 3 (42_convert.md R141). -/
  | rgbToPlanar
  /-- Reserved OP `4 + x` (30_encoding.md R80). -/
  | reservedLow (x : BitVec 2)
  /-- Reserved OP `8 + x` (30_encoding.md R80). -/
  | reservedHigh (x : BitVec 3)
deriving DecidableEq, Repr

/-- The two encoding spaces: bytes of a stream, and words written to CMD. -/
inductive Kind where
  | record
  | command
deriving DecidableEq, Repr

/-- The encoding space an instruction belongs to. -/
def Instr.kind : Instr → Kind
  | .run _ _ => .record
  | .lit _ => .record
  | .decompress => .command
  | .compress => .command
  | .planarToRgb => .command
  | .rgbToPlanar => .command
  | .reservedLow _ => .command
  | .reservedHigh _ => .command

end Sys2Proof
end

