-- ==== Sys2Proof/Machine/State.lean ====
section
/-! DEFINITION. The machine's state as plain data: the host-visible registers (10_state.md R21 to R34), the core's
working registers (10_state.md R35 to R39), the two buffers (20_memory.md R50), the host and the order of turns as data,
and the state after reset (10_state.md R42). -/

namespace Sys2Proof.Machine

/-- A buffer's bytes: (offset, byte) pairs with offsets strictly rising. An unlisted offset holds no defined value
(70_reset_and_hazards.md R182). -/
abbrev Memory := List Host.Cell

/-- The two byte buffers (20_memory.md R50). -/
inductive Buffer where
  | src
  | dst
deriving DecidableEq, Repr

/-- The registers of the block (10_state.md R21). -/
inductive Reg where
  | cmd
  | status
  | width
  | height
  | srcLen
  | outLen
  | srcSize
  | dstSize
  | errPos
  /-- Any of the offsets 0x48 to 0x78 (10_state.md R33). -/
  | reserved
deriving DecidableEq, Repr

/-- The errors that end a command (60_exceptions.md R151). -/
inductive CodecError where
  | truncatedStream
  | sizeMismatch
  | capacity
  | badLength
  | illegalOp
deriving DecidableEq, Repr

/-- Where a running command stands between the core steps of 70_reset_and_hazards.md R191 (log entry 12). -/
inductive Phase where
  /-- Started (60_exceptions.md R155); the prechecks come next. -/
  | precheck
  /-- The prechecks passed (60_exceptions.md R154); the command's own loop runs. -/
  | body
deriving DecidableEq, Repr

/-- The working registers (10_state.md R35). -/
structure Work where
  op      : BitVec 4
  w       : Nat
  h       : Nat
  n       : Nat
  exp     : Nat
  pc      : Nat
  p       : Nat
  /-- The spec's `over` (a token of the library here). -/
  overrun : Bool
  overpos : Nat
  i       : Nat
  o       : Nat
  k       : Nat
  phase   : Phase
deriving DecidableEq, Repr

/-- The working registers outside a command, where the spec gives them no value (10_state.md R35, R42). DESIGN CHOICE
(log entry 11): all zero. No command reads one before it writes it. -/
def Work.blank : Work :=
  { op := 0, w := 0, h := 0, n := 0, exp := 0, pc := 0, p := 0, overrun := false, overpos := 0, i := 0, o := 0, k := 0,
    phase := .precheck }

/-- One transaction of the host, or a host operation made of such (30_encoding.md R91, R92). -/
inductive BusOp where
  /-- A write of `bits` bits at an offset of the register block (20_memory.md R58). -/
  | regWrite (off : BitVec 7) (bits : Nat) (v : Dword)
  /-- A read of `bits` bits at an offset of the register block (20_memory.md R58). -/
  | regRead (off : BitVec 7) (bits : Nat)
  /-- A byte write to a buffer (20_memory.md R53). -/
  | bufWrite (buf : Buffer) (a : Nat) (v : Byte)
  /-- A byte read of a buffer (20_memory.md R53). -/
  | bufRead (buf : Buffer) (a : Nat)
  /-- One byte of COPY_DS: reads DST byte `a`, then writes it to SRC byte `a` (30_encoding.md R91). -/
  | copyByte (a : Nat)
  /-- WAIT: reads STATUS until BUSY reads 0 (30_encoding.md R92). -/
  | wait
deriving DecidableEq, Repr

/-- What the host is about to do. -/
inductive HostOp where
  | bus (b : BusOp)
  /-- DO: the CMD write of `v`, the whole command, then WAIT (30_encoding.md R92), with the command collapsed into
  one step (10_state.md R43, 70_reset_and_hazards.md R191; log entry 2). -/
  | doCommand (v : Dword)
deriving DecidableEq, Repr

/-- Whose turn it is. -/
inductive Turn where
  | host
  | core
  /-- The platform drives reset (70_reset_and_hazards.md R180). -/
  | reset
deriving DecidableEq, Repr

/-- What one host read returned. -/
inductive Saw where
  | reg (off : BitVec 7) (v : Dword)
  | byte (buf : Buffer) (a : Nat) (v : Byte)
deriving DecidableEq, Repr

/-- The state of the machine. -/
structure State where
  /-- CMD.OP (10_state.md R22). -/
  cmdOp     : BitVec 4
  /-- STATUS.BUSY (10_state.md R24). -/
  busy      : Bool
  /-- STATUS.DONE (10_state.md R25). -/
  done      : Bool
  /-- STATUS.ERR (10_state.md R25). -/
  err       : Bool
  /-- STATUS.ECODE (10_state.md R25, 60_exceptions.md R151). -/
  ecode     : BitVec 4
  /-- WIDTH.W (10_state.md R26). -/
  width     : Half
  /-- HEIGHT.H (10_state.md R27). -/
  height    : Half
  /-- SRC_LEN.LEN (10_state.md R28). -/
  srcLen    : Dword
  /-- OUT_LEN.LEN (10_state.md R29). -/
  outLen    : Dword
  /-- The parameter SRC_SIZE (10_state.md R30). -/
  srcSize   : Dword
  /-- The parameter DST_SIZE (10_state.md R31). -/
  dstSize   : Dword
  /-- ERR_POS.POS (10_state.md R32). -/
  errPos    : Dword
  /-- The working registers (10_state.md R35). -/
  work      : Work
  /-- The SRC buffer (20_memory.md R50). -/
  src       : Memory
  /-- The DST buffer (20_memory.md R50). -/
  dst       : Memory
  /-- What the host will do, first first (the model's own field, log entry 1). -/
  program   : List HostOp
  /-- Whose turns come next, first first (the model's own field, log entry 1). -/
  schedule  : List Turn
  /-- What the host has read, newest first (the model's own field, log entry 22). -/
  saw       : List Saw
  /-- How many free values have been drawn (the model's own field, log entries 8, 9). -/
  draws     : Nat
  /-- How many resets have happened (the model's own field, log entry 7). -/
  resets    : Nat
  /-- The lengths below which failed DECOMPRESS commands left DST unspecified, newest first (the model's own field,
  log entry 13). -/
  dstSpoils : List Nat
deriving DecidableEq, Repr

/-- Why the machine stops. -/
inductive Fault where
  /-- Raised by the core's read of a SRC byte that has no defined value: nothing wrote it since reset
  (70_reset_and_hazards.md R182, 93_implementation_defined.md U2). Safe: the chip would read some value. -/
  | srcByteUnwritten (a : Nat)
  /-- Raised by the core's read of SRC at an offset at or above SRC_SIZE, where MemRead is not defined (00_scope.md
  R10). Safe; no state that meets State.Inv reaches it (log entry 14). -/
  | srcOutOfRange (a : Nat)
  /-- Raised by the core's write of DST at an offset at or above DST_SIZE, where MemWrite is not defined (00_scope.md
  R10). Safe; no state that meets State.Inv reaches it (log entry 14). -/
  | dstOutOfRange (a : Nat)
deriving DecidableEq, Repr

/-- Why an instruction has no meaning in a state. -/
inductive Refusal where
  /-- Raised by an arm of exec whose instruction has no meaning yet. Safe. -/
  | notModelled (mnemonic : String)
  /-- Raised by RUN and LIT in a state where no DECOMPRESS is in its record loop: a record is performed only there
  (40_decompress.md R103), and the spec gives it no effect elsewhere. Safe; step never answers it (log entry 17). -/
  | recordOutsideDecompress
deriving DecidableEq, Repr

/-- What one instruction or one step answers. -/
abbrev Out := Host.Outcome State Fault Refusal

/-- The machine right after reset (10_state.md R42). The buffers hold no defined byte (70_reset_and_hazards.md R182);
the working registers are blank (log entry 11); the sizes are the parameters (log entry 4); the model's own fields are
empty (log entry 28). -/
def State.reset : State :=
  { cmdOp := 0, busy := false, done := false, err := false, ecode := 0, width := 0, height := 0, srcLen := 0,
    outLen := 0, srcSize := BitVec.ofNat 64 Config.srcSizeAtReset, dstSize := BitVec.ofNat 64 Config.dstSizeAtReset,
    errPos := 0, work := Work.blank, src := [], dst := [], program := [], schedule := [], saw := [], draws := 0,
    resets := 0, dstSpoils := [] }

end Sys2Proof.Machine
end

