-- ==== Sys2Proof/Machine/Flags.lean ====
section
/-! DEFINITION. The STATUS register and the updates of its fields (10_state.md R23 to R25, 60_exceptions.md R151,
R155, R157, R158). No command has any other flag (10_state.md R41). -/

namespace Sys2Proof.Machine

/-- The ECODE of an error (60_exceptions.md R151). -/
def CodecError.code : CodecError → BitVec 4
  | .truncatedStream => 1
  | .sizeMismatch => 2
  | .capacity => 3
  | .badLength => 4
  | .illegalOp => 5

/-- What a read of STATUS returns: BUSY bit 0, DONE bit 1, ERR bit 2, ECODE bits 11:8, the reserved bits 0
(10_state.md R23). -/
def State.statusWord (s : State) : Dword :=
  (BitVec.ofBool s.busy).setWidth 64 ||| (BitVec.ofBool s.done).setWidth 64 <<< 1 |||
    (BitVec.ofBool s.err).setWidth 64 <<< 2 ||| s.ecode.setWidth 64 <<< 8

/-- STATUS at the start of a command (60_exceptions.md R155). -/
def State.statusStart (s : State) : State := { s with busy := true, done := false, err := false, ecode := 0 }

/-- STATUS after a successful completion (60_exceptions.md R157). -/
def State.statusFinish (s : State) : State := { s with busy := false, done := true, err := false, ecode := 0 }

/-- STATUS after an error completion (60_exceptions.md R158). -/
def State.statusError (s : State) (e : CodecError) : State :=
  { s with busy := false, done := true, err := true, ecode := e.code }

/-- The host's clear of DONE, ERR and ECODE (10_state.md R25). -/
def State.statusClear (s : State) : State := { s with done := false, err := false, ecode := 0 }

end Sys2Proof.Machine
end

