-- ==== Sys2Proof/WellFormed.lean ====
section
/-! DEFINITION. Which instructions have an encoding: a literal record carries 1 to 128 bytes (30_encoding.md R73,
R89); every other instruction's operands are bounded by their types. -/

namespace Sys2Proof

/-- The instruction has an encoding (30_encoding.md R72, R73, R79). -/
def Instr.wf : Instr → Bool
  | .run _ _ => true
  | .lit bs => decide (1 ≤ bs.length) && decide (bs.length ≤ 128)
  | .decompress => true
  | .compress => true
  | .planarToRgb => true
  | .rgbToPlanar => true
  | .reservedLow _ => true
  | .reservedHigh _ => true

end Sys2Proof
end

