-- ==== Sys2Proof/Decode.lean ====
section
/-! DEFINITION. Decoding, total on any bytes and rejecting by name, and the encoder: stream records
(30_encoding.md R70 to R76) and CMD words (30_encoding.md R78 to R81). -/

namespace Sys2Proof

/-- Why bytes are no instruction. -/
inductive Reject where
  /-- The stream has no byte left (30_encoding.md R70: the stream ends where its last record ends). -/
  | emptyStream
  /-- The record's data bytes run past the end of the stream (30_encoding.md R76, 40_decompress.md R107). -/
  | truncatedRecord
  /-- A command is one 64-bit word (30_encoding.md R78); fewer than 8 bytes are none. -/
  | shortCommand
deriving DecidableEq, Repr

/-- The literal count `K = 0x100 - cb` of a control byte `cb >= 0x80` (30_encoding.md R74). -/
def literalCount (cb : Byte) : Nat := 256 - cb.toNat

/-- The run length `L = cb[6:0] + 3` (30_encoding.md R74). -/
def runLength (r : BitVec 7) : Nat := r.toNat + 3

/-- The length in bytes of the record a control byte begins (30_encoding.md R75). -/
def recordLength (cb : Byte) : Nat := if cb.toNat < 128 then 2 else 1 + literalCount cb

/-- Reads one record from the front of a stream (30_encoding.md R71 to R76). -/
def decodeRecord (stream : List Byte) : Except Reject (Instr × List Byte) :=
  match stream with
  | [] => .error .emptyStream
  | cb :: rest =>
    if cb.toNat < 128 then
      match rest with
      | [] => .error .truncatedRecord
      | v :: rest' => .ok (.run (cb.setWidth 7) v, rest')
    else if rest.length < literalCount cb then .error .truncatedRecord
    else .ok (.lit (rest.take (literalCount cb)), rest.drop (literalCount cb))

/-- Reads the command of a word written to CMD: OP is bits 3:0, bits 63:4 are ignored (30_encoding.md R78 to
R81). -/
def decodeCommand (w : Dword) : Instr :=
  match w.toNat % 16 with
  | 0 => .decompress
  | 1 => .compress
  | 2 => .planarToRgb
  | 3 => .rgbToPlanar
  | op => if op < 8 then .reservedLow (w.setWidth 2) else .reservedHigh (w.setWidth 3)

/-- The byte lanes of a register, the least significant first (20_memory.md R57). -/
def toLanes (v : Dword) : List Byte := (List.range 8).map fun j => v.extractLsb' (8 * j) 8

/-- The register value of byte lanes, the least significant first (20_memory.md R57). -/
def ofLanes (bs : List Byte) : Dword := BitVec.ofNat 64 (bs.foldr (fun b acc => b.toNat + 256 * acc) 0)

/-- The decoder: reads one instruction of the given space from the front of the bytes. -/
def decode (k : Kind) (bs : List Byte) : Except Reject (Instr × List Byte) :=
  match k with
  | .record => decodeRecord bs
  | .command =>
    if bs.length < 8 then .error .shortCommand
    else .ok (decodeCommand (ofLanes (bs.take 8)), bs.drop 8)

/-- The OP of a command (30_encoding.md R79); a record has none. -/
def Instr.op? : Instr → Option (BitVec 4)
  | .run _ _ => none
  | .lit _ => none
  | .decompress => some 0
  | .compress => some 1
  | .planarToRgb => some 2
  | .rgbToPlanar => some 3
  | .reservedLow x => some (1#2 ++ x)
  | .reservedHigh x => some (1#1 ++ x)

/-- The word a host writes to CMD for an OP, with the ignored bits 63:4 written as 0 (30_encoding.md R78). -/
def commandWord (op : BitVec 4) : Dword := op.setWidth 64

/-- The encoder: a record's bytes (30_encoding.md R72, R73), or a CMD word's byte lanes (R78, R79). -/
def encode (i : Instr) : List Byte :=
  match i with
  | .run r v => [r.setWidth 8, v]
  | .lit bs => BitVec.ofNat 8 (256 - bs.length) :: bs
  | .decompress => toLanes (commandWord 0)
  | .compress => toLanes (commandWord 1)
  | .planarToRgb => toLanes (commandWord 2)
  | .rgbToPlanar => toLanes (commandWord 3)
  | .reservedLow x => toLanes (commandWord (1#2 ++ x))
  | .reservedHigh x => toLanes (commandWord (1#1 ++ x))

/-- The bytes a record appends to the output (30_encoding.md R72, R73; 40_decompress.md R105, R106). A command
is no record and appends none. -/
def Instr.output (i : Instr) : List Byte :=
  match i with
  | .run r v => List.replicate (runLength r) v
  | .lit bs => bs
  | .decompress => []
  | .compress => []
  | .planarToRgb => []
  | .rgbToPlanar => []
  | .reservedLow _ => []
  | .reservedHigh _ => []

/-- The number of bytes an instruction's encoding takes (30_encoding.md R72, R73, R78). -/
def Instr.byteLength (i : Instr) : Nat :=
  match i with
  | .run _ _ => 2
  | .lit bs => 1 + bs.length
  | .decompress => 8
  | .compress => 8
  | .planarToRgb => 8
  | .rgbToPlanar => 8
  | .reservedLow _ => 8
  | .reservedHigh _ => 8

/-- Which space a word of the opcode table is read in. The table holds both spaces and numbers the bits of both from 0.
DESIGN CHOICE (log entry 16), about this numbering only and not about the machine: 64 bits are a CMD word, one byte below
16 is a CMD word with its ignored bits 0, and everything else is a record. -/
def tableKind (nbits w : Nat) : Kind :=
  if nbits = 64 then .command else if nbits ≤ 8 ∧ w % 2 ^ nbits < 16 then .command else .record

/-- The bytes of a table word, first byte first, with zeros above `nbits` up to the longest instruction (a
literal record of 129 bytes, 30_encoding.md R73). -/
def tableBytes (nbits w : Nat) : List Byte :=
  (List.range 129).map fun j => BitVec.ofNat 8 (w % 2 ^ nbits / 2 ^ (8 * j))

/-- The instruction the decoder reads from a word of the opcode table. -/
def decodeTableWord (nbits w : Nat) : Option Instr :=
  match decode (tableKind nbits w) (tableBytes nbits w) with
  | .ok (i, _) => some i
  | .error _ => none

end Sys2Proof
end

