-- ==== Sys2Proof/Machine/Operands.lean ====
section
/-! DEFINITION. The operand forms: where the register block, the planes and the pixels lie, and the lengths a command
computes from its operands, all exact naturals (00_scope.md R9). -/

namespace Sys2Proof.Machine

/-- `ceil_div(a, b)`: the least `q` with `q * b >= a` (00_scope.md R10). -/
def ceilDiv (a b : Nat) : Nat := (a + b - 1) / b

/-- The expected length `3 * w * h`, never wrapping (40_decompress.md R101). -/
def expectedLength (w h : Nat) : Nat := 3 * w * h

/-- The most bytes COMPRESS writes for `n` input bytes (41_compress.md R124). -/
def compressBound (n : Nat) : Nat := n + ceilDiv n 127

/-- The required DST length of a command (60_exceptions.md R154). -/
def requiredLength (op : BitVec 4) (w h n : Nat) : Nat :=
  if op = 1 then compressBound n else expectedLength w h

/-- Offset of plane `c` (0 Blue, 1 Green, 2 Red) at pixel `k` of `N` in a planar buffer (42_convert.md R143). -/
def planeOffset (N c k : Nat) : Nat := c * N + k

/-- Offset of channel `c` (0 Blue, 1 Green, 2 Red) of pixel `k` in a pixel buffer, which holds R, G, B
(42_convert.md R143). -/
def pixelOffset (c k : Nat) : Nat := 3 * k + (2 - c)

/-- The index of the pixel at column `x` and row `y` (00_scope.md R11, row-major; log entry 30). -/
def pixelIndex (w x y : Nat) : Nat := y * w + x

/-- The register at an offset of the block; none where the offset is no multiple of 8 (10_state.md R21, R33,
20_memory.md R58). -/
def regAt (off : BitVec 7) : Option Reg :=
  if off.toNat % 8 ≠ 0 then none
  else
    match off.toNat / 8 with
    | 0 => some .cmd
    | 1 => some .status
    | 2 => some .width
    | 3 => some .height
    | 4 => some .srcLen
    | 5 => some .outLen
    | 6 => some .srcSize
    | 7 => some .dstSize
    | 8 => some .errPos
    | _ => some .reserved

/-- The offset of a named register (10_state.md R21); the first of the reserved ones (R33). -/
def Reg.offset : Reg → BitVec 7
  | .cmd => 0x00
  | .status => 0x08
  | .width => 0x10
  | .height => 0x18
  | .srcLen => 0x20
  | .outLen => 0x28
  | .srcSize => 0x30
  | .dstSize => 0x38
  | .errPos => 0x40
  | .reserved => 0x48

/-- The platform address of an offset of the register block (20_memory.md R56). The core sees only the offset. -/
def platformAddress (off : BitVec 7) : Nat := Config.regBase + off.toNat

end Sys2Proof.Machine
end

