-- ==== Sys2Proof/Machine/Ops.lean ====
section
/-! DEFINITION. The operations every meaning is made of: a buffer's bytes, the core's reads and writes (00_scope.md
R10, 20_memory.md R51, R52), the output primitive (40_decompress.md R104), a command's start and its two completions
(60_exceptions.md R155, R157, R158), and reset (70_reset_and_hazards.md R180 to R182). -/

namespace Sys2Proof.Machine

/-! ### A buffer's bytes -/

/-- The canonical form: offsets strictly rising. An unlisted offset has no value, so no entry can equal what it
reads as. -/
abbrev Memory.wf (m : Memory) : Prop := m.Pairwise fun c d => c.1 < d.1

/-- The byte at an offset, or none where it has no defined value. -/
def Memory.read (m : Memory) (a : Nat) : Option Byte :=
  match m with
  | [] => none
  | c :: rest => if c.1 = a then some c.2 else Memory.read rest a

/-- Sets the byte at an offset. -/
def Memory.write (m : Memory) (a : Nat) (v : Byte) : Memory :=
  match m with
  | [] => [(a, v)]
  | c :: rest =>
    if a < c.1 then (a, v) :: c :: rest
    else if c.1 = a then (a, v) :: rest
    else c :: Memory.write rest a v

/-- Sets the bytes from an offset up, one after the other. -/
def Memory.writeAll (m : Memory) (a : Nat) (vs : List Byte) : Memory :=
  match vs with
  | [] => m
  | v :: rest => Memory.writeAll (Memory.write m a v) (a + 1) rest

/-- Leaves every offset below `len` without a defined value. -/
def Memory.forget (m : Memory) (len : Nat) : Memory := m.filter fun c => len ≤ c.1

/-- The bytes at offsets `a` to `a + len - 1`, if every one has a value. -/
def Memory.readAll (m : Memory) (a : Nat) (len : Nat) : Option (List Byte) :=
  match len with
  | 0 => some []
  | len + 1 =>
    match Memory.read m a, Memory.readAll m (a + 1) len with
    | some b, some bs => some (b :: bs)
    | _, _ => none

/-! ### The core's accesses -/

/-- `MemRead(S:a, 1)` (00_scope.md R10). A byte without a value is the fault of 70_reset_and_hazards.md R182. -/
def srcRead (s : State) (a : Nat) : Except Fault Byte :=
  if a < s.srcSize.toNat then
    match s.src.read a with
    | some b => .ok b
    | none => .error (.srcByteUnwritten a)
  else .error (.srcOutOfRange a)

/-- `MemRead(S:a + j, 1)` for `j` from 0 to `len - 1`. -/
def srcReadAll (s : State) (a : Nat) (len : Nat) : Except Fault (List Byte) :=
  match len with
  | 0 => .ok []
  | len + 1 => do
    let b ← srcRead s a
    let bs ← srcReadAll s (a + 1) len
    .ok (b :: bs)

/-- `MemWrite(D:a, 1, v)` (00_scope.md R10). -/
def dstWrite (s : State) (a : Nat) (v : Byte) : Except Fault State :=
  if a < s.dstSize.toNat then .ok { s with dst := s.dst.write a v } else .error (.dstOutOfRange a)

/-- `MemWrite(D:a + j, 1, vs[j])` for every `j`. -/
def dstWriteAll (s : State) (a : Nat) (vs : List Byte) : Except Fault State :=
  match vs with
  | [] => .ok s
  | v :: rest => do
    let s ← dstWrite s a v
    dstWriteAll s (a + 1) rest

/-- Replaces the working registers. -/
def State.setWork (s : State) (wk : Work) : State := { s with work := wk }

/-- The output primitive of DECOMPRESS (40_decompress.md R104). -/
def emit (s : State) (b : Byte) : Except Fault State :=
  if s.work.p < s.work.exp then do
    let s ← dstWrite s s.work.p b
    .ok (s.setWork { s.work with p := s.work.p + 1 })
  else if s.work.overrun then .ok s
  else .ok (s.setWork { s.work with overrun := true, overpos := s.work.pc })

/-- `emit` of every byte in turn (40_decompress.md R105, R106). -/
def emitAll (s : State) (bs : List Byte) : Except Fault State :=
  match bs with
  | [] => .ok s
  | b :: rest => do
    let s ← emit s b
    emitAll s rest

/-! ### A command's start and completions -/

/-- The working registers at a command's start: the latched operands (60_exceptions.md R155), the prechecks next.
DESIGN CHOICE (log entry 31, unsafe): the others, which the command has not written yet (10_state.md R35), hold 0 or
false. -/
def State.latched (s : State) (op : BitVec 4) : Work :=
  { Work.blank with op := op, w := s.width.toNat, h := s.height.toNat, n := s.srcLen.toNat }

/-- The start of a command, in one step (60_exceptions.md R155). -/
def start (op : BitVec 4) (s : State) : State :=
  { s.statusStart with cmdOp := op, outLen := 0, errPos := 0, work := s.latched op }

/-- `finish(len)`: the successful completion (60_exceptions.md R157). -/
def finish (len : Nat) (s : State) : State :=
  { s.statusFinish with outLen := BitVec.ofNat 64 len, errPos := 0, work := Work.blank }

/-- Whether an error leaves the DST bytes below the expected length unspecified (60_exceptions.md R159). -/
def CodecError.spoilsDst : CodecError → Bool
  | .truncatedStream => true
  | .sizeMismatch => true
  | .capacity => false
  | .badLength => false
  | .illegalOp => false

/-- Leaves the DST bytes below `len` with unspecified values (60_exceptions.md R159, 93_implementation_defined.md
U1; log entry 13). -/
def spoilDst (len : Nat) (s : State) : State :=
  { s with dst := s.dst.forget len, dstSpoils := len :: s.dstSpoils }

/-- `raise E(pos)`: the error completion every failed command ends with (60_exceptions.md R158, R159). This is the
core's one form of taking an exception; the return from it is the host's clear of STATUS (R160). -/
def raiseError (e : CodecError) (pos : Nat) (s : State) : State :=
  let s := if e.spoilsDst then spoilDst s.work.exp s else s
  { s.statusError e with outLen := 0, errPos := BitVec.ofNat 64 pos, work := Work.blank }

/-! ### Reset and bytes without a value -/

/-- Reset (70_reset_and_hazards.md R180 to R182): every register at its reset value, the parameters kept, a running
command aborted, both buffers without defined values. The host and the order of turns are no part of the core
(log entry 18). -/
def platformReset (s : State) : State :=
  { State.reset with srcSize := s.srcSize, dstSize := s.dstSize, program := s.program, schedule := s.schedule,
                     saw := s.saw, draws := s.draws, resets := s.resets + 1, dstSpoils := s.dstSpoils }

/-- What a SRC byte without a defined value holds: a free value that stays the same until the next reset (log
entry 7). -/
def unspecifiedSrcByte (s : State) (a : Nat) : Byte := Config.freeSrcByte s.resets a

/-- What a DST byte without a defined value holds: a free value that stays the same until a reset or a failed
DECOMPRESS leaves the byte unspecified anew (log entry 7). -/
def unspecifiedDstByte (s : State) (a : Nat) : Byte :=
  Config.freeDstByte (s.resets + (s.dstSpoils.filter fun len => a < len).length) a

end Sys2Proof.Machine
end

