-- ==== Sys2Proof/Machine/Compress.lean ====
section
/-! DEFINITION. The greedy policy of COMPRESS (41_compress.md R121 to R126), one emitted record per core step
(70_reset_and_hazards.md R191). -/

namespace Sys2Proof.Machine

/-- Extends a run of `b` that starts at `i` and holds `r` bytes by at most `left` more (41_compress.md R122). -/
def runLenFrom (s : State) (i : Nat) (b : Byte) (left r : Nat) : Except Fault Nat :=
  match left with
  | 0 => .ok r
  | left + 1 =>
    if i + r < s.work.n then do
      let c ← srcRead s (i + r)
      if c = b then runLenFrom s i b left (r + 1) else .ok r
    else .ok r

/-- `runlen(i)`: how many bytes from `i` on equal SRC byte `i`, at most 130 (41_compress.md R122). DESIGN CHOICE (log
entry 15, safe): SRC byte `i` is read first, and once; R122 does not say which side of its comparison is read first. -/
def runLen (s : State) (i : Nat) : Except Fault Nat := do
  let b ← srcRead s i
  runLenFrom s i b 129 1

/-- `triple(j)`: bytes `j`, `j + 1` and `j + 2` exist and are equal (41_compress.md R123). DESIGN CHOICE (log entry 15,
safe): each comparison reads its left side first. -/
def triple (s : State) (j : Nat) : Except Fault Bool :=
  if j + 2 < s.work.n then do
    let a ← srcRead s j
    let b ← srcRead s (j + 1)
    if a = b then do
      let c ← srcRead s (j + 2)
      .ok (b = c)
    else .ok false
  else .ok false

/-- Extends a literal that starts at `i` and holds `len` bytes by at most `left` more, while the next three bytes are
not all equal (41_compress.md R123, R125). -/
def litLenFrom (s : State) (i : Nat) (left len : Nat) : Except Fault Nat :=
  match left with
  | 0 => .ok len
  | left + 1 =>
    if i + len < s.work.n then do
      let stop ← triple s (i + len)
      if stop then .ok len else litLenFrom s i left (len + 1)
    else .ok len

/-- The length `L` of the literal that starts at `i`, 1 to 127 (41_compress.md R123). -/
def litLen (s : State) (i : Nat) : Except Fault Nat := litLenFrom s i 126 1

/-- The record COMPRESS emits at `i`, and how many input bytes it takes (41_compress.md R123). -/
def nextRecord (s : State) : Except Fault (Instr × Nat) := do
  let b ← srcRead s s.work.i
  let r ← runLen s s.work.i
  if 3 ≤ r then .ok (.run (BitVec.ofNat 7 (r - 3)) b, r)
  else do
    let len ← litLen s s.work.i
    let bs ← srcReadAll s s.work.i len
    .ok (.lit bs, len)

/-- One core step of COMPRESS's body: one record into DST, or the completion (41_compress.md R123). -/
def compressStep (s : State) : Except Fault State :=
  if s.work.i < s.work.n then do
    let (record, taken) ← nextRecord s
    let s ← dstWriteAll s s.work.o (encode record)
    .ok (s.setWork { s.work with o := s.work.o + record.byteLength, i := s.work.i + taken })
  else .ok (finish s.work.o s)

end Sys2Proof.Machine
end

