-- ==== Sys2Proof/Machine/Convert.lean ====
section
/-! DEFINITION. The plane and pixel converters (42_convert.md R140, R141), one pixel per core step
(70_reset_and_hazards.md R191). -/

namespace Sys2Proof.Machine

/-- SRC byte `a` into DST byte `b`. -/
def moveByte (a b : Nat) (s : State) : Except Fault State := do
  let v ← srcRead s a
  dstWrite s b v

/-- Ends a pixel: the next pixel index (42_convert.md R140, R141; 10_state.md R39). -/
def nextPixel (s : State) : State := s.setWork { s.work with k := s.work.k + 1 }

/-- One core step of PLANAR_TO_RGB's body (42_convert.md R140). -/
def planarToRgbStep (s : State) : Except Fault State :=
  let N := s.work.w * s.work.h
  let k := s.work.k
  if k < N then do
    let s ← moveByte (planeOffset N 2 k) (pixelOffset 2 k) s
    let s ← moveByte (planeOffset N 1 k) (pixelOffset 1 k) s
    let s ← moveByte (planeOffset N 0 k) (pixelOffset 0 k) s
    .ok (nextPixel s)
  else .ok (finish (3 * N) s)

/-- One core step of RGB_TO_PLANAR's body (42_convert.md R141). -/
def rgbToPlanarStep (s : State) : Except Fault State :=
  let N := s.work.w * s.work.h
  let k := s.work.k
  if k < N then do
    let s ← moveByte (pixelOffset 0 k) (planeOffset N 0 k) s
    let s ← moveByte (pixelOffset 1 k) (planeOffset N 1 k) s
    let s ← moveByte (pixelOffset 2 k) (planeOffset N 2 k) s
    .ok (nextPixel s)
  else .ok (finish (3 * N) s)

end Sys2Proof.Machine
end

