-- ==== Sys2Proof/Machine/Records.lean ====
section
/-! DEFINITION. The records of a stream: RUN and LIT (40_decompress.md R105 to R107), and the fetch of the next
record (40_decompress.md R103). -/

namespace Sys2Proof.Machine

/-- A DECOMPRESS is in its record loop (40_decompress.md R103). -/
def State.decompressing (s : State) : Bool := s.busy && s.work.phase = .body && s.work.op = 0

/-- Turns an operation's answer into an instruction's. -/
def toOut (r : Except Fault State) : Out :=
  match r with
  | .ok s => .next s
  | .error f => .fault f

/-- Performs one record of `len` bytes whose output is `out`: the whole extent is checked first (40_decompress.md
R107), then the bytes are emitted, then the cursor moves (R105, R106). -/
def performRecord (len : Nat) (out : List Byte) (s : State) : Except Fault State :=
  if s.work.pc + len ≤ s.work.n then do
    let s ← emitAll s out
    .ok (s.setWork { s.work with pc := s.work.pc + len })
  else .ok (raiseError .truncatedStream s.work.pc s)

/-- RUN in a DECOMPRESS (40_decompress.md R105). -/
def runRecord (r : BitVec 7) (v : Byte) (s : State) : Except Fault State :=
  performRecord 2 (List.replicate (runLength r) v) s

/-- LIT in a DECOMPRESS (40_decompress.md R106). -/
def litRecord (bs : List Byte) (s : State) : Except Fault State :=
  performRecord (1 + bs.length) bs s

/-- The meaning of RUN (40_decompress.md R105). Outside a DECOMPRESS's record loop the spec gives a record no
effect (log entry 17). -/
def execRun (r : BitVec 7) (v : Byte) (s : State) : Out :=
  if s.decompressing then toOut (runRecord r v s) else .refused .recordOutsideDecompress

/-- The meaning of LIT (40_decompress.md R106). Outside a DECOMPRESS's record loop the spec gives a record no
effect (log entry 17). -/
def execLit (bs : List Byte) (s : State) : Out :=
  if s.decompressing then toOut (litRecord bs s) else .refused .recordOutsideDecompress

/-- What the record loop finds at the cursor. -/
inductive Fetched where
  /-- The cursor is at the end of the stream (40_decompress.md R108). -/
  | endOfStream
  /-- The record's extent passes the end of the stream (40_decompress.md R107). -/
  | truncated
  /-- A whole record. -/
  | record (i : Instr)
deriving DecidableEq, Repr

/-- Fetches the record at the cursor: its control byte, then, if its extent lies in the stream, its data bytes
(40_decompress.md R103, R107). No byte at or beyond `n` is read. -/
def fetchRecord (s : State) : Except Fault Fetched :=
  if s.work.pc < s.work.n then do
    let cb ← srcRead s s.work.pc
    if s.work.pc + recordLength cb ≤ s.work.n then do
      let data ← srcReadAll s (s.work.pc + 1) (recordLength cb - 1)
      match decodeRecord (cb :: data) with
      | .ok (i, _) => .ok (.record i)
      | .error _ => .ok .truncated
    else .ok .truncated
  else .ok .endOfStream

/-- The end check of DECOMPRESS (40_decompress.md R108). -/
def decompressEnd (s : State) : State :=
  if s.work.overrun then raiseError .sizeMismatch s.work.overpos s
  else if s.work.p ≠ s.work.exp then raiseError .sizeMismatch s.work.n s
  else finish s.work.exp s

/-- One core step of DECOMPRESS's body: one record, or the completion (40_decompress.md R103, R108;
70_reset_and_hazards.md R191). -/
def decompressStep (s : State) : Except Fault State := do
  match ← fetchRecord s with
  | .endOfStream => .ok (decompressEnd s)
  | .truncated => .ok (raiseError .truncatedStream s.work.pc s)
  | .record (.run r v) => runRecord r v s
  | .record (.lit bs) => litRecord bs s
  | .record _ => .ok s

end Sys2Proof.Machine
end

