-- ==== Sys2Proof/Machine/Commands.lean ====
section
/-! DEFINITION. The commands: the common prechecks (60_exceptions.md R154), one core step of a running command
(70_reset_and_hazards.md R191), a command run whole (10_state.md R43), and the meaning of each command. -/

namespace Sys2Proof.Machine

/-- The dispatch after the prechecks: the command's initial working state (60_exceptions.md R154; 40_decompress.md
R102; 41_compress.md R121; 42_convert.md R140, R141). DESIGN CHOICE (log entry 31, unsafe): the working registers that
the command does not use, which R35 gives no value, hold 0 or false. -/
def dispatch (s : State) : State :=
  s.setWork { s.work with
    phase := .body, exp := if s.work.op = 1 then 0 else expectedLength s.work.w s.work.h,
    pc := 0, p := 0, overrun := false, overpos := 0, i := 0, o := 0, k := 0 }

/-- `precheck()`, in the order that gives the error priority (60_exceptions.md R154). -/
def precheck (s : State) : State :=
  if 4 ≤ s.work.op.toNat then raiseError .illegalOp 0 s
  else if s.srcSize.toNat < s.work.n then raiseError .badLength 0 s
  else if (s.work.op = 2 ∨ s.work.op = 3) ∧ s.work.n ≠ expectedLength s.work.w s.work.h then
    raiseError .badLength 0 s
  else if s.dstSize.toNat < requiredLength s.work.op s.work.w s.work.h s.work.n then raiseError .capacity 0 s
  else dispatch s

/-- One core step of a running command's body. No body runs for a reserved OP (60_exceptions.md R154); the last arm
is reached from no state that meets State.Inv (log entry 27). -/
def bodyStep (s : State) : Except Fault State :=
  match s.work.op.toNat with
  | 0 => decompressStep s
  | 1 => compressStep s
  | 2 => planarToRgbStep s
  | 3 => rgbToPlanarStep s
  | _ => .ok (raiseError .illegalOp 0 s)

/-- One core step, at the reference granularity (70_reset_and_hazards.md R191). An idle core does nothing
(60_exceptions.md R169). -/
def coreStep (s : State) : Except Fault State :=
  if s.busy then
    match s.work.phase with
    | .precheck => .ok (precheck s)
    | .body => bodyStep s
  else .ok s

/-- Core steps until the command completes, at most `fuel` of them. -/
def coreRun (fuel : Nat) (s : State) : Except Fault State :=
  match fuel with
  | 0 => .ok s
  | fuel + 1 =>
    if s.busy then do
      let s ← coreStep s
      coreRun fuel s
    else .ok s

/-- At most how many core steps a command of `n` input bytes takes: the prechecks, a step for each record or pixel,
the completion (40_decompress.md R110, 41_compress.md R130, 70_reset_and_hazards.md R190; log entry 26). -/
def stepBound (n : Nat) : Nat := n + 2

/-- A CMD write of `op` with the whole command run in one step (10_state.md R22, R43; 60_exceptions.md R155). While
BUSY = 1 the write is ignored (10_state.md R22, R34; 60_exceptions.md R161). -/
def issue (op : BitVec 4) (s : State) : Out :=
  if s.busy then .next s else toOut (coreRun (stepBound s.srcLen.toNat) (start op s))

/-- The meaning of DECOMPRESS (40_decompress.md R100). -/
def execDecompress (s : State) : Out := issue 0 s

/-- The meaning of COMPRESS (41_compress.md R120). -/
def execCompress (s : State) : Out := issue 1 s

/-- The meaning of PLANAR_TO_RGB (42_convert.md R140). -/
def execPlanarToRgb (s : State) : Out := issue 2 s

/-- The meaning of RGB_TO_PLANAR (42_convert.md R141). -/
def execRgbToPlanar (s : State) : Out := issue 3 s

/-- The meaning of a CMD write with a reserved OP 4 to 7 (30_encoding.md R80). -/
def execReservedLow (x : BitVec 2) (s : State) : Out := issue (1#2 ++ x) s

/-- The meaning of a CMD write with a reserved OP 8 to 15 (30_encoding.md R80). -/
def execReservedHigh (x : BitVec 3) (s : State) : Out := issue (1#1 ++ x) s

end Sys2Proof.Machine
end

