-- ==== Sys2Proof/Machine/Dispatch.lean ====
section
/-! DEFINITION. One arm per instruction. -/

namespace Sys2Proof.Machine

def exec (i : Instr) (s : State) : Host.Outcome State Fault Refusal :=
  match i with
  -- records of a stream
  | .run r v => Sys2Proof.Machine.execRun r v s
  | .lit bs => Sys2Proof.Machine.execLit bs s
  -- commands
  | .decompress => Sys2Proof.Machine.execDecompress s
  | .compress => Sys2Proof.Machine.execCompress s
  | .planarToRgb => Sys2Proof.Machine.execPlanarToRgb s
  | .rgbToPlanar => Sys2Proof.Machine.execRgbToPlanar s
  | .reservedLow x => Sys2Proof.Machine.execReservedLow x s
  | .reservedHigh x => Sys2Proof.Machine.execReservedHigh x s

end Sys2Proof.Machine
end

