-- ==== Sys2Proof/Machine/HostBus.lean ====
section
/-! DEFINITION. The host's transactions: register reads and writes (10_state.md R22 to R34, 20_memory.md R58, R59),
buffer reads and writes (20_memory.md R53 to R55), COPY_DS and WAIT (30_encoding.md R91, R92). -/

namespace Sys2Proof.Machine

/-- The value a supported read of a register returns, busy or idle (10_state.md R22 to R34). -/
def readReg (s : State) (r : Reg) : Dword :=
  match r with
  | .cmd => s.cmdOp.setWidth 64
  | .status => s.statusWord
  | .width => s.width.setWidth 64
  | .height => s.height.setWidth 64
  | .srcLen => s.srcLen
  | .outLen => s.outLen
  | .srcSize => s.srcSize
  | .dstSize => s.dstSize
  | .errPos => s.errPos
  | .reserved => 0

/-- A supported write of `v` to a register (10_state.md R22 to R34). While BUSY = 1 every write is ignored (R34). -/
def writeReg (r : Reg) (v : Dword) (s : State) : State :=
  if s.busy then s
  else
    match r with
    | .cmd => start (v.setWidth 4) s
    | .status => if v.getLsbD 1 then s.statusClear else s
    | .width => { s with width := v.setWidth 16 }
    | .height => { s with height := v.setWidth 16 }
    | .srcLen => { s with srcLen := v }
    | .outLen => s
    | .srcSize => s
    | .dstSize => s
    | .errPos => s
    | .reserved => s

/-- The host learns what a read returned (log entry 22). -/
def State.note (s : State) (x : Saw) : State := { s with saw := x :: s.saw }

/-- A read of `bits` bits at an offset of the block: a register's value, or a free value where the access is not
supported (20_memory.md R58, 93_implementation_defined.md U4). -/
def regRead (off : BitVec 7) (bits : Nat) (s : State) : State :=
  match (if bits = 64 then regAt off else none) with
  | some r => s.note (.reg off (readReg s r))
  | none => { s with draws := s.draws + 1 }.note (.reg off (Config.freeDword s.draws))

/-- A write of `bits` bits at an offset of the block; an unsupported one is ignored (20_memory.md R58). -/
def regWrite (off : BitVec 7) (bits : Nat) (v : Dword) (s : State) : State :=
  match (if bits = 64 then regAt off else none) with
  | some r => writeReg r v s
  | none => s

/-- The size of a buffer in bytes (20_memory.md R50). -/
def State.bufSize (s : State) (buf : Buffer) : Nat :=
  match buf with
  | .src => s.srcSize.toNat
  | .dst => s.dstSize.toNat

/-- The current value of a buffer's byte, a free one where the byte has no defined value (20_memory.md R53,
93_implementation_defined.md U1, U2; log entry 7). -/
def State.currentByte (s : State) (buf : Buffer) (a : Nat) : Byte :=
  match buf with
  | .src => (s.src.read a).getD (unspecifiedSrcByte s a)
  | .dst => (s.dst.read a).getD (unspecifiedDstByte s a)

/-- The byte a host read of a buffer returns, and the state with the draws it took: 0 out of range (20_memory.md R55),
a free byte while BUSY = 1 (R54), else the byte's current value (R53). -/
def hostByte (buf : Buffer) (a : Nat) (s : State) : Byte × State :=
  if s.bufSize buf ≤ a then (0, s)
  else if s.busy then (Config.freeByte s.draws, { s with draws := s.draws + 1 })
  else (s.currentByte buf a, s)

/-- A host read of a buffer byte (20_memory.md R53 to R55). -/
def bufRead (buf : Buffer) (a : Nat) (s : State) : State :=
  let (b, s) := hostByte buf a s
  s.note (.byte buf a b)

/-- A host write of a buffer byte: ignored while BUSY = 1 and out of range (20_memory.md R53 to R55). -/
def bufWrite (buf : Buffer) (a : Nat) (v : Byte) (s : State) : State :=
  if s.busy then s
  else if s.bufSize buf ≤ a then s
  else
    match buf with
    | .src => { s with src := s.src.write a v }
    | .dst => { s with dst := s.dst.write a v }

/-- Puts an operation in front of the host's program. -/
def State.hostNext (s : State) (op : HostOp) : State := { s with program := op :: s.program }

/-- The read half of one byte of COPY_DS; the write half is the host's next transaction (30_encoding.md R91; log
entry 21). -/
def copyByte (a : Nat) (s : State) : State :=
  let (b, s) := hostByte .dst a s
  (s.note (.byte .dst a b)).hostNext (.bus (.bufWrite .src a b))

/-- One read of WAIT: STATUS, and WAIT again if BUSY read 1 (30_encoding.md R92). -/
def waitRead (s : State) : State :=
  let s' := regRead Reg.status.offset 64 s
  if s.busy then s'.hostNext (.bus .wait) else s'

/-- One transaction of the host. -/
def hostAccess (b : BusOp) (s : State) : State :=
  match b with
  | .regWrite off bits v => regWrite off bits v s
  | .regRead off bits => regRead off bits s
  | .bufWrite buf a v => bufWrite buf a v s
  | .bufRead buf a => bufRead buf a s
  | .copyByte a => copyByte a s
  | .wait => waitRead s

end Sys2Proof.Machine
end

