-- ==== Sys2Proof/Machine/Loader.lean ====
section
/-! DEFINITION. Placing an instruction where the next step fetches it (log entry 3): a command in front of the host's
program, a record at the cursor of a DECOMPRESS in its record loop. -/

namespace Sys2Proof.Machine

/-- The state with the host about to issue the CMD word `w` whole, and its turn next. -/
def placeCommand (w : Dword) (s : State) : State :=
  { s with program := .doCommand w :: s.program, schedule := .host :: s.schedule }

/-- The state in a DECOMPRESS's record loop: as it is, or with a DECOMPRESS of its dimensions started and past its
prechecks. -/
def enterDecompress (s : State) : State :=
  if s.decompressing then s
  else
    let s := start 0 s
    s.setWork { s.work with phase := .body, exp := expectedLength s.work.w s.work.h }

/-- The state with the bytes of a record at the cursor of a DECOMPRESS's record loop, the stream at least that long,
and the core's turn next. -/
def placeRecord (bytes : List Byte) (s : State) : State :=
  let s := enterDecompress s
  let n := max s.work.n (s.work.pc + bytes.length)
  { s.setWork { s.work with n := n } with
    src := s.src.writeAll s.work.pc bytes, srcLen := BitVec.ofNat 64 n, schedule := .core :: s.schedule }

/-- Places the instruction of an opcode-table word (Decode.lean, decodeTableWord). -/
def placeTableWord (s : State) (nbits w : Nat) : State :=
  match tableKind nbits w with
  | .command => placeCommand (ofLanes ((tableBytes nbits w).take 8)) s
  | .record =>
    match decodeTableWord nbits w with
    | some i => placeRecord (encode i) s
    | none => s

end Sys2Proof.Machine
end

