-- ==== Sys2Proof/Machine/Step.lean ====
section
/-! DEFINITION. One step of the machine: the turn of one agent (60_exceptions.md R156, 70_reset_and_hazards.md R190,
R191; log entries 1, 2). -/

namespace Sys2Proof.Machine

/-- The core's turn: in a DECOMPRESS's record loop, the record at the cursor; else one core step. -/
def coreTurn (s : State) : Out :=
  if s.decompressing then
    match fetchRecord s with
    | .ok (.record i) => exec i s
    | _ => toOut (coreStep s)
  else toOut (coreStep s)

/-- The host's turn: the first operation of its program. DO is the command as one instruction, then WAIT
(30_encoding.md R92). -/
def hostTurn (s : State) : Out :=
  match s.program with
  | [] => .next s
  | .bus b :: rest => .next (hostAccess b { s with program := rest })
  | .doCommand v :: rest => exec (decodeCommand v) { s with program := .bus .wait :: rest }

/-- One step. The schedule says whose turn it is; where it is empty, a running core moves (70_reset_and_hazards.md
R190, weak fairness), and else the host. -/
def step (s : State) : Host.Outcome State Fault Refusal :=
  match s.schedule with
  | .host :: rest => hostTurn { s with schedule := rest }
  | .core :: rest => coreTurn { s with schedule := rest }
  | .reset :: rest => .next (platformReset { s with schedule := rest })
  | [] => if s.busy then coreTurn s else hostTurn s

/-- `s` with the instruction of an opcode-table word placed where the next step fetches it (log entry 3). -/
def State.withFetchWord (s : State) (nbits w : Nat) : State := placeTableWord s nbits w

end Sys2Proof.Machine
end

