-- ==== Sys2Proof/Machine/Assembler.lean ====
section
/-! DEFINITION. The assembler syntax: the stream's records and pseudo-instructions (30_encoding.md R89, R90), and the
host's operations and pseudo-operations (30_encoding.md R91, R92). -/

namespace Sys2Proof.Machine

/-- `RUN L, v`; a line outside 3 <= L <= 130 does not assemble (30_encoding.md R89). -/
def asmRun (len : Nat) (v : Byte) : Option Instr :=
  if 3 ≤ len ∧ len ≤ 130 then some (.run (BitVec.ofNat 7 (len - 3)) v) else none

/-- `LIT b1, ..., bK`; a line outside 1 <= K <= 128 does not assemble (30_encoding.md R89). -/
def asmLit (bs : List Byte) : Option Instr :=
  if 1 ≤ bs.length ∧ bs.length ≤ 128 then some (.lit bs) else none

/-- `FILL`, with `fuel` bounding the number of records. -/
def asmFillFrom (fuel len : Nat) (v : Byte) : List Instr :=
  match fuel with
  | 0 => []
  | fuel + 1 =>
    if 3 ≤ len then .run (BitVec.ofNat 7 (min len 130 - 3)) v :: asmFillFrom fuel (len - min len 130) v
    else if len = 0 then []
    else [.lit (List.replicate len v)]

/-- `FILL L, v` for L >= 1 (30_encoding.md R90). DESIGN CHOICE (log entry 32, unsafe): for L = 0, of which R90 says
nothing, no record. -/
def asmFill (len : Nat) (v : Byte) : List Instr := asmFillFrom len len v

/-- `DATA`, with `fuel` bounding the number of records. -/
def asmDataFrom (fuel : Nat) (bs : List Byte) : List Instr :=
  match fuel with
  | 0 => []
  | fuel + 1 => if bs = [] then [] else .lit (bs.take 128) :: asmDataFrom fuel (bs.drop 128)

/-- `DATA b1, ..., bK` for K >= 1 (30_encoding.md R90). DESIGN CHOICE (log entry 32, unsafe): for K = 0, of which R90
says nothing, no record. -/
def asmData (bs : List Byte) : List Instr := asmDataFrom bs.length bs

/-- The bytes of a stream of records, end to end (30_encoding.md R70). -/
def assemble (records : List Instr) : List Byte := records.flatMap encode

/-- What a stream of records decodes to (40_decompress.md R113). -/
def outputOf (records : List Instr) : List Byte := records.flatMap Instr.output

/-- `WR NAME, v` (30_encoding.md R91). -/
def hostWr (r : Reg) (v : Dword) : HostOp := .bus (.regWrite r.offset 64 v)

/-- `RD NAME` (30_encoding.md R91). -/
def hostRd (r : Reg) : HostOp := .bus (.regRead r.offset 64)

/-- `LOADS a, b0, b1, ...` (30_encoding.md R91). -/
def hostLoads (a : Nat) (bs : List Byte) : List HostOp :=
  match bs with
  | [] => []
  | b :: rest => .bus (.bufWrite .src a b) :: hostLoads (a + 1) rest

/-- `DUMPD a, m` (30_encoding.md R91). -/
def hostDumpd (a m : Nat) : List HostOp := (List.range m).map fun j => .bus (.bufRead .dst (a + j))

/-- `COPY_DS m` (30_encoding.md R91). -/
def hostCopyDs (m : Nat) : List HostOp := (List.range m).map fun j => .bus (.copyByte j)

/-- `DO OPNAME`, transaction by transaction (30_encoding.md R92). -/
def hostDo (op : BitVec 4) : List HostOp := [hostWr .cmd (commandWord op), .bus .wait]

/-- `CLEAR` (30_encoding.md R92). -/
def hostClear : HostOp := hostWr .status 2

end Sys2Proof.Machine
end

