-- ==== Sys2Proof/Machine/Container.lean ====
section
/-! DEFINITION. The container a host wraps a stream in (30_encoding.md R84 to R88). The core never sees the header; its
layout is in scope (00_scope.md R4), the software that parses it is the host's (00_scope.md R5). -/

namespace Sys2Proof.Machine

/-- The fields of the header (30_encoding.md R85). -/
structure Header where
  width        : Half
  height       : Half
  bitsPerPixel : Byte
deriving DecidableEq, Repr

/-- The low byte of a 16-bit field, stored first (30_encoding.md R86). -/
def lowByte (x : Half) : Byte := x.setWidth 8

/-- The high byte of a 16-bit field, stored second (30_encoding.md R86). -/
def highByte (x : Half) : Byte := x.extractLsb' 8 8

/-- The eight bytes of a header, the reserved ones zero (30_encoding.md R85, R86, R87). -/
def writeHeader (h : Header) : List Byte :=
  [lowByte h.width, highByte h.width, lowByte h.height, highByte h.height, h.bitsPerPixel, 0, 0, 0]

/-- The header at the front of a container, or none where fewer than 8 bytes are there; the reserved bytes are ignored
and bitsPerPixel is not validated (30_encoding.md R86, R87, R88). -/
def parseHeader (bytes : List Byte) : Option Header :=
  match bytes with
  | w0 :: w1 :: h0 :: h1 :: bpp :: _ :: _ :: _ :: _ => some { width := w1 ++ w0, height := h1 ++ h0, bitsPerPixel := bpp }
  | _ => none

/-- A container: a header with bitsPerPixel 24, then the stream (30_encoding.md R84, R87). -/
def container (w h : Half) (stream : List Byte) : List Byte :=
  writeHeader { width := w, height := h, bitsPerPixel := 24 } ++ stream

/-- The stream of a container: the bytes from offset 8 on (30_encoding.md R84). -/
def streamOf (bytes : List Byte) : List Byte := bytes.drop 8

end Sys2Proof.Machine
end

