-- ==== Sys2Proof/Safety.lean ====
section
/-! DEFINITION. What claims rest on: the invariant every step keeps, in the spec's own terms (10_state.md R23, R34, R35;
20_memory.md R51, R52), and what counts as a safe answer of a step. -/

namespace Sys2Proof.Machine

/-- Every listed byte lies inside a buffer of `size` bytes (20_memory.md R50). -/
def Memory.fits (m : Memory) (size : Nat) : Prop := ∀ c ∈ m, c.1 < size

/-- The legal values of STATUS, OUT_LEN and ERR_POS (10_state.md R23, R29, R32, R34; 60_exceptions.md R151). -/
structure State.StatusLegal (s : State) : Prop where
  /-- A running command shows BUSY alone (10_state.md R34). -/
  running : s.busy = true → s.done = false ∧ s.err = false ∧ s.ecode = 0 ∧ s.outLen = 0 ∧ s.errPos = 0
  /-- ERR stands only beside DONE (10_state.md R23). -/
  errDone : s.err = true → s.done = true
  /-- ECODE is 0 when ERR = 0 (10_state.md R23). -/
  noError : s.err = false → s.ecode = 0
  /-- ECODE is one of the five codes when ERR = 1 (60_exceptions.md R151). -/
  error   : s.err = true → 1 ≤ s.ecode.toNat ∧ s.ecode.toNat ≤ 5

/-- The three input bytes COMPRESS looks at next exist and are equal (41_compress.md R123). -/
def State.tripleNext (s : State) : Bool :=
  s.work.i + 2 < s.work.n && s.src.read s.work.i == s.src.read (s.work.i + 1) &&
    s.src.read (s.work.i + 1) == s.src.read (s.work.i + 2)

/-- The most bytes COMPRESS has written when it stands at input index `i` (41_compress.md R124): a byte more than the
full literals account for, where a literal was stopped by the run that comes next. -/
def State.compressRoom (s : State) : Nat :=
  if s.work.i = s.work.n then compressBound s.work.n
  else s.work.i + s.work.i / 127 + (if s.tripleNext then 1 else 0)

/-- The ranges of a running body's working registers (10_state.md R35). -/
def State.BodyRanges (s : State) : Prop :=
  match s.work.op.toNat with
  | 0 => s.work.pc ≤ s.work.n ∧ s.work.p ≤ s.work.exp ∧
      (s.work.overrun = true → s.work.p = s.work.exp ∧ s.work.overpos < s.work.n)
  | 1 => s.work.i ≤ s.work.n ∧ s.work.o ≤ s.compressRoom
  | 2 => s.work.n = s.work.exp ∧ s.work.k ≤ s.work.w * s.work.h
  | 3 => s.work.n = s.work.exp ∧ s.work.k ≤ s.work.w * s.work.h
  | _ => False

/-- What holds once the prechecks passed (60_exceptions.md R154, 10_state.md R35). -/
structure State.BodyLegal (s : State) : Prop where
  length   : s.work.n ≤ s.srcSize.toNat
  capacity : requiredLength s.work.op s.work.w s.work.h s.work.n ≤ s.dstSize.toNat
  /-- `exp` of DECOMPRESS and the converters (10_state.md R35, 40_decompress.md R101); its 0 in COMPRESS, which does not
  use it, is the model's choice (log entry 31). -/
  expected : s.work.exp = if s.work.op = 1 then 0 else expectedLength s.work.w s.work.h
  ranges   : s.BodyRanges

/-- The machine's invariant. -/
structure State.Inv (s : State) : Prop where
  srcWf    : s.src.wf
  dstWf    : s.dst.wf
  srcFits  : s.src.fits s.srcSize.toNat
  dstFits  : s.dst.fits s.dstSize.toNat
  status   : s.StatusLegal
  /-- The working registers hold no value outside a command (10_state.md R35; log entry 11). -/
  idle     : s.busy = false → s.work = Work.blank
  /-- The operands of a running command cannot change under it (10_state.md R34). -/
  latched  : s.busy = true → s.work.op = s.cmdOp ∧ s.work.w = s.width.toNat ∧ s.work.h = s.height.toNat ∧
      s.work.n = s.srcLen.toNat
  /-- Before the prechecks nothing but the operands is set (60_exceptions.md R155); that the other working registers
hold 0 or false is the model's choice (log entry 31). -/
  started  : s.busy = true → s.work.phase = .precheck → s.work = s.latched s.cmdOp
  body     : s.busy = true → s.work.phase = .body → s.BodyLegal

/-- The input of a command is defined: every SRC byte below SRC_LEN has a value (70_reset_and_hazards.md R182,
R183). -/
def State.InputDefined (s : State) : Prop := ∀ a, a < s.srcLen.toNat → s.src.read a ≠ none

/-- A step is safe: it answers a next state, or the one fault the spec asks for, a command's read of an input byte that
nothing wrote (70_reset_and_hazards.md R182). -/
def SafeAnswer (s : State) (r : Out) : Prop :=
  (∃ t, r = .next t) ∨ ∃ a, r = .fault (.srcByteUnwritten a) ∧ a < s.srcLen.toNat ∧ s.src.read a = none

end Sys2Proof.Machine
end

