-- ==== Sys2Proof/Certificates/Slice0/Obligations.lean ====
section
/-! DEFINITION. The statements for the provers, from the spec's numbered rules. A statement about a next state names
every field it fixes; `with work := t.work` leaves the working registers out, which the spec gives no value outside a
command (10_state.md R35), and `with dst := t.dst` leaves DST to the clauses that follow. -/

namespace Sys2Proof.Machine

/-! ### What the statements say a command leaves -/

/-- A command `op` that succeeded with the result `out` at DST 0 (60_exceptions.md R155, R157). -/
def Claim.succeeded (op : BitVec 4) (out : List Byte) (s : State) : State :=
  { s with
    cmdOp := op, busy := false, done := true, err := false, ecode := 0, outLen := BitVec.ofNat 64 out.length, errPos := 0
    dst := s.dst.writeAll 0 out }

/-- A command `op` that failed with `ecode` at `pos` (60_exceptions.md R155, R158), DST untouched. -/
def Claim.failed (op ecode : BitVec 4) (pos : Nat) (s : State) : State :=
  { s with
    cmdOp := op, busy := false, done := true, err := true, ecode := ecode, outLen := 0, errPos := BitVec.ofNat 64 pos }

/-- Two memories read the same at every offset from `len` on. -/
def Claim.SameFrom (len : Nat) (m m' : Memory) : Prop := ∀ a, len ≤ a → Memory.read m' a = Memory.read m a

/-- The records of a stream, each with an encoding (30_encoding.md R70). -/
def Claim.IsStream (records : List Instr) : Prop := ∀ i ∈ records, i.kind = .record ∧ i.wf = true

/-- The bytes begin a record whose extent passes their end (40_decompress.md R107): a control byte that announces more
than is there. -/
def Claim.IsTruncated (bs : List Byte) : Prop :=
  ∃ cb rest, bs = cb :: rest ∧ rest.length + 1 < (if cb.toNat < 128 then 2 else 1 + (256 - cb.toNat))

/-- The error the prechecks report, in their order of priority, if any (60_exceptions.md R151, R154). -/
def Claim.precheckError (op w h n srcSize dstSize : Nat) : Option (BitVec 4) :=
  if 4 ≤ op then some 5
  else if srcSize < n then some 4
  else if (op = 2 ∨ op = 3) ∧ n ≠ 3 * w * h then some 4
  else if dstSize < (if op = 1 then n + (n + 126) / 127 else 3 * w * h) then some 3
  else none

/-- The host's COPY_DS of a result and its SRC_LEN, between chained commands (70_reset_and_hazards.md R188). -/
def Claim.chained (s : State) : State :=
  { s with src := s.src.writeAll 0 ((s.dst.readAll 0 s.outLen.toNat).getD []), srcLen := s.outLen }

/-! ### The greedy policy of 41_compress.md on lists, written apart from the machine -/

/-- How many bytes from the front of the input equal its first byte, at most 130 (41_compress.md R122). -/
def Claim.leadingRun (x : List Byte) : Nat :=
  match x with
  | [] => 0
  | b :: rest => 1 + ((rest.take 129).takeWhile fun c => c == b).length

/-- The first three bytes exist and are equal (41_compress.md R123). -/
def Claim.startsTriple (x : List Byte) : Bool :=
  match x with
  | a :: b :: c :: _ => a == b && b == c
  | _ => false

/-- How many of the first `cap` bytes come before three equal ones (41_compress.md R125). -/
def Claim.beforeTriple (cap : Nat) (x : List Byte) : Nat :=
  match cap, x with
  | 0, _ => 0
  | _, [] => 0
  | cap + 1, b :: rest => if Claim.startsTriple (b :: rest) then 0 else 1 + Claim.beforeTriple cap rest

/-- The records of the greedy policy, at most `fuel` of them (41_compress.md R123). -/
def Claim.greedyFrom (fuel : Nat) (x : List Byte) : List Instr :=
  match fuel, x with
  | 0, _ => []
  | _, [] => []
  | fuel + 1, b :: rest =>
    let r := Claim.leadingRun (b :: rest)
    if 3 ≤ r then .run (BitVec.ofNat 7 (r - 3)) b :: Claim.greedyFrom fuel ((b :: rest).drop r)
    else
      let len := 1 + Claim.beforeTriple 126 rest
      .lit ((b :: rest).take len) :: Claim.greedyFrom fuel ((b :: rest).drop len)

/-- The records COMPRESS makes of an input (41_compress.md R123). -/
def Claim.greedy (x : List Byte) : List Instr := Claim.greedyFrom x.length x

end Sys2Proof.Machine

open Sys2Proof Sys2Proof.Machine

/-! ### Encodings -/

/-- Every encodable instruction is what the decoder reads from its encoding, whatever follows (30_encoding.md R72, R73,
R78, R79). -/
def Obligations.DecodeOfEncodeIsInstruction : Prop :=
  ∀ (i : Instr) (rest : List Byte), i.wf = true → decode i.kind (encode i ++ rest) = .ok (i, rest)

/-- Every record the decoder reads is encodable, and its encoding is the bytes it was read from: no two byte strings mean
one record (30_encoding.md R72, R73, R76). -/
def Obligations.EncodeOfDecodedRecordIsStream : Prop :=
  ∀ (bs rest : List Byte) (i : Instr),
    decodeRecord bs = .ok (i, rest) → i.kind = .record ∧ i.wf = true ∧ encode i ++ rest = bs

/-- Bit 7 of a control byte selects the kind, its other bits the length; the record's length is known from it alone, and
a shorter stream is rejected as truncated (30_encoding.md R71, R74, R75). -/
def Obligations.ControlByteSelectsRecord : Prop :=
  ∀ (cb : Byte) (rest : List Byte),
    (cb.getLsbD 7 = false →
      (rest = [] → decodeRecord (cb :: rest) = .error .truncatedRecord) ∧
      (∀ v rest', rest = v :: rest' →
        ∃ r, decodeRecord (cb :: rest) = .ok (.run r v, rest') ∧ runLength r = cb.toNat + 3)) ∧
    (cb.getLsbD 7 = true →
      (rest.length < 256 - cb.toNat → decodeRecord (cb :: rest) = .error .truncatedRecord) ∧
      (256 - cb.toNat ≤ rest.length →
        decodeRecord (cb :: rest) = .ok (.lit (rest.take (256 - cb.toNat)), rest.drop (256 - cb.toNat))))

/-- A few words written out from the tables of the spec decode to their instructions (30_encoding.md R72, R73, R79,
95_test_vectors.md V-D1, V-D2, V-R3). -/
def Obligations.KnownWordsDecode : Prop :=
  decode .record [0x00, 0x41] = .ok (.run 0 0x41, []) ∧
  decode .record [0x7F, 0x55] = .ok (.run 127 0x55, []) ∧
  decode .record [0xFA, 0x0A, 0x14, 0x1E, 0x28, 0x32, 0x3C] = .ok (.lit [0x0A, 0x14, 0x1E, 0x28, 0x32, 0x3C], []) ∧
  decode .command [0xF0, 0xFF, 0xFF, 0xFF, 0, 0, 0, 0] = .ok (.decompress, []) ∧
  decode .command [1, 0, 0, 0, 0, 0, 0, 0] = .ok (.compress, []) ∧
  decode .command [2, 0, 0, 0, 0, 0, 0, 0] = .ok (.planarToRgb, []) ∧
  decode .command [3, 0, 0, 0, 0, 0, 0, 0] = .ok (.rgbToPlanar, []) ∧
  decode .command [7, 0, 0, 0, 0, 0, 0, 0] = .ok (.reservedLow 3, []) ∧
  decode .command [15, 0, 0, 0, 0, 0, 0, 0] = .ok (.reservedHigh 7, [])

/-- OP is bits 3:0 of the word written to CMD: 0 to 3 are the four commands, 4 to 15 are reserved; bits 63:4 are ignored,
by the decoder and by the CMD write (30_encoding.md R79, R81). -/
def Obligations.CommandOpcodeMap : Prop :=
  (∀ w : Dword,
    (w.toNat % 16 = 0 → decodeCommand w = .decompress) ∧ (w.toNat % 16 = 1 → decodeCommand w = .compress) ∧
    (w.toNat % 16 = 2 → decodeCommand w = .planarToRgb) ∧ (w.toNat % 16 = 3 → decodeCommand w = .rgbToPlanar) ∧
    (4 ≤ w.toNat % 16 → w.toNat % 16 < 8 → ∃ x, decodeCommand w = .reservedLow x ∧ 4 + x.toNat = w.toNat % 16) ∧
    (8 ≤ w.toNat % 16 → ∃ x, decodeCommand w = .reservedHigh x ∧ 8 + x.toNat = w.toNat % 16)) ∧
  (∀ (w w' : Dword) (s : State), w.toNat % 16 = w'.toNat % 16 →
    decodeCommand w = decodeCommand w' ∧
    hostAccess (.regWrite 0x00 64 w) s = hostAccess (.regWrite 0x00 64 w') s)

/-! ### The records -/

/-- RUN in a DECOMPRESS. If its data byte lies at or beyond the end of the stream, the command ends with TRUNCATED_STREAM
at the control byte. Else it appends cb + 3 copies of the byte: those below the expected length land at DST `p` up, the
first one beyond it is noted, the cursor moves by 2, and nothing else changes (40_decompress.md R104, R105). -/
def Obligations.RunRecordAppendsCopies : Prop :=
  ∀ (s : State) (r : BitVec 7) (v : Byte), s.decompressing = true → s.work.exp ≤ s.dstSize.toNat →
    let len := r.toNat + 3
    let room := s.work.exp - s.work.p
    (s.work.n ≤ s.work.pc + 1 →
      ∃ t, exec (.run r v) s = .next t ∧
        t = { Claim.failed s.cmdOp 1 s.work.pc s with work := t.work, dst := t.dst, dstSpoils := t.dstSpoils } ∧
        Claim.SameFrom s.work.exp s.dst t.dst) ∧
    (s.work.pc + 1 < s.work.n →
      ∃ t, exec (.run r v) s = .next t ∧
        t = { s with
          dst := t.dst
          work := { s.work with
            pc := s.work.pc + 2
            p := s.work.p + min len room
            overrun := s.work.overrun || decide (room < len)
            overpos := if s.work.overrun = false ∧ room < len then s.work.pc else s.work.overpos } } ∧
        ∀ a, t.dst.read a = if s.work.p ≤ a ∧ a < s.work.p + min len room then some v else s.dst.read a)

/-- LIT in a DECOMPRESS. If fewer than K bytes follow the control byte in the stream, the command ends with
TRUNCATED_STREAM there. Else it appends its bytes verbatim: those below the expected length land at DST `p` up, the first
one beyond it is noted, the cursor moves by 1 + K, and nothing else changes (40_decompress.md R104, R106). -/
def Obligations.LiteralRecordAppendsBytes : Prop :=
  ∀ (s : State) (bs : List Byte), s.decompressing = true → s.work.exp ≤ s.dstSize.toNat →
    let room := s.work.exp - s.work.p
    (s.work.n < s.work.pc + 1 + bs.length →
      ∃ t, exec (.lit bs) s = .next t ∧
        t = { Claim.failed s.cmdOp 1 s.work.pc s with work := t.work, dst := t.dst, dstSpoils := t.dstSpoils } ∧
        Claim.SameFrom s.work.exp s.dst t.dst) ∧
    (s.work.pc + 1 + bs.length ≤ s.work.n →
      ∃ t, exec (.lit bs) s = .next t ∧
        t = { s with
          dst := t.dst
          work := { s.work with
            pc := s.work.pc + 1 + bs.length
            p := s.work.p + min bs.length room
            overrun := s.work.overrun || decide (room < bs.length)
            overpos := if s.work.overrun = false ∧ room < bs.length then s.work.pc else s.work.overpos } } ∧
        ∀ a, t.dst.read a =
          if s.work.p ≤ a ∧ a < s.work.p + min bs.length room then bs[a - s.work.p]? else s.dst.read a)

/-- A record whose extent passes the end of the stream ends the command with TRUNCATED_STREAM at its control byte, whether
or not the stream overran before, and no byte after the control byte is read: nothing is asked of those bytes
(40_decompress.md R107). -/
def Obligations.TruncatedRecordEndsCommand : Prop :=
  ∀ (s : State) (cb : Byte),
    s.decompressing = true → s.schedule = [] → s.work.pc < s.work.n → s.work.n ≤ s.srcSize.toNat →
    s.src.read s.work.pc = some cb →
    s.work.n < s.work.pc + (if cb.toNat < 128 then 2 else 1 + (256 - cb.toNat)) →
    ∃ t, step s = .next t ∧
      t = { Claim.failed s.cmdOp 1 s.work.pc s with work := t.work, dst := t.dst, dstSpoils := t.dstSpoils } ∧
      Claim.SameFrom s.work.exp s.dst t.dst

/-- The model's choice (log entry 17): a record outside a DECOMPRESS's record loop is refused by name. -/
def Obligations.RecordOutsideDecompressIsRefused : Prop :=
  ∀ (s : State) (i : Instr),
    s.decompressing = false → i.kind = .record → exec i s = .refused .recordOutsideDecompress

/-! ### The commands -/

/-- DECOMPRESS of a stream of whole records that decodes to exactly 3wh bytes succeeds, with those bytes at DST 0 up and
nothing else changed (40_decompress.md R100, R103, R108, R109). -/
def Obligations.DecompressDecodesWholeStream : Prop :=
  ∀ (s : State) (records : List Instr),
    s.busy = false → Claim.IsStream records →
    s.src.readAll 0 s.srcLen.toNat = some (assemble records) →
    s.srcLen.toNat ≤ s.srcSize.toNat →
    (outputOf records).length = 3 * s.width.toNat * s.height.toNat →
    3 * s.width.toNat * s.height.toNat ≤ s.dstSize.toNat →
    ∃ t, exec .decompress s = .next t ∧ t = { Claim.succeeded 0 (outputOf records) s with work := t.work }

/-- DECOMPRESS of a stream that ends inside a record fails with TRUNCATED_STREAM at that record's control byte, however
many bytes the records before it gave (40_decompress.md R107, R111). -/
def Obligations.DecompressTruncatedStreamFails : Prop :=
  ∀ (s : State) (records : List Instr) (tail : List Byte),
    s.busy = false → Claim.IsStream records → Claim.IsTruncated tail →
    s.src.readAll 0 s.srcLen.toNat = some (assemble records ++ tail) →
    s.srcLen.toNat ≤ s.srcSize.toNat →
    3 * s.width.toNat * s.height.toNat ≤ s.dstSize.toNat →
    ∃ t, exec .decompress s = .next t ∧
      t = { Claim.failed 0 1 (assemble records).length s with work := t.work, dst := t.dst, dstSpoils := t.dstSpoils } ∧
      Claim.SameFrom (3 * s.width.toNat * s.height.toNat) s.dst t.dst

/-- DECOMPRESS of a stream of whole records that decodes to fewer than 3wh bytes fails with SIZE_MISMATCH at the stream's
length (40_decompress.md R108; 60_exceptions.md R153). -/
def Obligations.DecompressTooFewBytesFails : Prop :=
  ∀ (s : State) (records : List Instr),
    s.busy = false → Claim.IsStream records →
    s.src.readAll 0 s.srcLen.toNat = some (assemble records) →
    s.srcLen.toNat ≤ s.srcSize.toNat →
    (outputOf records).length < 3 * s.width.toNat * s.height.toNat →
    3 * s.width.toNat * s.height.toNat ≤ s.dstSize.toNat →
    ∃ t, exec .decompress s = .next t ∧
      t = { Claim.failed 0 2 s.srcLen.toNat s with work := t.work, dst := t.dst, dstSpoils := t.dstSpoils } ∧
      Claim.SameFrom (3 * s.width.toNat * s.height.toNat) s.dst t.dst

/-- DECOMPRESS of a stream of whole records that decodes to more than 3wh bytes fails with SIZE_MISMATCH at the record
that produced the first byte beyond 3wh (40_decompress.md R108; 60_exceptions.md R153). -/
def Obligations.DecompressTooManyBytesFails : Prop :=
  ∀ (s : State) (before : List Instr) (i : Instr) (after : List Instr),
    s.busy = false → Claim.IsStream (before ++ i :: after) →
    s.src.readAll 0 s.srcLen.toNat = some (assemble (before ++ i :: after)) →
    s.srcLen.toNat ≤ s.srcSize.toNat →
    (outputOf before).length ≤ 3 * s.width.toNat * s.height.toNat →
    3 * s.width.toNat * s.height.toNat < (outputOf before).length + i.output.length →
    3 * s.width.toNat * s.height.toNat ≤ s.dstSize.toNat →
    ∃ t, exec .decompress s = .next t ∧
      t = { Claim.failed 0 2 (assemble before).length s with work := t.work, dst := t.dst, dstSpoils := t.dstSpoils } ∧
      Claim.SameFrom (3 * s.width.toNat * s.height.toNat) s.dst t.dst

/-- COMPRESS succeeds on every defined input that passes its prechecks, with the stream of the greedy policy at DST 0 up
and nothing else changed; WIDTH and HEIGHT do not matter (41_compress.md R120, R123, R125, R128). -/
def Obligations.CompressEmitsGreedyStream : Prop :=
  ∀ (s : State) (x : List Byte),
    s.busy = false → s.src.readAll 0 s.srcLen.toNat = some x →
    s.srcLen.toNat ≤ s.srcSize.toNat →
    x.length + (x.length + 126) / 127 ≤ s.dstSize.toNat →
    ∃ t, exec .compress s = .next t ∧ t = { Claim.succeeded 1 (assemble (Claim.greedy x)) s with work := t.work }

/-- What COMPRESS leaves in DST is a stream of runs and of literals of at most 127 bytes with no three equal bytes in a
row, and it decodes to the input (41_compress.md R126, R127). -/
def Obligations.CompressedStreamDecodesToInput : Prop :=
  ∀ (s t : State) (x : List Byte),
    s.busy = false → s.src.readAll 0 s.srcLen.toNat = some x → exec .compress s = .next t → t.err = false →
    ∃ records, Claim.IsStream records ∧
      t.dst.readAll 0 t.outLen.toNat = some (assemble records) ∧
      outputOf records = x ∧
      ∀ bs, Instr.lit bs ∈ records → bs.length ≤ 127 ∧
        ∀ j, j + 2 < bs.length → ¬ (bs[j]? = bs[j + 1]? ∧ bs[j + 1]? = bs[j + 2]?)

/-- COMPRESS of n bytes writes at most n + ceil_div(n, 127) bytes, and some input takes as many (41_compress.md R124). -/
def Obligations.CompressOutputBound : Prop :=
  (∀ (s t : State), s.busy = false → exec .compress s = .next t → t.err = false →
    t.outLen.toNat ≤ s.srcLen.toNat + (s.srcLen.toNat + 126) / 127) ∧
  (∃ (s t : State), s.busy = false ∧ 0 < s.srcLen.toNat ∧ exec .compress s = .next t ∧ t.err = false ∧
    t.outLen.toNat = s.srcLen.toNat + (s.srcLen.toNat + 126) / 127)

/-- DECOMPRESS of the output of COMPRESS gives the input back, where the dimensions fit the input and both commands pass
their length and capacity checks (41_compress.md R127). -/
def Obligations.CompressThenDecompressIsIdentity : Prop :=
  ∀ (s : State) (x : List Byte),
    s.busy = false → s.src.readAll 0 s.srcLen.toNat = some x →
    x.length = 3 * s.width.toNat * s.height.toNat →
    x.length ≤ s.srcSize.toNat → x.length + (x.length + 126) / 127 ≤ s.dstSize.toNat →
    ∃ t, exec .compress s = .next t ∧ t.err = false ∧
      (t.outLen.toNat ≤ t.srcSize.toNat →
        ∃ u, exec .decompress (Claim.chained t) = .next u ∧ u.err = false ∧
          u.outLen.toNat = x.length ∧ u.dst.readAll 0 x.length = some x)

/-- PLANAR_TO_RGB gathers each pixel's Red, Green and Blue from the third, second and first plane into DST, and changes
nothing else (42_convert.md R140, R144). -/
def Obligations.PlanarToRgbInterleavesPlanes : Prop :=
  ∀ (s : State),
    let N := s.width.toNat * s.height.toNat
    s.busy = false → s.InputDefined → s.srcLen.toNat = 3 * N →
    s.srcLen.toNat ≤ s.srcSize.toNat → 3 * N ≤ s.dstSize.toNat →
    ∃ t, exec .planarToRgb s = .next t ∧
      t = { Claim.succeeded 2 [] s with outLen := BitVec.ofNat 64 (3 * N), work := t.work, dst := t.dst } ∧
      (∀ k, k < N → t.dst.read (3 * k) = s.src.read (2 * N + k) ∧ t.dst.read (3 * k + 1) = s.src.read (N + k) ∧
        t.dst.read (3 * k + 2) = s.src.read k) ∧
      Claim.SameFrom (3 * N) s.dst t.dst

/-- RGB_TO_PLANAR routes each pixel's Blue, Green and Red into the first, second and third plane of DST, and changes
nothing else (42_convert.md R141, R144). -/
def Obligations.RgbToPlanarSplitsPixels : Prop :=
  ∀ (s : State),
    let N := s.width.toNat * s.height.toNat
    s.busy = false → s.InputDefined → s.srcLen.toNat = 3 * N →
    s.srcLen.toNat ≤ s.srcSize.toNat → 3 * N ≤ s.dstSize.toNat →
    ∃ t, exec .rgbToPlanar s = .next t ∧
      t = { Claim.succeeded 3 [] s with outLen := BitVec.ofNat 64 (3 * N), work := t.work, dst := t.dst } ∧
      (∀ k, k < N → t.dst.read k = s.src.read (3 * k + 2) ∧ t.dst.read (N + k) = s.src.read (3 * k + 1) ∧
        t.dst.read (2 * N + k) = s.src.read (3 * k)) ∧
      Claim.SameFrom (3 * N) s.dst t.dst

/-- The converters are inverse to each other, in both orders (42_convert.md R143). -/
def Obligations.ConvertersAreInverse : Prop :=
  ∀ (s : State) (x : List Byte) (first second : Instr),
    (first = .planarToRgb ∧ second = .rgbToPlanar) ∨ (first = .rgbToPlanar ∧ second = .planarToRgb) →
    s.busy = false → s.src.readAll 0 s.srcLen.toNat = some x →
    x.length = 3 * s.width.toNat * s.height.toNat →
    x.length ≤ s.srcSize.toNat → x.length ≤ s.dstSize.toNat →
    ∃ t u, exec first s = .next t ∧ t.err = false ∧ exec second (Claim.chained t) = .next u ∧ u.err = false ∧
      u.outLen.toNat = x.length ∧ u.dst.readAll 0 x.length = some x

/-- Encoding an image and decoding it again, with the host's copies between the commands, gives the image back where no
length or capacity check fails (42_convert.md R145). -/
def Obligations.ImageRoundTrip : Prop :=
  ∀ (s : State) (image : List Byte),
    s.busy = false → s.src.readAll 0 s.srcLen.toNat = some image →
    image.length = 3 * s.width.toNat * s.height.toNat →
    image.length ≤ s.srcSize.toNat → image.length + (image.length + 126) / 127 ≤ s.dstSize.toNat →
    ∃ t1 t2, exec .rgbToPlanar s = .next t1 ∧ t1.err = false ∧
      exec .compress (Claim.chained t1) = .next t2 ∧ t2.err = false ∧
      (t2.outLen.toNat ≤ t2.srcSize.toNat →
        ∃ t3 t4, exec .decompress (Claim.chained t2) = .next t3 ∧ t3.err = false ∧
          exec .planarToRgb (Claim.chained t3) = .next t4 ∧ t4.err = false ∧
          t4.outLen.toNat = image.length ∧ t4.dst.readAll 0 image.length = some image)

/-- A reserved OP completes with ILLEGAL_OP, ERR_POS 0 and OUT_LEN 0, and accesses no buffer (30_encoding.md R80;
60_exceptions.md R158). -/
def Obligations.ReservedOpIsIllegal : Prop :=
  (∀ (s : State) (x : BitVec 2), s.busy = false →
    ∃ t, exec (.reservedLow x) s = .next t ∧
      t = { Claim.failed (BitVec.ofNat 4 (4 + x.toNat)) 5 0 s with work := t.work }) ∧
  (∀ (s : State) (x : BitVec 3), s.busy = false →
    ∃ t, exec (.reservedHigh x) s = .next t ∧
      t = { Claim.failed (BitVec.ofNat 4 (8 + x.toNat)) 5 0 s with work := t.work })

/-- A command whose prechecks find an error fails with the first one in their order, ILLEGAL_OP, BAD_LENGTH (SRC_LEN above
SRC_SIZE, or a converter's SRC_LEN other than 3wh), CAPACITY, at ERR_POS 0, and no buffer is changed (60_exceptions.md
R154). -/
def Obligations.PrecheckErrorsInPriorityOrder : Prop :=
  ∀ (s : State) (i : Instr) (op code : BitVec 4),
    s.busy = false → i.op? = some op →
    Claim.precheckError op.toNat s.width.toNat s.height.toNat s.srcLen.toNat s.srcSize.toNat s.dstSize.toNat =
      some code →
    ∃ t, exec i s = .next t ∧ t = { Claim.failed op code 0 s with work := t.work }

/-- There is no nesting: a command issued, or a word written to CMD, while BUSY = 1 changes nothing (10_state.md R22;
60_exceptions.md R161). -/
def Obligations.CommandWhileBusyIsIgnored : Prop :=
  ∀ (s : State) (i : Instr) (v : Dword), i.kind = .command → s.busy = true →
    exec i s = .next s ∧ hostAccess (.regWrite 0x00 64 v) s = s

/-- The frame of every command, succeed or fail: SRC, the host's registers, the sizes and the host stay; the bytes of DST
from the required length up stay (10_state.md R41; 20_memory.md R51, R52; 60_exceptions.md R162). -/
def Obligations.CommandFrame : Prop :=
  ∀ (s t : State) (i : Instr) (op : BitVec 4),
    s.busy = false → i.op? = some op → exec i s = .next t →
    t.cmdOp = op ∧ t.width = s.width ∧ t.height = s.height ∧ t.srcLen = s.srcLen ∧
    t.srcSize = s.srcSize ∧ t.dstSize = s.dstSize ∧ t.src = s.src ∧ t.program = s.program ∧
    t.schedule = s.schedule ∧ t.saw = s.saw ∧ t.draws = s.draws ∧ t.resets = s.resets ∧
    Claim.SameFrom
      (if op.toNat = 1 then s.srcLen.toNat + (s.srcLen.toNat + 126) / 127
       else 3 * s.width.toNat * s.height.toNat) s.dst t.dst

/-- Every command on a defined input answers a next state, and there it is complete: BUSY = 0, DONE = 1, and OUT_LEN is 0
if it failed (40_decompress.md R110; 41_compress.md R130; 60_exceptions.md R157, R158; 70_reset_and_hazards.md R190). -/
def Obligations.CommandOnDefinedInputCompletes : Prop :=
  ∀ (s : State) (i : Instr),
    s.busy = false → i.kind = .command → s.InputDefined →
    ∃ t, exec i s = .next t ∧ t.busy = false ∧ t.done = true ∧ (t.err = true → t.outLen = 0)

/-- A command's result depends on OP, WIDTH, HEIGHT, SRC_LEN, the sizes and the SRC bytes below SRC_LEN alone: not on what
DST held, on SRC beyond the input, or on an earlier command (20_memory.md R52, R67). -/
def Obligations.CommandResultDependsOnInputsAlone : Prop :=
  ∀ (s s' t : State) (i : Instr),
    i.kind = .command → s.busy = false → s'.busy = false →
    s'.width = s.width → s'.height = s.height → s'.srcLen = s.srcLen → s'.srcSize = s.srcSize →
    s'.dstSize = s.dstSize → (∀ a, a < s.srcLen.toNat → s'.src.read a = s.src.read a) →
    exec i s = .next t →
    ∃ t', exec i s' = .next t' ∧ t'.cmdOp = t.cmdOp ∧ t'.busy = t.busy ∧ t'.done = t.done ∧ t'.err = t.err ∧
      t'.ecode = t.ecode ∧ t'.outLen = t.outLen ∧ t'.errPos = t.errPos ∧
      ∀ a, a < t.outLen.toNat → t'.dst.read a = t.dst.read a

/-! ### The life cycle of a command, step by step -/

/-- A host write to CMD while idle starts the command in that step and no more: the operands are latched, BUSY alone is
shown, OUT_LEN and ERR_POS are 0, the buffers are untouched (10_state.md R22; 60_exceptions.md R155). -/
def Obligations.CmdWriteStartsCommand : Prop :=
  ∀ (s : State) (v : Dword) (rest : List HostOp),
    s.busy = false → s.schedule = [] → s.program = .bus (.regWrite 0x00 64 v) :: rest →
    ∃ t, step s = .next t ∧
      t = { s with
        program := rest, cmdOp := v.setWidth 4, busy := true, done := false, err := false, ecode := 0, outLen := 0
        errPos := 0, work := t.work } ∧
      t.work.op = v.setWidth 4 ∧ t.work.w = s.width.toNat ∧ t.work.h = s.height.toNat ∧
      t.work.n = s.srcLen.toNat

/-- The whole command of one step is the command's core steps one by one: a started command reaches, by at least one and
at most SRC_LEN + 2 turns of the core, the very state the whole command answers (10_state.md R43; 70_reset_and_hazards.md
R190, R191). R190 leaves the number of steps unspecified: the bound SRC_LEN + 2 is the model's, from its granularity (log
entry 2) and its fuel (log entry 26). -/
def Obligations.WholeCommandIsItsCoreSteps : Prop :=
  ∀ (s t : State) (i : Instr) (op : BitVec 4),
    s.busy = false → s.schedule = [] → i.op? = some op → exec i s = .next t →
    ∃ k, 1 ≤ k ∧ k ≤ s.srcLen.toNat + 2 ∧ Host.Core.run Sys2Proof.core k (start op s) = .next t ∧
      ∀ j u, j < k → Host.Core.run Sys2Proof.core j (start op s) = .next u → u.busy = true

/-- A running core that no other agent interrupts (schedule empty, log entry 1) ends its command in boundedly many turns,
or stops at an undefined input byte (40_decompress.md R110; 41_compress.md R130; 70_reset_and_hazards.md R182, R190). R190
leaves the number of steps unspecified: the bound n + 2 is the model's, from its reference granularity (log entry 2; log
entry 26). -/
def Obligations.RunningCommandEnds : Prop :=
  ∀ (s : State), s.Inv → s.busy = true → s.schedule = [] →
    ∃ k, k ≤ s.work.n + 2 ∧
      ((∃ t, Host.Core.run Sys2Proof.core k s = .next t ∧ t.busy = false) ∨
       (∃ a, Host.Core.run Sys2Proof.core k s = .fault (.srcByteUnwritten a)))

/-- A turn of the core changes no SRC byte, no operand register, neither size, and nothing of the host
(10_state.md R34; 20_memory.md R51). -/
def Obligations.CoreTurnLeavesOperandsAlone : Prop :=
  ∀ (s t : State), step s = .next t →
    (s.schedule.head? = some .core ∨ (s.schedule = [] ∧ s.busy = true)) →
    t.src = s.src ∧ t.cmdOp = s.cmdOp ∧ t.width = s.width ∧ t.height = s.height ∧ t.srcLen = s.srcLen ∧
    t.srcSize = s.srcSize ∧ t.dstSize = s.dstSize ∧ t.program = s.program ∧ t.saw = s.saw ∧ t.draws = s.draws ∧
    t.resets = s.resets

/-- BUSY is set only by a host write to CMD, and cleared only by the core's own completion, which sets DONE, or by reset
(10_state.md R24). -/
def Obligations.BusyChangesOnlyByStartCompletionReset : Prop :=
  ∀ (s t : State), step s = .next t →
    (s.busy = false → t.busy = true →
      (s.schedule = [] ∨ s.schedule.head? = some .host) ∧
      ∃ v rest, s.program = .bus (.regWrite 0x00 64 v) :: rest) ∧
    (s.busy = true → t.busy = false →
      s.schedule.head? = some .reset ∨
      ((s.schedule = [] ∨ s.schedule.head? = some .core) ∧ t.done = true))

/-- Whatever the host does while BUSY = 1, only what it has read, the draws and its own program can change: no register
and no buffer byte (10_state.md R34; 20_memory.md R54; 60_exceptions.md R156). -/
def Obligations.HostCannotDisturbRunningCommand : Prop :=
  ∀ (s : State) (b : BusOp), s.busy = true →
    hostAccess b s = { s with
      saw := (hostAccess b s).saw, draws := (hostAccess b s).draws, program := (hostAccess b s).program }

/-- While idle, a host transaction other than a 64-bit write to CMD starts no command: CMD.OP, BUSY, OUT_LEN and ERR_POS
stay, and DONE, ERR and ECODE stay or are cleared together (10_state.md R24, R25, R29, R32). -/
def Obligations.OnlyCmdWriteStartsCommand : Prop :=
  ∀ (s : State) (b : BusOp), s.busy = false → (∀ v, b ≠ .regWrite 0x00 64 v) →
    (hostAccess b s).busy = false ∧ (hostAccess b s).cmdOp = s.cmdOp ∧ (hostAccess b s).outLen = s.outLen ∧
    (hostAccess b s).errPos = s.errPos ∧ (hostAccess b s).work = s.work ∧
    (((hostAccess b s).done = s.done ∧ (hostAccess b s).err = s.err ∧ (hostAccess b s).ecode = s.ecode) ∨
     ((∃ v, b = .regWrite 0x08 64 v ∧ v.getLsbD 1 = true) ∧
      (hostAccess b s).done = false ∧ (hostAccess b s).err = false ∧ (hostAccess b s).ecode = 0))

/-- SRC_SIZE and DST_SIZE never change, reads return them, and writes to them are ignored (10_state.md R30, R31). -/
def Obligations.BufferSizeRegistersAreConstant : Prop :=
  (∀ (s t : State), step s = .next t → t.srcSize = s.srcSize ∧ t.dstSize = s.dstSize) ∧
  (∀ (s : State),
    hostAccess (.regRead 0x30 64) s = { s with saw := .reg 0x30 s.srcSize :: s.saw } ∧
    hostAccess (.regRead 0x38 64) s = { s with saw := .reg 0x38 s.dstSize :: s.saw }) ∧
  (∀ (s : State) (v : Dword),
    hostAccess (.regWrite 0x30 64 v) s = s ∧ hostAccess (.regWrite 0x38 64 v) s = s)

/-! ### Registers -/

/-- STATUS reads BUSY at bit 0, DONE at bit 1, ERR at bit 2, ECODE at bits 11:8, and 0 elsewhere (10_state.md R23). -/
def Obligations.StatusWordLayout : Prop :=
  ∀ (s : State),
    (readReg s .status).getLsbD 0 = s.busy ∧ (readReg s .status).getLsbD 1 = s.done ∧
    (readReg s .status).getLsbD 2 = s.err ∧ (readReg s .status).extractLsb' 8 4 = s.ecode ∧
    (∀ j, 3 ≤ j ∧ j ≤ 7 ∨ 12 ≤ j → (readReg s .status).getLsbD j = false)

/-- A 64-bit read at each offset of the block returns that register, zero-extended, changes no register and no buffer,
and is served whether or not a command runs (10_state.md R21, R22, R34; 20_memory.md R59). -/
def Obligations.RegisterReadsReturnRegisters : Prop :=
  ∀ (s : State),
    hostAccess (.regRead 0x00 64) s = { s with saw := .reg 0x00 (s.cmdOp.setWidth 64) :: s.saw } ∧
    hostAccess (.regRead 0x08 64) s = { s with saw := .reg 0x08 s.statusWord :: s.saw } ∧
    hostAccess (.regRead 0x10 64) s = { s with saw := .reg 0x10 (s.width.setWidth 64) :: s.saw } ∧
    hostAccess (.regRead 0x18 64) s = { s with saw := .reg 0x18 (s.height.setWidth 64) :: s.saw } ∧
    hostAccess (.regRead 0x20 64) s = { s with saw := .reg 0x20 s.srcLen :: s.saw } ∧
    hostAccess (.regRead 0x28 64) s = { s with saw := .reg 0x28 s.outLen :: s.saw } ∧
    hostAccess (.regRead 0x40 64) s = { s with saw := .reg 0x40 s.errPos :: s.saw }

/-- The offsets 0x48 to 0x78 read 0 and ignore writes (10_state.md R33). -/
def Obligations.ReservedOffsetsReadZero : Prop :=
  ∀ (s : State) (off : BitVec 7) (v : Dword), 0x48 ≤ off.toNat → off.toNat % 8 = 0 →
    hostAccess (.regRead off 64) s = { s with saw := .reg off 0 :: s.saw } ∧
    hostAccess (.regWrite off 64 v) s = s

/-- WIDTH, HEIGHT and SRC_LEN reset to 0; a write while idle keeps bits 15:0 (SRC_LEN: all 64) and changes nothing else, a
write while busy changes nothing; a read gives the field, zero above it (10_state.md R26, R27, R28). -/
def Obligations.OperandRegisterAccess : Prop :=
  State.reset.width = 0 ∧ State.reset.height = 0 ∧ State.reset.srcLen = 0 ∧
  ∀ (s : State) (v : Dword),
    hostAccess (.regWrite 0x10 64 v) s = (if s.busy then s else { s with width := v.setWidth 16 }) ∧
    hostAccess (.regWrite 0x18 64 v) s = (if s.busy then s else { s with height := v.setWidth 16 }) ∧
    hostAccess (.regWrite 0x20 64 v) s = (if s.busy then s else { s with srcLen := v }) ∧
    (s.busy = false →
      (readReg (hostAccess (.regWrite 0x10 64 v) s) .width).toNat = v.toNat % 65536 ∧
      (readReg (hostAccess (.regWrite 0x18 64 v) s) .height).toNat = v.toNat % 65536 ∧
      readReg (hostAccess (.regWrite 0x20 64 v) s) .srcLen = v)

/-- A write to STATUS while idle with bit 1 set clears DONE, ERR and ECODE and nothing else; with bit 1 clear, or while
busy, it changes nothing (10_state.md R25). -/
def Obligations.StatusWriteOneClears : Prop :=
  ∀ (s : State) (v : Dword),
    hostAccess (.regWrite 0x08 64 v) s =
      if s.busy = false ∧ v.getLsbD 1 = true then { s with done := false, err := false, ecode := 0 } else s

/-- Writes from offset 0x28 up, to OUT_LEN, SRC_SIZE, DST_SIZE, ERR_POS and the reserved offsets, change nothing
(10_state.md R29 to R33). -/
def Obligations.ReadOnlyRegistersIgnoreWrites : Prop :=
  ∀ (s : State) (off : BitVec 7) (v : Dword), 0x28 ≤ off.toNat → hostAccess (.regWrite off 64 v) s = s

/-- A register access of another width or at an offset that is no multiple of 8 changes nothing if it is a write; a read
gives the host some value and changes nothing else (20_memory.md R58). -/
def Obligations.UnsupportedRegisterAccess : Prop :=
  ∀ (s : State) (off : BitVec 7) (bits : Nat) (v : Dword), bits ≠ 64 ∨ off.toNat % 8 ≠ 0 →
    hostAccess (.regWrite off bits v) s = s ∧
    ∃ x, hostAccess (.regRead off bits) s = { s with draws := s.draws + 1, saw := .reg off x :: s.saw }

/-! ### Buffers -/

/-- While idle, a host write inside a buffer sets that byte and no other, and repeated changes nothing more; a host read
inside a buffer returns one value, the byte's own where it has one, changes nothing, and returns the same when repeated
(20_memory.md R53). That a repeated read of a byte without a defined value gives the same value is the model's reading of
R53 beside U2 of 93_implementation_defined.md (DEDUCED, log entry 7). -/
def Obligations.IdleBufferAccess : Prop :=
  ∀ (s : State) (a : Nat) (v : Byte), s.busy = false →
    (a < s.srcSize.toNat →
      (∃ m, hostAccess (.bufWrite .src a v) s = { s with src := m } ∧
        (∀ b, Memory.read m b = if b = a then some v else s.src.read b) ∧
        hostAccess (.bufWrite .src a v) { s with src := m } = { s with src := m }) ∧
      (∃ x, (∀ b, s.src.read a = some b → x = b) ∧
        hostAccess (.bufRead .src a) s = { s with saw := .byte .src a x :: s.saw } ∧
        hostAccess (.bufRead .src a) (hostAccess (.bufRead .src a) s) =
          { s with saw := .byte .src a x :: .byte .src a x :: s.saw })) ∧
    (a < s.dstSize.toNat →
      (∃ m, hostAccess (.bufWrite .dst a v) s = { s with dst := m } ∧
        (∀ b, Memory.read m b = if b = a then some v else s.dst.read b) ∧
        hostAccess (.bufWrite .dst a v) { s with dst := m } = { s with dst := m }) ∧
      (∃ x, (∀ b, s.dst.read a = some b → x = b) ∧
        hostAccess (.bufRead .dst a) s = { s with saw := .byte .dst a x :: s.saw } ∧
        hostAccess (.bufRead .dst a) (hostAccess (.bufRead .dst a) s) =
          { s with saw := .byte .dst a x :: .byte .dst a x :: s.saw }))

/-- While BUSY = 1 a host write to a buffer is ignored, and a host read returns some byte and changes nothing: no
register, no buffer byte, only the model's count of free values (20_memory.md R54). -/
def Obligations.BusyBufferAccess : Prop :=
  ∀ (s : State) (buf : Buffer) (a : Nat) (v : Byte), s.busy = true →
    hostAccess (.bufWrite buf a v) s = s ∧
    ∃ x d, hostAccess (.bufRead buf a) s = { s with draws := d, saw := .byte buf a x :: s.saw }

/-- A host access at or beyond a buffer's size reaches no byte: a write changes nothing, a read returns 0 (20_memory.md
R55). While BUSY = 1, where R54 says that a read gives an unspecified byte, the 0 is the model's reading of the two rules
(DEDUCED, log entry 10). -/
def Obligations.OutOfRangeBufferAccess : Prop :=
  ∀ (s : State) (a : Nat) (v : Byte),
    (s.srcSize.toNat ≤ a →
      hostAccess (.bufWrite .src a v) s = s ∧
      hostAccess (.bufRead .src a) s = { s with saw := .byte .src a 0 :: s.saw }) ∧
    (s.dstSize.toNat ≤ a →
      hostAccess (.bufWrite .dst a v) s = s ∧
      hostAccess (.bufRead .dst a) s = { s with saw := .byte .dst a 0 :: s.saw })

/-- WAIT reads STATUS, and is the host's next operation again exactly while BUSY reads 1 (30_encoding.md R92). -/
def Obligations.WaitRepeatsWhileBusy : Prop :=
  ∀ (s : State),
    hostAccess .wait s =
      { s with
        saw := .reg 0x08 s.statusWord :: s.saw
        program := if s.busy then .bus .wait :: s.program else s.program }

/-! ### Reset -/

/-- The reset state holds the values the spec gives: CMD, STATUS, WIDTH, HEIGHT, SRC_LEN, OUT_LEN, ERR_POS and the reserved
offsets read 0, the size registers read the parameters, and no buffer byte has a defined value (10_state.md R42). -/
def Obligations.ResetStateValues : Prop :=
  readReg State.reset .cmd = 0 ∧ readReg State.reset .status = 0 ∧ readReg State.reset .width = 0 ∧
  readReg State.reset .height = 0 ∧ readReg State.reset .srcLen = 0 ∧ readReg State.reset .outLen = 0 ∧
  readReg State.reset .errPos = 0 ∧ readReg State.reset .reserved = 0 ∧
  (readReg State.reset .srcSize).toNat = Config.srcSizeAtReset ∧
  (readReg State.reset .dstSize).toNat = Config.dstSizeAtReset ∧
  State.reset.busy = false ∧ ∀ a, State.reset.src.read a = none ∧ State.reset.dst.read a = none

/-- Reset, at any moment, puts every register into its reset value, keeps the sizes, aborts a running command without a
completion, and leaves no buffer byte with a defined value (70_reset_and_hazards.md R180, R181, R182). -/
def Obligations.ResetAbortsAndClears : Prop :=
  ∀ (s : State) (rest : List Turn), s.schedule = .reset :: rest →
    ∃ t, step s = .next t ∧ t.cmdOp = 0 ∧ t.busy = false ∧ t.done = false ∧ t.err = false ∧ t.ecode = 0 ∧
      t.width = 0 ∧ t.height = 0 ∧ t.srcLen = 0 ∧ t.outLen = 0 ∧ t.errPos = 0 ∧
      t.srcSize = s.srcSize ∧ t.dstSize = s.dstSize ∧
      (∀ a, t.src.read a = none) ∧ (∀ a, t.dst.read a = none)

/-- From reset no command runs until the host writes CMD: with nothing for the host to do, the machine stays as it is
(10_state.md R42; 70_reset_and_hazards.md R180; log entry 3). -/
def Obligations.IdleMachineStays : Prop :=
  ∀ (s : State), s.busy = false → s.schedule = [] → s.program = [] → step s = .next s

/-! ### What one step runs -/

/-- In a DECOMPRESS's record loop the core's turn is exec of the record at the cursor (40_decompress.md R103): where the
stream from `pc` on begins with the encoding of `i`, step is exec of `i`. -/
def Obligations.StepRunsRecordAtCursor : Prop :=
  ∀ (s : State) (i : Instr),
    s.decompressing = true → i.kind = .record → i.wf = true →
    s.work.pc + i.byteLength ≤ s.work.n → s.work.n ≤ s.srcSize.toNat →
    s.src.readAll s.work.pc i.byteLength = some (encode i) →
    (s.schedule = [] → step s = exec i s) ∧
    (∀ rest, s.schedule = .core :: rest → step s = exec i { s with schedule := rest })

/-- The model's DO (log entry 2): the host's turn is exec of the command whose word it writes to CMD, with WAIT left to
do. -/
def Obligations.StepRunsIssuedCommand : Prop :=
  ∀ (s : State) (i : Instr) (rest : List HostOp),
    i.kind = .command → s.program = .doCommand (ofLanes (encode i)) :: rest →
    (s.schedule = [] → s.busy = false → step s = exec i { s with program := .bus .wait :: rest }) ∧
    (∀ turns, s.schedule = .host :: turns →
      step s = exec i { s with schedule := turns, program := .bus .wait :: rest })

/-! ### Invariants -/

/-- The reset state meets the invariant. It rests on the model's choices for reset (log entries 4, 11, 28). -/
def Obligations.ResetMeetsInvariant : Prop := State.reset.Inv

/-- Every step keeps the invariant: the buffers' canonical form and sizes, the legal STATUS combinations, the latched
operands and the ranges of the working registers (10_state.md R23, R34, R35; 20_memory.md R51, R52). Three clauses rest on
the model's choices: that the working registers are blank outside a command (log entry 11), the phase of a running command
(log entry 12), and the values of working registers a command has not written or does not use (log entry 31). -/
def Obligations.StepKeepsInvariant : Prop := ∀ (s t : State), s.Inv → step s = .next t → t.Inv

/-- From a state that meets the invariant no step is refused or leaves a buffer: it answers a next state, or stops at an
input byte that nothing wrote (20_memory.md R51, R52; 70_reset_and_hazards.md R182). -/
def Obligations.StepIsSafe : Prop := ∀ (s : State), s.Inv → SafeAnswer s (step s)

/-! ### The container and the assembler -/

/-- A header's fields are the little-endian numbers of its first five bytes, bytes 5 to 7 are ignored by the reader and
written as zeros; writing and parsing give the header back; fewer than eight bytes hold none (30_encoding.md R85 to
R88). Which byte of a field is the less significant one is G2 of 93_implementation_defined.md, general knowledge and not in
the source (PRESUMED, log entry 30). -/
def Obligations.HeaderRoundTrip : Prop :=
  (∀ (b0 b1 b2 b3 b4 b5 b6 b7 : Byte) (rest : List Byte),
    ∃ h, parseHeader (b0 :: b1 :: b2 :: b3 :: b4 :: b5 :: b6 :: b7 :: rest) = some h ∧
      h.width.toNat = b0.toNat + 256 * b1.toNat ∧ h.height.toNat = b2.toNat + 256 * b3.toNat ∧
      h.bitsPerPixel = b4) ∧
  (∀ (h : Header) (rest : List Byte), parseHeader (writeHeader h ++ rest) = some h) ∧
  (∀ (h : Header), (writeHeader h).length = 8 ∧ (writeHeader h).drop 5 = [0, 0, 0]) ∧
  (∀ (bytes : List Byte), bytes.length < 8 → parseHeader bytes = none)

/-- FILL and DATA expand to encodable records that decode to the bytes they stand for (30_encoding.md R90). -/
def Obligations.FillAndDataDecodeToTheirBytes : Prop :=
  (∀ (len : Nat) (v : Byte), 1 ≤ len →
    Claim.IsStream (asmFill len v) ∧ outputOf (asmFill len v) = List.replicate len v) ∧
  (∀ (bs : List Byte), 1 ≤ bs.length → Claim.IsStream (asmData bs) ∧ outputOf (asmData bs) = bs)
end

