-- ==== Sys2Proof/Laws/Memory.lean ====
section
/-! SUPPORT. The laws of a buffer's bytes: what a read gives after a write, and that every operation keeps the
canonical form. -/

namespace Sys2Proof.Machine

/-! ### Reading -/

@[simp] theorem Memory.read_nil (a : Nat) : Memory.read [] a = none := rfl

theorem Memory.read_cons (c : Host.Cell) (m : Memory) (a : Nat) :
    Memory.read (c :: m) a = if c.1 = a then some c.2 else Memory.read m a := rfl

/-- A listed byte is an entry of the list. -/
theorem Memory.mem_of_read {m : Memory} {a : Nat} {v : Byte} (h : Memory.read m a = some v) : (a, v) ∈ m := by
  induction m with
  | nil => simp at h
  | cons c rest ih =>
    rw [Memory.read_cons] at h
    split at h
    · next hc => obtain rfl := hc; simp at h; simp [← h]
    · exact List.mem_cons_of_mem _ (ih h)

/-- In canonical form every entry is what a read gives. -/
theorem Memory.read_of_mem {m : Memory} (hw : Memory.wf m) {a : Nat} {v : Byte} (h : (a, v) ∈ m) :
    Memory.read m a = some v := by
  induction m with
  | nil => simp at h
  | cons c rest ih =>
    obtain ⟨hc, hr⟩ := List.pairwise_cons.1 hw
    rw [Memory.read_cons]
    rcases List.mem_cons.1 h with rfl | h'
    · simp
    · have := hc _ h'
      rw [if_neg (by simp at this; omega), ih hr h']

theorem Memory.read_write (m : Memory) (a b : Nat) (v : Byte) :
    Memory.read (Memory.write m a v) b = if a = b then some v else Memory.read m b := by
  induction m with
  | nil => simp [Memory.write, Memory.read_cons]
  | cons c rest ih =>
    simp only [Memory.write]
    split
    · simp [Memory.read_cons]
    · split
      · next h1 h2 => subst h2; simp only [Memory.read_cons]; split <;> rfl
      · next h1 h2 =>
        simp only [Memory.read_cons, ih]
        by_cases hab : a = b
        · subst hab; simp [h2]
        · simp [hab]

/-- A read after a write to the same offset gives the byte written. -/
@[simp] theorem Memory.read_write_same (m : Memory) (a : Nat) (v : Byte) :
    Memory.read (Memory.write m a v) a = some v := by simp [Memory.read_write]

/-- A write leaves every other offset alone. -/
theorem Memory.read_write_ne (m : Memory) {a b : Nat} (v : Byte) (h : a ≠ b) :
    Memory.read (Memory.write m a v) b = Memory.read m b := by simp [Memory.read_write, h]

@[simp] theorem Memory.writeAll_nil (m : Memory) (a : Nat) : Memory.writeAll m a [] = m := rfl

theorem Memory.writeAll_cons (m : Memory) (a : Nat) (v : Byte) (vs : List Byte) :
    Memory.writeAll m a (v :: vs) = Memory.writeAll (Memory.write m a v) (a + 1) vs := rfl

theorem Memory.writeAll_append (m : Memory) (a : Nat) (vs ws : List Byte) :
    Memory.writeAll m a (vs ++ ws) = Memory.writeAll (Memory.writeAll m a vs) (a + vs.length) ws := by
  induction vs generalizing m a with
  | nil => simp
  | cons v vs ih => simp [Memory.writeAll_cons, ih, Nat.add_assoc, Nat.add_comm 1]

/-- What a read gives after a block of bytes was written. -/
theorem Memory.read_writeAll (m : Memory) (a : Nat) (vs : List Byte) (b : Nat) :
    Memory.read (Memory.writeAll m a vs) b =
      if a ≤ b ∧ b < a + vs.length then vs[b - a]? else Memory.read m b := by
  induction vs generalizing m a with
  | nil => simp
  | cons v vs ih =>
    rw [Memory.writeAll_cons, ih, Memory.read_write]
    by_cases hab : a = b
    · subst hab; simp
    · by_cases h : a + 1 ≤ b ∧ b < a + 1 + vs.length
      · have h' : a ≤ b ∧ b < a + (v :: vs).length := by simp; omega
        rw [if_pos h, if_pos h']
        obtain ⟨k, rfl⟩ : ∃ k, b = a + 1 + k := ⟨b - (a + 1), by omega⟩
        rw [show a + 1 + k - a = k + 1 by omega, show a + 1 + k - (a + 1) = k by omega, List.getElem?_cons_succ]
      · have h' : ¬ (a ≤ b ∧ b < a + (v :: vs).length) := by simp; omega
        rw [if_neg h, if_neg h', if_neg hab]

theorem Memory.read_forget (m : Memory) (len a : Nat) :
    Memory.read (Memory.forget m len) a = if len ≤ a then Memory.read m a else none := by
  induction m with
  | nil => simp [Memory.forget]
  | cons c rest ih =>
    simp only [Memory.forget] at ih ⊢
    by_cases hc : len ≤ c.1
    · rw [List.filter_cons_of_pos (by simpa using hc), Memory.read_cons, ih, Memory.read_cons]
      by_cases hca : c.1 = a
      · simp [hca, hca ▸ hc]
      · simp [hca]
    · rw [List.filter_cons_of_neg (by simpa using hc), ih, Memory.read_cons]
      by_cases hla : len ≤ a
      · have : c.1 ≠ a := by omega
        simp [hla, this]
      · simp [hla]

/-- Bytes written below `len` are gone once everything below `len` is forgotten. -/
theorem Memory.forget_write (m : Memory) {a len : Nat} (v : Byte) (h : a < len) :
    Memory.forget (Memory.write m a v) len = Memory.forget m len := by
  induction m with
  | nil => simp [Memory.write, Memory.forget]; omega
  | cons c rest ih =>
    simp only [Memory.write]
    split
    · exact List.filter_cons_of_neg (by simp; omega)
    · split
      · next h1 h2 => simp only [Memory.forget]; rw [List.filter_cons_of_neg (by simp; omega), List.filter_cons_of_neg (by simp; omega)]
      · simp only [Memory.forget, List.filter_cons] at ih ⊢
        rw [ih]

/-! ### The canonical form -/

theorem Memory.mem_write {m : Memory} {a : Nat} {v : Byte} {c : Host.Cell} (h : c ∈ Memory.write m a v) :
    c = (a, v) ∨ c ∈ m := by
  induction m with
  | nil => left; simpa [Memory.write] using h
  | cons d rest ih =>
    simp only [Memory.write] at h
    split at h
    · simpa using h
    · split at h
      · rcases List.mem_cons.1 h with h | h
        · exact .inl h
        · exact .inr (List.mem_cons_of_mem _ h)
      · rcases List.mem_cons.1 h with h | h
        · exact .inr (by simp [h])
        · exact (ih h).imp_right (List.mem_cons_of_mem _)

theorem Memory.wf_nil : Memory.wf [] := List.Pairwise.nil

/-- A write keeps the canonical form. -/
theorem Memory.wf_write {m : Memory} (h : Memory.wf m) (a : Nat) (v : Byte) : Memory.wf (Memory.write m a v) := by
  induction m with
  | nil => simp [Memory.write, Memory.wf]
  | cons c rest ih =>
    obtain ⟨hc, hr⟩ := List.pairwise_cons.1 h
    simp only [Memory.write]
    split
    · next hlt =>
      refine List.pairwise_cons.2 ⟨fun d hd => ?_, h⟩
      rcases List.mem_cons.1 hd with rfl | hd
      · exact hlt
      · exact Nat.lt_trans hlt (hc d hd)
    · split
      · next h1 h2 => exact List.pairwise_cons.2 ⟨fun d hd => by have := hc d hd; simp; omega, hr⟩
      · next h1 h2 =>
        refine List.pairwise_cons.2 ⟨fun d hd => ?_, ih hr⟩
        rcases Memory.mem_write hd with rfl | hd
        · simp; omega
        · exact hc d hd

/-- Writing a block keeps the canonical form. -/
theorem Memory.wf_writeAll {m : Memory} (h : Memory.wf m) (a : Nat) (vs : List Byte) :
    Memory.wf (Memory.writeAll m a vs) := by
  induction vs generalizing m a with
  | nil => exact h
  | cons v vs ih => exact ih (Memory.wf_write h a v) (a + 1)

/-- Forgetting keeps the canonical form. -/
theorem Memory.wf_forget {m : Memory} (h : Memory.wf m) (len : Nat) : Memory.wf (Memory.forget m len) :=
  List.Pairwise.filter _ h

/-- Two memories in canonical form that read the same are the same list. -/
theorem Memory.ext_of_wf {m m' : Memory} (h : Memory.wf m) (h' : Memory.wf m')
    (hr : ∀ a, Memory.read m a = Memory.read m' a) : m = m' := by
  induction m generalizing m' with
  | nil =>
    cases m' with
    | nil => rfl
    | cons c rest => have := hr c.1; simp [Memory.read_cons] at this
  | cons c rest ih =>
    cases m' with
    | nil => have := hr c.1; simp [Memory.read_cons] at this
    | cons d rest' =>
      obtain ⟨hc, hw⟩ := List.pairwise_cons.1 h
      obtain ⟨hd, hw'⟩ := List.pairwise_cons.1 h'
      have key : ∀ {n : Memory} {x : Nat}, (∀ e ∈ n, x < e.1) → ∀ b, b ≤ x → Memory.read n b = none := by
        intro n x hx b hb
        cases hn : Memory.read n b with
        | none => rfl
        | some v => have := hx _ (Memory.mem_of_read hn); simp at this; omega
      have hfst : c.1 = d.1 := by
        rcases Nat.lt_trichotomy c.1 d.1 with hlt | heq | hgt
        · have := hr c.1
          rw [Memory.read_cons, Memory.read_cons, if_pos rfl, if_neg (by omega), key hd c.1 (by omega)] at this
          simp at this
        · exact heq
        · have := hr d.1
          rw [Memory.read_cons, Memory.read_cons, if_neg (by omega), if_pos rfl, key hc d.1 (by omega)] at this
          simp at this
      have hsnd : c.2 = d.2 := by
        have := hr c.1
        simpa [Memory.read_cons, hfst] using this
      have hcd : c = d := Prod.ext hfst hsnd
      subst hcd
      congr 1
      refine ih hw hw' fun a => ?_
      by_cases hca : c.1 = a
      · rw [key hc a (by omega), key hd a (by omega)]
      · have := hr a
        simpa [Memory.read_cons, hca] using this

/-! ### Reading a block -/

theorem Memory.readAll_succ (m : Memory) (a len : Nat) (bs : List Byte) :
    Memory.readAll m a (len + 1) = some bs ↔
      ∃ b rest, bs = b :: rest ∧ Memory.read m a = some b ∧ Memory.readAll m (a + 1) len = some rest := by
  simp only [Memory.readAll]
  cases Memory.read m a <;> cases Memory.readAll m (a + 1) len <;> simp [eq_comm]

/-- A block reads as the bytes at its offsets. -/
theorem Memory.readAll_eq_some (m : Memory) (a len : Nat) (bs : List Byte) :
    Memory.readAll m a len = some bs ↔ bs.length = len ∧ ∀ j, j < len → Memory.read m (a + j) = bs[j]? := by
  induction len generalizing a bs with
  | zero => cases bs <;> simp [Memory.readAll]
  | succ len ih =>
    rw [Memory.readAll_succ]
    constructor
    · rintro ⟨b, rest, rfl, hb, hrest⟩
      obtain ⟨hl, hr⟩ := (ih _ _).1 hrest
      refine ⟨by simp [hl], fun j hj => ?_⟩
      cases j with
      | zero => simpa using hb
      | succ j => simpa [Nat.add_assoc, Nat.add_comm 1 j] using hr j (by omega)
    · rintro ⟨hl, hr⟩
      cases bs with
      | nil => simp at hl
      | cons b rest =>
        refine ⟨b, rest, rfl, by simpa using hr 0 (by omega), (ih _ _).2 ⟨by simpa using hl, fun j hj => ?_⟩⟩
        have := hr (j + 1) (by omega)
        simpa [Nat.add_assoc, Nat.add_comm 1 j] using this

end Sys2Proof.Machine
end

