-- ==== Sys2Proof/Laws/State.lean ====
section
/-! SUPPORT. One lemma per field of State per update, so that no proof unfolds a record update. -/

namespace Sys2Proof.Machine

/-! ### setWork -/

@[simp] theorem setWork_cmdOp (wk : Work) (s : State) : (s.setWork wk).cmdOp = s.cmdOp := rfl
@[simp] theorem setWork_busy (wk : Work) (s : State) : (s.setWork wk).busy = s.busy := rfl
@[simp] theorem setWork_done (wk : Work) (s : State) : (s.setWork wk).done = s.done := rfl
@[simp] theorem setWork_err (wk : Work) (s : State) : (s.setWork wk).err = s.err := rfl
@[simp] theorem setWork_ecode (wk : Work) (s : State) : (s.setWork wk).ecode = s.ecode := rfl
@[simp] theorem setWork_width (wk : Work) (s : State) : (s.setWork wk).width = s.width := rfl
@[simp] theorem setWork_height (wk : Work) (s : State) : (s.setWork wk).height = s.height := rfl
@[simp] theorem setWork_srcLen (wk : Work) (s : State) : (s.setWork wk).srcLen = s.srcLen := rfl
@[simp] theorem setWork_outLen (wk : Work) (s : State) : (s.setWork wk).outLen = s.outLen := rfl
@[simp] theorem setWork_srcSize (wk : Work) (s : State) : (s.setWork wk).srcSize = s.srcSize := rfl
@[simp] theorem setWork_dstSize (wk : Work) (s : State) : (s.setWork wk).dstSize = s.dstSize := rfl
@[simp] theorem setWork_errPos (wk : Work) (s : State) : (s.setWork wk).errPos = s.errPos := rfl
@[simp] theorem setWork_work (wk : Work) (s : State) : (s.setWork wk).work = wk := rfl
@[simp] theorem setWork_src (wk : Work) (s : State) : (s.setWork wk).src = s.src := rfl
@[simp] theorem setWork_dst (wk : Work) (s : State) : (s.setWork wk).dst = s.dst := rfl
@[simp] theorem setWork_program (wk : Work) (s : State) : (s.setWork wk).program = s.program := rfl
@[simp] theorem setWork_schedule (wk : Work) (s : State) : (s.setWork wk).schedule = s.schedule := rfl
@[simp] theorem setWork_saw (wk : Work) (s : State) : (s.setWork wk).saw = s.saw := rfl
@[simp] theorem setWork_draws (wk : Work) (s : State) : (s.setWork wk).draws = s.draws := rfl
@[simp] theorem setWork_resets (wk : Work) (s : State) : (s.setWork wk).resets = s.resets := rfl
@[simp] theorem setWork_dstSpoils (wk : Work) (s : State) : (s.setWork wk).dstSpoils = s.dstSpoils := rfl

/-! ### STATUS at a start -/

@[simp] theorem statusStart_cmdOp (s : State) : (s.statusStart).cmdOp = s.cmdOp := rfl
@[simp] theorem statusStart_busy (s : State) : (s.statusStart).busy = true := rfl
@[simp] theorem statusStart_done (s : State) : (s.statusStart).done = false := rfl
@[simp] theorem statusStart_err (s : State) : (s.statusStart).err = false := rfl
@[simp] theorem statusStart_ecode (s : State) : (s.statusStart).ecode = 0 := rfl
@[simp] theorem statusStart_width (s : State) : (s.statusStart).width = s.width := rfl
@[simp] theorem statusStart_height (s : State) : (s.statusStart).height = s.height := rfl
@[simp] theorem statusStart_srcLen (s : State) : (s.statusStart).srcLen = s.srcLen := rfl
@[simp] theorem statusStart_outLen (s : State) : (s.statusStart).outLen = s.outLen := rfl
@[simp] theorem statusStart_srcSize (s : State) : (s.statusStart).srcSize = s.srcSize := rfl
@[simp] theorem statusStart_dstSize (s : State) : (s.statusStart).dstSize = s.dstSize := rfl
@[simp] theorem statusStart_errPos (s : State) : (s.statusStart).errPos = s.errPos := rfl
@[simp] theorem statusStart_work (s : State) : (s.statusStart).work = s.work := rfl
@[simp] theorem statusStart_src (s : State) : (s.statusStart).src = s.src := rfl
@[simp] theorem statusStart_dst (s : State) : (s.statusStart).dst = s.dst := rfl
@[simp] theorem statusStart_program (s : State) : (s.statusStart).program = s.program := rfl
@[simp] theorem statusStart_schedule (s : State) : (s.statusStart).schedule = s.schedule := rfl
@[simp] theorem statusStart_saw (s : State) : (s.statusStart).saw = s.saw := rfl
@[simp] theorem statusStart_draws (s : State) : (s.statusStart).draws = s.draws := rfl
@[simp] theorem statusStart_resets (s : State) : (s.statusStart).resets = s.resets := rfl
@[simp] theorem statusStart_dstSpoils (s : State) : (s.statusStart).dstSpoils = s.dstSpoils := rfl

/-! ### STATUS after success -/

@[simp] theorem statusFinish_cmdOp (s : State) : (s.statusFinish).cmdOp = s.cmdOp := rfl
@[simp] theorem statusFinish_busy (s : State) : (s.statusFinish).busy = false := rfl
@[simp] theorem statusFinish_done (s : State) : (s.statusFinish).done = true := rfl
@[simp] theorem statusFinish_err (s : State) : (s.statusFinish).err = false := rfl
@[simp] theorem statusFinish_ecode (s : State) : (s.statusFinish).ecode = 0 := rfl
@[simp] theorem statusFinish_width (s : State) : (s.statusFinish).width = s.width := rfl
@[simp] theorem statusFinish_height (s : State) : (s.statusFinish).height = s.height := rfl
@[simp] theorem statusFinish_srcLen (s : State) : (s.statusFinish).srcLen = s.srcLen := rfl
@[simp] theorem statusFinish_outLen (s : State) : (s.statusFinish).outLen = s.outLen := rfl
@[simp] theorem statusFinish_srcSize (s : State) : (s.statusFinish).srcSize = s.srcSize := rfl
@[simp] theorem statusFinish_dstSize (s : State) : (s.statusFinish).dstSize = s.dstSize := rfl
@[simp] theorem statusFinish_errPos (s : State) : (s.statusFinish).errPos = s.errPos := rfl
@[simp] theorem statusFinish_work (s : State) : (s.statusFinish).work = s.work := rfl
@[simp] theorem statusFinish_src (s : State) : (s.statusFinish).src = s.src := rfl
@[simp] theorem statusFinish_dst (s : State) : (s.statusFinish).dst = s.dst := rfl
@[simp] theorem statusFinish_program (s : State) : (s.statusFinish).program = s.program := rfl
@[simp] theorem statusFinish_schedule (s : State) : (s.statusFinish).schedule = s.schedule := rfl
@[simp] theorem statusFinish_saw (s : State) : (s.statusFinish).saw = s.saw := rfl
@[simp] theorem statusFinish_draws (s : State) : (s.statusFinish).draws = s.draws := rfl
@[simp] theorem statusFinish_resets (s : State) : (s.statusFinish).resets = s.resets := rfl
@[simp] theorem statusFinish_dstSpoils (s : State) : (s.statusFinish).dstSpoils = s.dstSpoils := rfl

/-! ### STATUS after an error -/

@[simp] theorem statusError_cmdOp (e : CodecError) (s : State) : (s.statusError e).cmdOp = s.cmdOp := rfl
@[simp] theorem statusError_busy (e : CodecError) (s : State) : (s.statusError e).busy = false := rfl
@[simp] theorem statusError_done (e : CodecError) (s : State) : (s.statusError e).done = true := rfl
@[simp] theorem statusError_err (e : CodecError) (s : State) : (s.statusError e).err = true := rfl
@[simp] theorem statusError_ecode (e : CodecError) (s : State) : (s.statusError e).ecode = e.code := rfl
@[simp] theorem statusError_width (e : CodecError) (s : State) : (s.statusError e).width = s.width := rfl
@[simp] theorem statusError_height (e : CodecError) (s : State) : (s.statusError e).height = s.height := rfl
@[simp] theorem statusError_srcLen (e : CodecError) (s : State) : (s.statusError e).srcLen = s.srcLen := rfl
@[simp] theorem statusError_outLen (e : CodecError) (s : State) : (s.statusError e).outLen = s.outLen := rfl
@[simp] theorem statusError_srcSize (e : CodecError) (s : State) : (s.statusError e).srcSize = s.srcSize := rfl
@[simp] theorem statusError_dstSize (e : CodecError) (s : State) : (s.statusError e).dstSize = s.dstSize := rfl
@[simp] theorem statusError_errPos (e : CodecError) (s : State) : (s.statusError e).errPos = s.errPos := rfl
@[simp] theorem statusError_work (e : CodecError) (s : State) : (s.statusError e).work = s.work := rfl
@[simp] theorem statusError_src (e : CodecError) (s : State) : (s.statusError e).src = s.src := rfl
@[simp] theorem statusError_dst (e : CodecError) (s : State) : (s.statusError e).dst = s.dst := rfl
@[simp] theorem statusError_program (e : CodecError) (s : State) : (s.statusError e).program = s.program := rfl
@[simp] theorem statusError_schedule (e : CodecError) (s : State) : (s.statusError e).schedule = s.schedule := rfl
@[simp] theorem statusError_saw (e : CodecError) (s : State) : (s.statusError e).saw = s.saw := rfl
@[simp] theorem statusError_draws (e : CodecError) (s : State) : (s.statusError e).draws = s.draws := rfl
@[simp] theorem statusError_resets (e : CodecError) (s : State) : (s.statusError e).resets = s.resets := rfl
@[simp] theorem statusError_dstSpoils (e : CodecError) (s : State) : (s.statusError e).dstSpoils = s.dstSpoils := rfl

/-! ### The host's clear -/

@[simp] theorem statusClear_cmdOp (s : State) : (s.statusClear).cmdOp = s.cmdOp := rfl
@[simp] theorem statusClear_busy (s : State) : (s.statusClear).busy = s.busy := rfl
@[simp] theorem statusClear_done (s : State) : (s.statusClear).done = false := rfl
@[simp] theorem statusClear_err (s : State) : (s.statusClear).err = false := rfl
@[simp] theorem statusClear_ecode (s : State) : (s.statusClear).ecode = 0 := rfl
@[simp] theorem statusClear_width (s : State) : (s.statusClear).width = s.width := rfl
@[simp] theorem statusClear_height (s : State) : (s.statusClear).height = s.height := rfl
@[simp] theorem statusClear_srcLen (s : State) : (s.statusClear).srcLen = s.srcLen := rfl
@[simp] theorem statusClear_outLen (s : State) : (s.statusClear).outLen = s.outLen := rfl
@[simp] theorem statusClear_srcSize (s : State) : (s.statusClear).srcSize = s.srcSize := rfl
@[simp] theorem statusClear_dstSize (s : State) : (s.statusClear).dstSize = s.dstSize := rfl
@[simp] theorem statusClear_errPos (s : State) : (s.statusClear).errPos = s.errPos := rfl
@[simp] theorem statusClear_work (s : State) : (s.statusClear).work = s.work := rfl
@[simp] theorem statusClear_src (s : State) : (s.statusClear).src = s.src := rfl
@[simp] theorem statusClear_dst (s : State) : (s.statusClear).dst = s.dst := rfl
@[simp] theorem statusClear_program (s : State) : (s.statusClear).program = s.program := rfl
@[simp] theorem statusClear_schedule (s : State) : (s.statusClear).schedule = s.schedule := rfl
@[simp] theorem statusClear_saw (s : State) : (s.statusClear).saw = s.saw := rfl
@[simp] theorem statusClear_draws (s : State) : (s.statusClear).draws = s.draws := rfl
@[simp] theorem statusClear_resets (s : State) : (s.statusClear).resets = s.resets := rfl
@[simp] theorem statusClear_dstSpoils (s : State) : (s.statusClear).dstSpoils = s.dstSpoils := rfl

/-! ### The start of a command -/

@[simp] theorem start_cmdOp (op : BitVec 4) (s : State) : (start op s).cmdOp = op := rfl
@[simp] theorem start_busy (op : BitVec 4) (s : State) : (start op s).busy = true := rfl
@[simp] theorem start_done (op : BitVec 4) (s : State) : (start op s).done = false := rfl
@[simp] theorem start_err (op : BitVec 4) (s : State) : (start op s).err = false := rfl
@[simp] theorem start_ecode (op : BitVec 4) (s : State) : (start op s).ecode = 0 := rfl
@[simp] theorem start_width (op : BitVec 4) (s : State) : (start op s).width = s.width := rfl
@[simp] theorem start_height (op : BitVec 4) (s : State) : (start op s).height = s.height := rfl
@[simp] theorem start_srcLen (op : BitVec 4) (s : State) : (start op s).srcLen = s.srcLen := rfl
@[simp] theorem start_outLen (op : BitVec 4) (s : State) : (start op s).outLen = 0 := rfl
@[simp] theorem start_srcSize (op : BitVec 4) (s : State) : (start op s).srcSize = s.srcSize := rfl
@[simp] theorem start_dstSize (op : BitVec 4) (s : State) : (start op s).dstSize = s.dstSize := rfl
@[simp] theorem start_errPos (op : BitVec 4) (s : State) : (start op s).errPos = 0 := rfl
@[simp] theorem start_work (op : BitVec 4) (s : State) : (start op s).work = s.latched op := rfl
@[simp] theorem start_src (op : BitVec 4) (s : State) : (start op s).src = s.src := rfl
@[simp] theorem start_dst (op : BitVec 4) (s : State) : (start op s).dst = s.dst := rfl
@[simp] theorem start_program (op : BitVec 4) (s : State) : (start op s).program = s.program := rfl
@[simp] theorem start_schedule (op : BitVec 4) (s : State) : (start op s).schedule = s.schedule := rfl
@[simp] theorem start_saw (op : BitVec 4) (s : State) : (start op s).saw = s.saw := rfl
@[simp] theorem start_draws (op : BitVec 4) (s : State) : (start op s).draws = s.draws := rfl
@[simp] theorem start_resets (op : BitVec 4) (s : State) : (start op s).resets = s.resets := rfl
@[simp] theorem start_dstSpoils (op : BitVec 4) (s : State) : (start op s).dstSpoils = s.dstSpoils := rfl

/-! ### Successful completion -/

@[simp] theorem finish_cmdOp (len : Nat) (s : State) : (finish len s).cmdOp = s.cmdOp := rfl
@[simp] theorem finish_busy (len : Nat) (s : State) : (finish len s).busy = false := rfl
@[simp] theorem finish_done (len : Nat) (s : State) : (finish len s).done = true := rfl
@[simp] theorem finish_err (len : Nat) (s : State) : (finish len s).err = false := rfl
@[simp] theorem finish_ecode (len : Nat) (s : State) : (finish len s).ecode = 0 := rfl
@[simp] theorem finish_width (len : Nat) (s : State) : (finish len s).width = s.width := rfl
@[simp] theorem finish_height (len : Nat) (s : State) : (finish len s).height = s.height := rfl
@[simp] theorem finish_srcLen (len : Nat) (s : State) : (finish len s).srcLen = s.srcLen := rfl
@[simp] theorem finish_outLen (len : Nat) (s : State) : (finish len s).outLen = BitVec.ofNat 64 len := rfl
@[simp] theorem finish_srcSize (len : Nat) (s : State) : (finish len s).srcSize = s.srcSize := rfl
@[simp] theorem finish_dstSize (len : Nat) (s : State) : (finish len s).dstSize = s.dstSize := rfl
@[simp] theorem finish_errPos (len : Nat) (s : State) : (finish len s).errPos = 0 := rfl
@[simp] theorem finish_work (len : Nat) (s : State) : (finish len s).work = Work.blank := rfl
@[simp] theorem finish_src (len : Nat) (s : State) : (finish len s).src = s.src := rfl
@[simp] theorem finish_dst (len : Nat) (s : State) : (finish len s).dst = s.dst := rfl
@[simp] theorem finish_program (len : Nat) (s : State) : (finish len s).program = s.program := rfl
@[simp] theorem finish_schedule (len : Nat) (s : State) : (finish len s).schedule = s.schedule := rfl
@[simp] theorem finish_saw (len : Nat) (s : State) : (finish len s).saw = s.saw := rfl
@[simp] theorem finish_draws (len : Nat) (s : State) : (finish len s).draws = s.draws := rfl
@[simp] theorem finish_resets (len : Nat) (s : State) : (finish len s).resets = s.resets := rfl
@[simp] theorem finish_dstSpoils (len : Nat) (s : State) : (finish len s).dstSpoils = s.dstSpoils := rfl

/-! ### Spoiled DST -/

@[simp] theorem spoilDst_cmdOp (len : Nat) (s : State) : (spoilDst len s).cmdOp = s.cmdOp := rfl
@[simp] theorem spoilDst_busy (len : Nat) (s : State) : (spoilDst len s).busy = s.busy := rfl
@[simp] theorem spoilDst_done (len : Nat) (s : State) : (spoilDst len s).done = s.done := rfl
@[simp] theorem spoilDst_err (len : Nat) (s : State) : (spoilDst len s).err = s.err := rfl
@[simp] theorem spoilDst_ecode (len : Nat) (s : State) : (spoilDst len s).ecode = s.ecode := rfl
@[simp] theorem spoilDst_width (len : Nat) (s : State) : (spoilDst len s).width = s.width := rfl
@[simp] theorem spoilDst_height (len : Nat) (s : State) : (spoilDst len s).height = s.height := rfl
@[simp] theorem spoilDst_srcLen (len : Nat) (s : State) : (spoilDst len s).srcLen = s.srcLen := rfl
@[simp] theorem spoilDst_outLen (len : Nat) (s : State) : (spoilDst len s).outLen = s.outLen := rfl
@[simp] theorem spoilDst_srcSize (len : Nat) (s : State) : (spoilDst len s).srcSize = s.srcSize := rfl
@[simp] theorem spoilDst_dstSize (len : Nat) (s : State) : (spoilDst len s).dstSize = s.dstSize := rfl
@[simp] theorem spoilDst_errPos (len : Nat) (s : State) : (spoilDst len s).errPos = s.errPos := rfl
@[simp] theorem spoilDst_work (len : Nat) (s : State) : (spoilDst len s).work = s.work := rfl
@[simp] theorem spoilDst_src (len : Nat) (s : State) : (spoilDst len s).src = s.src := rfl
@[simp] theorem spoilDst_dst (len : Nat) (s : State) : (spoilDst len s).dst = s.dst.forget len := rfl
@[simp] theorem spoilDst_program (len : Nat) (s : State) : (spoilDst len s).program = s.program := rfl
@[simp] theorem spoilDst_schedule (len : Nat) (s : State) : (spoilDst len s).schedule = s.schedule := rfl
@[simp] theorem spoilDst_saw (len : Nat) (s : State) : (spoilDst len s).saw = s.saw := rfl
@[simp] theorem spoilDst_draws (len : Nat) (s : State) : (spoilDst len s).draws = s.draws := rfl
@[simp] theorem spoilDst_resets (len : Nat) (s : State) : (spoilDst len s).resets = s.resets := rfl
@[simp] theorem spoilDst_dstSpoils (len : Nat) (s : State) : (spoilDst len s).dstSpoils = len :: s.dstSpoils := rfl

/-! ### Error completion -/

@[simp] theorem raiseError_cmdOp (e : CodecError) (pos : Nat) (s : State) : (raiseError e pos s).cmdOp = s.cmdOp := by cases e <;> rfl
@[simp] theorem raiseError_busy (e : CodecError) (pos : Nat) (s : State) : (raiseError e pos s).busy = false := by cases e <;> rfl
@[simp] theorem raiseError_done (e : CodecError) (pos : Nat) (s : State) : (raiseError e pos s).done = true := by cases e <;> rfl
@[simp] theorem raiseError_err (e : CodecError) (pos : Nat) (s : State) : (raiseError e pos s).err = true := by cases e <;> rfl
@[simp] theorem raiseError_ecode (e : CodecError) (pos : Nat) (s : State) : (raiseError e pos s).ecode = e.code := by cases e <;> rfl
@[simp] theorem raiseError_width (e : CodecError) (pos : Nat) (s : State) : (raiseError e pos s).width = s.width := by cases e <;> rfl
@[simp] theorem raiseError_height (e : CodecError) (pos : Nat) (s : State) : (raiseError e pos s).height = s.height := by cases e <;> rfl
@[simp] theorem raiseError_srcLen (e : CodecError) (pos : Nat) (s : State) : (raiseError e pos s).srcLen = s.srcLen := by cases e <;> rfl
@[simp] theorem raiseError_outLen (e : CodecError) (pos : Nat) (s : State) : (raiseError e pos s).outLen = 0 := by cases e <;> rfl
@[simp] theorem raiseError_srcSize (e : CodecError) (pos : Nat) (s : State) : (raiseError e pos s).srcSize = s.srcSize := by cases e <;> rfl
@[simp] theorem raiseError_dstSize (e : CodecError) (pos : Nat) (s : State) : (raiseError e pos s).dstSize = s.dstSize := by cases e <;> rfl
@[simp] theorem raiseError_errPos (e : CodecError) (pos : Nat) (s : State) : (raiseError e pos s).errPos = BitVec.ofNat 64 pos := by cases e <;> rfl
@[simp] theorem raiseError_work (e : CodecError) (pos : Nat) (s : State) : (raiseError e pos s).work = Work.blank := by cases e <;> rfl
@[simp] theorem raiseError_src (e : CodecError) (pos : Nat) (s : State) : (raiseError e pos s).src = s.src := by cases e <;> rfl
@[simp] theorem raiseError_dst (e : CodecError) (pos : Nat) (s : State) : (raiseError e pos s).dst = if e.spoilsDst then s.dst.forget s.work.exp else s.dst := by cases e <;> rfl
@[simp] theorem raiseError_program (e : CodecError) (pos : Nat) (s : State) : (raiseError e pos s).program = s.program := by cases e <;> rfl
@[simp] theorem raiseError_schedule (e : CodecError) (pos : Nat) (s : State) : (raiseError e pos s).schedule = s.schedule := by cases e <;> rfl
@[simp] theorem raiseError_saw (e : CodecError) (pos : Nat) (s : State) : (raiseError e pos s).saw = s.saw := by cases e <;> rfl
@[simp] theorem raiseError_draws (e : CodecError) (pos : Nat) (s : State) : (raiseError e pos s).draws = s.draws := by cases e <;> rfl
@[simp] theorem raiseError_resets (e : CodecError) (pos : Nat) (s : State) : (raiseError e pos s).resets = s.resets := by cases e <;> rfl
@[simp] theorem raiseError_dstSpoils (e : CodecError) (pos : Nat) (s : State) : (raiseError e pos s).dstSpoils = if e.spoilsDst then s.work.exp :: s.dstSpoils else s.dstSpoils := by cases e <;> rfl

/-! ### The prechecks' dispatch -/

@[simp] theorem dispatch_cmdOp (s : State) : (dispatch s).cmdOp = s.cmdOp := rfl
@[simp] theorem dispatch_busy (s : State) : (dispatch s).busy = s.busy := rfl
@[simp] theorem dispatch_done (s : State) : (dispatch s).done = s.done := rfl
@[simp] theorem dispatch_err (s : State) : (dispatch s).err = s.err := rfl
@[simp] theorem dispatch_ecode (s : State) : (dispatch s).ecode = s.ecode := rfl
@[simp] theorem dispatch_width (s : State) : (dispatch s).width = s.width := rfl
@[simp] theorem dispatch_height (s : State) : (dispatch s).height = s.height := rfl
@[simp] theorem dispatch_srcLen (s : State) : (dispatch s).srcLen = s.srcLen := rfl
@[simp] theorem dispatch_outLen (s : State) : (dispatch s).outLen = s.outLen := rfl
@[simp] theorem dispatch_srcSize (s : State) : (dispatch s).srcSize = s.srcSize := rfl
@[simp] theorem dispatch_dstSize (s : State) : (dispatch s).dstSize = s.dstSize := rfl
@[simp] theorem dispatch_errPos (s : State) : (dispatch s).errPos = s.errPos := rfl
@[simp] theorem dispatch_src (s : State) : (dispatch s).src = s.src := rfl
@[simp] theorem dispatch_dst (s : State) : (dispatch s).dst = s.dst := rfl
@[simp] theorem dispatch_program (s : State) : (dispatch s).program = s.program := rfl
@[simp] theorem dispatch_schedule (s : State) : (dispatch s).schedule = s.schedule := rfl
@[simp] theorem dispatch_saw (s : State) : (dispatch s).saw = s.saw := rfl
@[simp] theorem dispatch_draws (s : State) : (dispatch s).draws = s.draws := rfl
@[simp] theorem dispatch_resets (s : State) : (dispatch s).resets = s.resets := rfl
@[simp] theorem dispatch_dstSpoils (s : State) : (dispatch s).dstSpoils = s.dstSpoils := rfl

/-! ### A host read noted -/

@[simp] theorem note_cmdOp (x : Saw) (s : State) : (s.note x).cmdOp = s.cmdOp := rfl
@[simp] theorem note_busy (x : Saw) (s : State) : (s.note x).busy = s.busy := rfl
@[simp] theorem note_done (x : Saw) (s : State) : (s.note x).done = s.done := rfl
@[simp] theorem note_err (x : Saw) (s : State) : (s.note x).err = s.err := rfl
@[simp] theorem note_ecode (x : Saw) (s : State) : (s.note x).ecode = s.ecode := rfl
@[simp] theorem note_width (x : Saw) (s : State) : (s.note x).width = s.width := rfl
@[simp] theorem note_height (x : Saw) (s : State) : (s.note x).height = s.height := rfl
@[simp] theorem note_srcLen (x : Saw) (s : State) : (s.note x).srcLen = s.srcLen := rfl
@[simp] theorem note_outLen (x : Saw) (s : State) : (s.note x).outLen = s.outLen := rfl
@[simp] theorem note_srcSize (x : Saw) (s : State) : (s.note x).srcSize = s.srcSize := rfl
@[simp] theorem note_dstSize (x : Saw) (s : State) : (s.note x).dstSize = s.dstSize := rfl
@[simp] theorem note_errPos (x : Saw) (s : State) : (s.note x).errPos = s.errPos := rfl
@[simp] theorem note_work (x : Saw) (s : State) : (s.note x).work = s.work := rfl
@[simp] theorem note_src (x : Saw) (s : State) : (s.note x).src = s.src := rfl
@[simp] theorem note_dst (x : Saw) (s : State) : (s.note x).dst = s.dst := rfl
@[simp] theorem note_program (x : Saw) (s : State) : (s.note x).program = s.program := rfl
@[simp] theorem note_schedule (x : Saw) (s : State) : (s.note x).schedule = s.schedule := rfl
@[simp] theorem note_saw (x : Saw) (s : State) : (s.note x).saw = x :: s.saw := rfl
@[simp] theorem note_draws (x : Saw) (s : State) : (s.note x).draws = s.draws := rfl
@[simp] theorem note_resets (x : Saw) (s : State) : (s.note x).resets = s.resets := rfl
@[simp] theorem note_dstSpoils (x : Saw) (s : State) : (s.note x).dstSpoils = s.dstSpoils := rfl

/-! ### An operation put before the host's program -/

@[simp] theorem hostNext_cmdOp (op : HostOp) (s : State) : (s.hostNext op).cmdOp = s.cmdOp := rfl
@[simp] theorem hostNext_busy (op : HostOp) (s : State) : (s.hostNext op).busy = s.busy := rfl
@[simp] theorem hostNext_done (op : HostOp) (s : State) : (s.hostNext op).done = s.done := rfl
@[simp] theorem hostNext_err (op : HostOp) (s : State) : (s.hostNext op).err = s.err := rfl
@[simp] theorem hostNext_ecode (op : HostOp) (s : State) : (s.hostNext op).ecode = s.ecode := rfl
@[simp] theorem hostNext_width (op : HostOp) (s : State) : (s.hostNext op).width = s.width := rfl
@[simp] theorem hostNext_height (op : HostOp) (s : State) : (s.hostNext op).height = s.height := rfl
@[simp] theorem hostNext_srcLen (op : HostOp) (s : State) : (s.hostNext op).srcLen = s.srcLen := rfl
@[simp] theorem hostNext_outLen (op : HostOp) (s : State) : (s.hostNext op).outLen = s.outLen := rfl
@[simp] theorem hostNext_srcSize (op : HostOp) (s : State) : (s.hostNext op).srcSize = s.srcSize := rfl
@[simp] theorem hostNext_dstSize (op : HostOp) (s : State) : (s.hostNext op).dstSize = s.dstSize := rfl
@[simp] theorem hostNext_errPos (op : HostOp) (s : State) : (s.hostNext op).errPos = s.errPos := rfl
@[simp] theorem hostNext_work (op : HostOp) (s : State) : (s.hostNext op).work = s.work := rfl
@[simp] theorem hostNext_src (op : HostOp) (s : State) : (s.hostNext op).src = s.src := rfl
@[simp] theorem hostNext_dst (op : HostOp) (s : State) : (s.hostNext op).dst = s.dst := rfl
@[simp] theorem hostNext_program (op : HostOp) (s : State) : (s.hostNext op).program = op :: s.program := rfl
@[simp] theorem hostNext_schedule (op : HostOp) (s : State) : (s.hostNext op).schedule = s.schedule := rfl
@[simp] theorem hostNext_saw (op : HostOp) (s : State) : (s.hostNext op).saw = s.saw := rfl
@[simp] theorem hostNext_draws (op : HostOp) (s : State) : (s.hostNext op).draws = s.draws := rfl
@[simp] theorem hostNext_resets (op : HostOp) (s : State) : (s.hostNext op).resets = s.resets := rfl
@[simp] theorem hostNext_dstSpoils (op : HostOp) (s : State) : (s.hostNext op).dstSpoils = s.dstSpoils := rfl

/-! ### Reset -/

@[simp] theorem platformReset_cmdOp (s : State) : (platformReset s).cmdOp = 0 := rfl
@[simp] theorem platformReset_busy (s : State) : (platformReset s).busy = false := rfl
@[simp] theorem platformReset_done (s : State) : (platformReset s).done = false := rfl
@[simp] theorem platformReset_err (s : State) : (platformReset s).err = false := rfl
@[simp] theorem platformReset_ecode (s : State) : (platformReset s).ecode = 0 := rfl
@[simp] theorem platformReset_width (s : State) : (platformReset s).width = 0 := rfl
@[simp] theorem platformReset_height (s : State) : (platformReset s).height = 0 := rfl
@[simp] theorem platformReset_srcLen (s : State) : (platformReset s).srcLen = 0 := rfl
@[simp] theorem platformReset_outLen (s : State) : (platformReset s).outLen = 0 := rfl
@[simp] theorem platformReset_srcSize (s : State) : (platformReset s).srcSize = s.srcSize := rfl
@[simp] theorem platformReset_dstSize (s : State) : (platformReset s).dstSize = s.dstSize := rfl
@[simp] theorem platformReset_errPos (s : State) : (platformReset s).errPos = 0 := rfl
@[simp] theorem platformReset_work (s : State) : (platformReset s).work = Work.blank := rfl
@[simp] theorem platformReset_src (s : State) : (platformReset s).src = [] := rfl
@[simp] theorem platformReset_dst (s : State) : (platformReset s).dst = [] := rfl
@[simp] theorem platformReset_program (s : State) : (platformReset s).program = s.program := rfl
@[simp] theorem platformReset_schedule (s : State) : (platformReset s).schedule = s.schedule := rfl
@[simp] theorem platformReset_saw (s : State) : (platformReset s).saw = s.saw := rfl
@[simp] theorem platformReset_draws (s : State) : (platformReset s).draws = s.draws := rfl
@[simp] theorem platformReset_resets (s : State) : (platformReset s).resets = s.resets + 1 := rfl
@[simp] theorem platformReset_dstSpoils (s : State) : (platformReset s).dstSpoils = s.dstSpoils := rfl

/-! ### The latched operands -/

@[simp] theorem latched_op (s : State) (op : BitVec 4) : (s.latched op).op = op := rfl
@[simp] theorem latched_w (s : State) (op : BitVec 4) : (s.latched op).w = s.width.toNat := rfl
@[simp] theorem latched_h (s : State) (op : BitVec 4) : (s.latched op).h = s.height.toNat := rfl
@[simp] theorem latched_n (s : State) (op : BitVec 4) : (s.latched op).n = s.srcLen.toNat := rfl
@[simp] theorem latched_phase (s : State) (op : BitVec 4) : (s.latched op).phase = .precheck := rfl

end Sys2Proof.Machine
end

