-- ==== Sys2Proof/Laws/Ops.lean ====
section
/-! SUPPORT. For each shared operation, everything it can do, said once: the core's reads and writes, the output
primitive, and what no operation of the core touches. -/

namespace Sys2Proof.Machine

/-! ### Reads and writes -/

/-- A core read gives the byte at an offset inside SRC that has a value. -/
theorem srcRead_eq_ok {s : State} {a : Nat} {b : Byte} :
    srcRead s a = .ok b ↔ a < s.srcSize.toNat ∧ s.src.read a = some b := by
  unfold srcRead
  split
  · cases h : s.src.read a <;> simp_all
  · simp_all

/-- A core read faults outside SRC, or at a byte without a value. -/
theorem srcRead_eq_error {s : State} {a : Nat} {f : Fault} :
    srcRead s a = .error f ↔
      (s.srcSize.toNat ≤ a ∧ f = .srcOutOfRange a) ∨
      (a < s.srcSize.toNat ∧ s.src.read a = none ∧ f = .srcByteUnwritten a) := by
  unfold srcRead
  split
  · next h =>
    have h' : ¬ s.srcSize.toNat ≤ a := by omega
    cases hr : s.src.read a <;> simp [h, h', eq_comm]
  · next h =>
    have h' : s.srcSize.toNat ≤ a := by omega
    simp [h, h', eq_comm]

/-- A block read gives the bytes at its offsets. -/
theorem srcReadAll_eq_ok {s : State} {a len : Nat} {bs : List Byte} :
    srcReadAll s a len = .ok bs ↔
      s.src.readAll a len = some bs ∧ (len = 0 ∨ a + len ≤ s.srcSize.toNat) := by
  induction len generalizing a bs with
  | zero => simp [srcReadAll, Memory.readAll]
  | succ len ih =>
    rw [Memory.readAll_succ]
    simp only [srcReadAll, bind_eq_ok, srcRead_eq_ok, ih, Except.ok.injEq]
    constructor
    · rintro ⟨b, ⟨hlt, hb⟩, rest, ⟨hr, hl⟩, rfl⟩
      exact ⟨⟨b, rest, rfl, hb, hr⟩, .inr (by omega)⟩
    · rintro ⟨⟨b, rest, rfl, hb, hr⟩, hl⟩
      exact ⟨b, ⟨by omega, hb⟩, rest, ⟨hr, by omega⟩, rfl⟩

/-- A block read faults only at an offset of the block, outside SRC or without a value. -/
theorem srcReadAll_eq_error {s : State} {a len : Nat} {f : Fault} (h : srcReadAll s a len = .error f) :
    ∃ j, j < len ∧ srcRead s (a + j) = .error f := by
  induction len generalizing a with
  | zero => simp [srcReadAll] at h
  | succ len ih =>
    simp only [srcReadAll, bind_eq_error] at h
    obtain h | ⟨b, _, h | ⟨bs, _, h⟩⟩ := h
    · exact ⟨0, by omega, h⟩
    · obtain ⟨j, hj, hf⟩ := ih h
      exact ⟨j + 1, by omega, by rwa [show a + (j + 1) = a + 1 + j by omega]⟩
    · cases h

/-- A core write sets one byte inside DST and nothing else. -/
theorem dstWrite_eq_ok {s t : State} {a : Nat} {v : Byte} :
    dstWrite s a v = .ok t ↔ a < s.dstSize.toNat ∧ t = { s with dst := s.dst.write a v } := by
  unfold dstWrite
  split <;> simp_all [eq_comm]

/-- A core write faults outside DST. -/
theorem dstWrite_eq_error {s : State} {a : Nat} {v : Byte} {f : Fault} :
    dstWrite s a v = .error f ↔ s.dstSize.toNat ≤ a ∧ f = .dstOutOfRange a := by
  unfold dstWrite
  split
  · next h =>
    have h' : ¬ s.dstSize.toNat ≤ a := by omega
    simp [h']
  · next h =>
    have h' : s.dstSize.toNat ≤ a := by omega
    simp [h', eq_comm]

/-- A block write sets the block's bytes inside DST and nothing else. -/
theorem dstWriteAll_eq_ok {s t : State} {a : Nat} {vs : List Byte} :
    dstWriteAll s a vs = .ok t ↔
      (vs = [] ∨ a + vs.length ≤ s.dstSize.toNat) ∧ t = { s with dst := s.dst.writeAll a vs } := by
  induction vs generalizing s a with
  | nil => simp [dstWriteAll, eq_comm]
  | cons v vs ih =>
    simp only [dstWriteAll, bind_eq_ok, dstWrite_eq_ok, Memory.writeAll_cons]
    constructor
    · rintro ⟨u, ⟨hlt, rfl⟩, h⟩
      obtain ⟨hl, rfl⟩ := ih.1 h
      refine ⟨.inr ?_, rfl⟩
      rcases hl with rfl | hl
      · simpa using hlt
      · simp at hl ⊢; omega
    · rintro ⟨hl, rfl⟩
      have hl : a + (vs.length + 1) ≤ s.dstSize.toNat := by simpa using hl
      exact ⟨_, ⟨by omega, rfl⟩, ih.2 ⟨.inr (by simp; omega), rfl⟩⟩

/-- A block write faults only outside DST. -/
theorem dstWriteAll_eq_error {s : State} {a : Nat} {vs : List Byte} {f : Fault}
    (h : dstWriteAll s a vs = .error f) : s.dstSize.toNat < a + vs.length := by
  induction vs generalizing s a with
  | nil => simp [dstWriteAll] at h
  | cons v vs ih =>
    simp only [dstWriteAll, bind_eq_error, dstWrite_eq_error, dstWrite_eq_ok] at h
    obtain ⟨h, _⟩ | ⟨u, ⟨_, rfl⟩, h⟩ := h
    · simp; omega
    · have := ih h; simp at this ⊢; omega

/-! ### The output primitive -/

/-- The state after `bs` went through the output primitive: the bytes that fit below the expected length appended, the
first byte beyond it noted. -/
def emitted (s : State) (bs : List Byte) : State :=
  { s with
    dst := s.dst.writeAll s.work.p (bs.take (s.work.exp - s.work.p))
    work := { s.work with
      p := s.work.p + min bs.length (s.work.exp - s.work.p)
      overrun := s.work.overrun || decide (s.work.exp - s.work.p < bs.length)
      overpos := if s.work.overrun = false ∧ s.work.exp - s.work.p < bs.length then s.work.pc else s.work.overpos } }

theorem emit_eq_ok {s t : State} {b : Byte} :
    emit s b = .ok t ↔ (s.work.p < s.work.exp → s.work.p < s.dstSize.toNat) ∧ t = emitted s [b] := by
  unfold emit
  by_cases hp : s.work.p < s.work.exp
  · obtain ⟨d, hd⟩ : ∃ d, s.work.exp - s.work.p = d + 1 := ⟨s.work.exp - s.work.p - 1, by omega⟩
    have key : ({ s with dst := s.dst.write s.work.p b } : State).setWork { s.work with p := s.work.p + 1 } =
        emitted s [b] := by simp [emitted, hd, State.setWork, Memory.writeAll_cons]
    simp only [hp, if_true, bind_eq_ok, dstWrite_eq_ok, forall_const, ← key]
    constructor
    · rintro ⟨u, ⟨hlt, rfl⟩, h⟩
      exact ⟨hlt, (Except.ok.inj h).symm⟩
    · rintro ⟨hlt, rfl⟩
      exact ⟨_, ⟨hlt, rfl⟩, rfl⟩
  · have hd : s.work.exp - s.work.p = 0 := by omega
    have key : (if s.work.overrun then s
        else s.setWork { s.work with overrun := true, overpos := s.work.pc }) = emitted s [b] := by
      cases ho : s.work.overrun
      · simp [emitted, hd, State.setWork, ho]
      · have : s = { s with work := { s.work with overrun := true } } := by rw [← ho]
        simpa [emitted, hd, ho] using this
    rw [if_neg hp, ← key]
    simp only [hp, false_imp_iff, true_and]
    split <;> exact ⟨fun h => (Except.ok.inj h).symm, fun h => by rw [h]⟩

/-- Emitting byte after byte is emitting the block. -/
theorem emitted_append (s : State) (bs cs : List Byte) : emitted (emitted s bs) cs = emitted s (bs ++ cs) := by
  unfold emitted
  simp only [List.length_append, State.mk.injEq, Work.mk.injEq, true_and, and_true]
  refine ⟨⟨?_, ?_, ?_⟩, ?_⟩
  · omega
  · rw [Bool.or_assoc]; congr 1
    rw [Bool.eq_iff_iff]; simp; omega
  · by_cases ho : s.work.overrun = true
    · simp [ho]
    · by_cases h : s.work.exp - s.work.p < bs.length
      · have h' : s.work.exp - s.work.p < bs.length + cs.length := by omega
        simp [ho, h, h']
      · have : (s.work.exp - (s.work.p + min bs.length (s.work.exp - s.work.p)) < cs.length) =
            (s.work.exp - s.work.p < bs.length + cs.length) := by apply propext; omega
        simp [ho, h, this]
  · by_cases h : bs.length ≤ s.work.exp - s.work.p
    · rw [List.take_append, Memory.writeAll_append, List.length_take, List.take_of_length_le h,
        show min (s.work.exp - s.work.p) bs.length = bs.length by omega,
        show min bs.length (s.work.exp - s.work.p) = bs.length by omega]
      congr 2; omega
    · rw [List.take_append_of_le_length (by omega),
        show s.work.exp - (s.work.p + min bs.length (s.work.exp - s.work.p)) = 0 by omega]
      simp

@[simp] theorem emitted_nil (s : State) : emitted s [] = s := by simp [emitted]

/-- Emitting a block appends what fits and notes an overrun; it faults only where DST is shorter than the expected
length. -/
theorem emitAll_eq_ok {s t : State} {bs : List Byte} :
    emitAll s bs = .ok t ↔
      (bs = [] ∨ s.work.exp ≤ s.work.p ∨ s.work.p + min bs.length (s.work.exp - s.work.p) ≤ s.dstSize.toNat) ∧
      t = emitted s bs := by
  induction bs generalizing s with
  | nil => simp [emitAll, eq_comm]
  | cons b bs ih =>
    simp only [emitAll, bind_eq_ok, emit_eq_ok]
    have hsz : (emitted s [b]).dstSize = s.dstSize := rfl
    have hexp : (emitted s [b]).work.exp = s.work.exp := rfl
    have hp : (emitted s [b]).work.p = s.work.p + min 1 (s.work.exp - s.work.p) := rfl
    have happ : emitted (emitted s [b]) bs = emitted s (b :: bs) := emitted_append s [b] bs
    constructor
    · rintro ⟨u, ⟨hlt, rfl⟩, h⟩
      obtain ⟨hl, rfl⟩ := ih.1 h
      refine ⟨.inr ?_, happ⟩
      rw [hsz, hexp, hp] at hl
      simp only [List.length_cons]
      by_cases hpe : s.work.exp ≤ s.work.p
      · exact .inl hpe
      · right
        have := hlt (by omega)
        rcases hl with rfl | hl | hl
        · simp; omega
        · omega
        · omega
    · rintro ⟨hl, rfl⟩
      have hl : s.work.exp ≤ s.work.p ∨
          s.work.p + min (bs.length + 1) (s.work.exp - s.work.p) ≤ s.dstSize.toNat := by simpa using hl
      refine ⟨_, ⟨fun h => by omega, rfl⟩, ih.2 ⟨?_, happ.symm⟩⟩
      rw [hsz, hexp, hp]
      right; omega

/-- Emitting faults only where DST is shorter than the expected length. -/
theorem emitAll_of_capacity {s : State} (h : s.work.exp ≤ s.dstSize.toNat) (bs : List Byte) :
    emitAll s bs = .ok (emitted s bs) := by
  rw [emitAll_eq_ok]
  exact ⟨by omega, rfl⟩

/-! ### What no operation of the core touches -/

/-- The two states differ at most in what the core may change: the completion fields of STATUS, OUT_LEN and ERR_POS, the
working registers, DST. -/
structure SameOutsideCore (s t : State) : Prop where
  cmdOp    : t.cmdOp = s.cmdOp
  width    : t.width = s.width
  height   : t.height = s.height
  srcLen   : t.srcLen = s.srcLen
  srcSize  : t.srcSize = s.srcSize
  dstSize  : t.dstSize = s.dstSize
  src      : t.src = s.src
  program  : t.program = s.program
  schedule : t.schedule = s.schedule
  saw      : t.saw = s.saw
  draws    : t.draws = s.draws
  resets   : t.resets = s.resets

theorem SameOutsideCore.refl (s : State) : SameOutsideCore s s := by constructor <;> rfl

theorem SameOutsideCore.trans {s t u : State} (h : SameOutsideCore s t) (h' : SameOutsideCore t u) :
    SameOutsideCore s u where
  cmdOp := h'.cmdOp.trans h.cmdOp
  width := h'.width.trans h.width
  height := h'.height.trans h.height
  srcLen := h'.srcLen.trans h.srcLen
  srcSize := h'.srcSize.trans h.srcSize
  dstSize := h'.dstSize.trans h.dstSize
  src := h'.src.trans h.src
  program := h'.program.trans h.program
  schedule := h'.schedule.trans h.schedule
  saw := h'.saw.trans h.saw
  draws := h'.draws.trans h.draws
  resets := h'.resets.trans h.resets

theorem sameOutsideCore_setWork (s : State) (wk : Work) : SameOutsideCore s (s.setWork wk) := by
  constructor <;> rfl

theorem sameOutsideCore_finish (len : Nat) (s : State) : SameOutsideCore s (finish len s) := by
  constructor <;> rfl

theorem sameOutsideCore_raiseError (e : CodecError) (pos : Nat) (s : State) :
    SameOutsideCore s (raiseError e pos s) := by constructor <;> simp

theorem sameOutsideCore_emitted (s : State) (bs : List Byte) : SameOutsideCore s (emitted s bs) := by
  constructor <;> rfl

theorem sameOutsideCore_dstWrite {s t : State} {a : Nat} {v : Byte} (h : dstWrite s a v = .ok t) :
    SameOutsideCore s t := by
  obtain ⟨_, rfl⟩ := dstWrite_eq_ok.1 h
  constructor <;> rfl

end Sys2Proof.Machine
end

