-- ==== Sys2Proof/Laws/Commands.lean ====
section
/-! SUPPORT. What one core step of each command can do, said once, and a command's run as an induction over its core
steps. -/

namespace Sys2Proof.Machine

/-! ### Records -/

/-- A record that fits emits its output and moves the cursor; one that does not ends the command. -/
theorem performRecord_eq_ok {len : Nat} {out : List Byte} {s t : State} :
    performRecord len out s = .ok t ↔
      (s.work.pc + len ≤ s.work.n ∧ emitAll s out = .ok (emitted s out) ∧
        t = (emitted s out).setWork { (emitted s out).work with pc := s.work.pc + len }) ∨
      (s.work.n < s.work.pc + len ∧ t = raiseError .truncatedStream s.work.pc s) := by
  unfold performRecord
  split
  · next h =>
    have h' : ¬ s.work.n < s.work.pc + len := by omega
    simp only [bind_eq_ok, h, h', true_and, false_and, or_false]
    constructor
    · rintro ⟨u, hu, h⟩
      obtain ⟨_, rfl⟩ := emitAll_eq_ok.1 hu
      exact ⟨hu, (Except.ok.inj h).symm⟩
    · rintro ⟨hu, rfl⟩
      exact ⟨_, hu, rfl⟩
  · next h =>
    have h' : s.work.n < s.work.pc + len := by omega
    simp [h, h', eq_comm]

/-- The decoder of records answers records only. -/
theorem decodeRecord_kind {bs rest : List Byte} {i : Instr} (h : decodeRecord bs = .ok (i, rest)) :
    i.kind = .record := by
  unfold decodeRecord at h
  split at h
  · cases h
  · split at h
    · split at h
      · cases h
      · cases h; rfl
    · split at h
      · cases h
      · cases h; rfl

/-- The fetch answers records only. -/
theorem fetchRecord_kind {s : State} {i : Instr} (h : fetchRecord s = .ok (.record i)) : i.kind = .record := by
  unfold fetchRecord at h
  split at h
  · obtain ⟨cb, _, h⟩ := bind_eq_ok.1 h
    split at h
    · obtain ⟨data, _, h⟩ := bind_eq_ok.1 h
      split at h
      · next hd => cases h; exact decodeRecord_kind hd
      · cases h
    · cases h
  · cases h

/-- One core step of DECOMPRESS completes the command, or performs a record. -/
theorem decompressStep_cases {s t : State} (h : decompressStep s = .ok t) :
    (fetchRecord s = .ok .endOfStream ∧ t = decompressEnd s) ∨
    (fetchRecord s = .ok .truncated ∧ t = raiseError .truncatedStream s.work.pc s) ∨
    (∃ r v, fetchRecord s = .ok (.record (.run r v)) ∧ runRecord r v s = .ok t) ∨
    (∃ bs, fetchRecord s = .ok (.record (.lit bs)) ∧ litRecord bs s = .ok t) := by
  obtain ⟨f, hf, h⟩ := bind_eq_ok.1 h
  cases f with
  | endOfStream => exact .inl ⟨hf, (Except.ok.inj h).symm⟩
  | truncated => exact .inr (.inl ⟨hf, (Except.ok.inj h).symm⟩)
  | record i =>
    cases i with
    | run r v => exact .inr (.inr (.inl ⟨r, v, hf, h⟩))
    | lit bs => exact .inr (.inr (.inr ⟨bs, hf, h⟩))
    | decompress => cases fetchRecord_kind hf
    | compress => cases fetchRecord_kind hf
    | planarToRgb => cases fetchRecord_kind hf
    | rgbToPlanar => cases fetchRecord_kind hf
    | reservedLow x => cases fetchRecord_kind hf
    | reservedHigh x => cases fetchRecord_kind hf

theorem sameOutsideCore_performRecord {len : Nat} {out : List Byte} {s t : State}
    (h : performRecord len out s = .ok t) : SameOutsideCore s t := by
  obtain ⟨_, _, rfl⟩ | ⟨_, rfl⟩ := performRecord_eq_ok.1 h
  · exact (sameOutsideCore_emitted s out).trans (sameOutsideCore_setWork _ _)
  · exact sameOutsideCore_raiseError _ _ _

theorem sameOutsideCore_decompressEnd (s : State) : SameOutsideCore s (decompressEnd s) := by
  unfold decompressEnd
  split
  · exact sameOutsideCore_raiseError _ _ _
  · split
    · exact sameOutsideCore_raiseError _ _ _
    · exact sameOutsideCore_finish _ _

theorem sameOutsideCore_decompressStep {s t : State} (h : decompressStep s = .ok t) : SameOutsideCore s t := by
  obtain ⟨_, rfl⟩ | ⟨_, rfl⟩ | ⟨_, _, _, h⟩ | ⟨_, _, h⟩ := decompressStep_cases h
  · exact sameOutsideCore_decompressEnd s
  · exact sameOutsideCore_raiseError _ _ _
  · exact sameOutsideCore_performRecord h
  · exact sameOutsideCore_performRecord h

/-! ### COMPRESS -/

/-- One core step of COMPRESS completes the command, or stores one record at the output index. -/
theorem compressStep_cases {s t : State} (h : compressStep s = .ok t) :
    (s.work.n ≤ s.work.i ∧ t = finish s.work.o s) ∨
    (s.work.i < s.work.n ∧ ∃ record taken, nextRecord s = .ok (record, taken) ∧
      s.work.o + (encode record).length ≤ s.dstSize.toNat ∧
      t = { s with dst := s.dst.writeAll s.work.o (encode record)
                   work := { s.work with o := s.work.o + record.byteLength, i := s.work.i + taken } }) := by
  unfold compressStep at h
  split at h
  · next hi =>
    obtain ⟨⟨record, taken⟩, hr, h⟩ := bind_eq_ok.1 h
    obtain ⟨u, hu, h⟩ := bind_eq_ok.1 h
    obtain ⟨hl, rfl⟩ := dstWriteAll_eq_ok.1 hu
    refine .inr ⟨hi, record, taken, hr, ?_, (Except.ok.inj h).symm⟩
    rcases hl with hl | hl
    · cases record <;> simp [encode, toLanes, List.map_eq_nil_iff] at hl
    · exact hl
  · next hi => exact .inl ⟨by omega, (Except.ok.inj h).symm⟩

theorem sameOutsideCore_compressStep {s t : State} (h : compressStep s = .ok t) : SameOutsideCore s t := by
  obtain ⟨_, rfl⟩ | ⟨_, _, _, _, _, rfl⟩ := compressStep_cases h
  · exact sameOutsideCore_finish _ _
  · constructor <;> rfl

/-! ### The converters -/

/-- A byte moved from SRC to DST. -/
theorem moveByte_eq_ok {a b : Nat} {s t : State} :
    moveByte a b s = .ok t ↔ ∃ v, a < s.srcSize.toNat ∧ s.src.read a = some v ∧ b < s.dstSize.toNat ∧
      t = { s with dst := s.dst.write b v } := by
  simp only [moveByte, bind_eq_ok, srcRead_eq_ok, dstWrite_eq_ok, and_assoc]

/-- One core step of PLANAR_TO_RGB completes the command, or moves one pixel. -/
theorem planarToRgbStep_cases {s t : State} (h : planarToRgbStep s = .ok t) :
    (s.work.w * s.work.h ≤ s.work.k ∧ t = finish (3 * (s.work.w * s.work.h)) s) ∨
    (s.work.k < s.work.w * s.work.h ∧ ∃ r g b,
      s.src.read (planeOffset (s.work.w * s.work.h) 2 s.work.k) = some r ∧
      s.src.read (planeOffset (s.work.w * s.work.h) 1 s.work.k) = some g ∧
      s.src.read (planeOffset (s.work.w * s.work.h) 0 s.work.k) = some b ∧
      t = { s with dst := ((s.dst.write (pixelOffset 2 s.work.k) r).write (pixelOffset 1 s.work.k) g).write
                            (pixelOffset 0 s.work.k) b
                   work := { s.work with k := s.work.k + 1 } }) := by
  simp only [planarToRgbStep] at h
  split at h
  · next hk =>
    simp only [bind_eq_ok, moveByte_eq_ok] at h
    obtain ⟨_, ⟨r, _, hr, _, rfl⟩, _, ⟨g, _, hg, _, rfl⟩, _, ⟨b, _, hb, _, rfl⟩, h⟩ := h
    exact .inr ⟨hk, r, g, b, hr, hg, hb, (Except.ok.inj h).symm⟩
  · next hk => exact .inl ⟨by omega, (Except.ok.inj h).symm⟩

/-- One core step of RGB_TO_PLANAR completes the command, or moves one pixel. -/
theorem rgbToPlanarStep_cases {s t : State} (h : rgbToPlanarStep s = .ok t) :
    (s.work.w * s.work.h ≤ s.work.k ∧ t = finish (3 * (s.work.w * s.work.h)) s) ∨
    (s.work.k < s.work.w * s.work.h ∧ ∃ r g b,
      s.src.read (pixelOffset 2 s.work.k) = some r ∧
      s.src.read (pixelOffset 1 s.work.k) = some g ∧
      s.src.read (pixelOffset 0 s.work.k) = some b ∧
      t = { s with dst := ((s.dst.write (planeOffset (s.work.w * s.work.h) 0 s.work.k) b).write
                            (planeOffset (s.work.w * s.work.h) 1 s.work.k) g).write
                            (planeOffset (s.work.w * s.work.h) 2 s.work.k) r
                   work := { s.work with k := s.work.k + 1 } }) := by
  simp only [rgbToPlanarStep] at h
  split at h
  · next hk =>
    simp only [bind_eq_ok, moveByte_eq_ok] at h
    obtain ⟨_, ⟨b, _, hb, _, rfl⟩, _, ⟨g, _, hg, _, rfl⟩, _, ⟨r, _, hr, _, rfl⟩, h⟩ := h
    exact .inr ⟨hk, r, g, b, hr, hg, hb, (Except.ok.inj h).symm⟩
  · next hk => exact .inl ⟨by omega, (Except.ok.inj h).symm⟩

theorem sameOutsideCore_planarToRgbStep {s t : State} (h : planarToRgbStep s = .ok t) : SameOutsideCore s t := by
  obtain ⟨_, rfl⟩ | ⟨_, _, _, _, _, _, _, rfl⟩ := planarToRgbStep_cases h
  · exact sameOutsideCore_finish _ _
  · constructor <;> rfl

theorem sameOutsideCore_rgbToPlanarStep {s t : State} (h : rgbToPlanarStep s = .ok t) : SameOutsideCore s t := by
  obtain ⟨_, rfl⟩ | ⟨_, _, _, _, _, _, _, rfl⟩ := rgbToPlanarStep_cases h
  · exact sameOutsideCore_finish _ _
  · constructor <;> rfl

/-! ### The prechecks -/

/-- The prechecks end the command with one error, or let its body begin. -/
theorem precheck_cases (s : State) :
    (4 ≤ s.work.op.toNat ∧ precheck s = raiseError .illegalOp 0 s) ∨
    (s.work.op.toNat < 4 ∧
      (s.srcSize.toNat < s.work.n ∨
        (s.work.op = 2 ∨ s.work.op = 3) ∧ s.work.n ≠ expectedLength s.work.w s.work.h) ∧
      precheck s = raiseError .badLength 0 s) ∨
    (s.work.op.toNat < 4 ∧ s.work.n ≤ s.srcSize.toNat ∧
      ((s.work.op = 2 ∨ s.work.op = 3) → s.work.n = expectedLength s.work.w s.work.h) ∧
      s.dstSize.toNat < requiredLength s.work.op s.work.w s.work.h s.work.n ∧
      precheck s = raiseError .capacity 0 s) ∨
    (s.work.op.toNat < 4 ∧ s.work.n ≤ s.srcSize.toNat ∧
      ((s.work.op = 2 ∨ s.work.op = 3) → s.work.n = expectedLength s.work.w s.work.h) ∧
      requiredLength s.work.op s.work.w s.work.h s.work.n ≤ s.dstSize.toNat ∧
      precheck s = dispatch s) := by
  unfold precheck
  by_cases h1 : 4 ≤ s.work.op.toNat
  · exact .inl ⟨h1, by simp [h1]⟩
  by_cases h2 : s.srcSize.toNat < s.work.n
  · exact .inr (.inl ⟨by omega, .inl h2, by simp [h1, h2]⟩)
  by_cases h3 : (s.work.op = 2 ∨ s.work.op = 3) ∧ s.work.n ≠ expectedLength s.work.w s.work.h
  · exact .inr (.inl ⟨by omega, .inr h3, by rw [if_neg h1, if_neg h2, if_pos h3]⟩)
  have h3' : (s.work.op = 2 ∨ s.work.op = 3) → s.work.n = expectedLength s.work.w s.work.h := by tauto
  by_cases h4 : s.dstSize.toNat < requiredLength s.work.op s.work.w s.work.h s.work.n
  · exact .inr (.inr (.inl ⟨by omega, by omega, h3', h4, by rw [if_neg h1, if_neg h2, if_neg h3, if_pos h4]⟩))
  · exact .inr (.inr (.inr ⟨by omega, by omega, h3', by omega, by rw [if_neg h1, if_neg h2, if_neg h3, if_neg h4]⟩))

theorem sameOutsideCore_precheck (s : State) : SameOutsideCore s (precheck s) := by
  obtain ⟨_, h⟩ | ⟨_, _, h⟩ | ⟨_, _, _, _, h⟩ | ⟨_, _, _, _, h⟩ := precheck_cases s <;> rw [h]
  · exact sameOutsideCore_raiseError _ _ _
  · exact sameOutsideCore_raiseError _ _ _
  · exact sameOutsideCore_raiseError _ _ _
  · exact sameOutsideCore_setWork _ _

/-! ### One core step, and a run of them -/

/-- One core step of a running command is its prechecks or a step of its body. -/
theorem coreStep_cases {s t : State} (h : coreStep s = .ok t) :
    (s.busy = false ∧ t = s) ∨
    (s.busy = true ∧ s.work.phase = .precheck ∧ t = precheck s) ∨
    (s.busy = true ∧ s.work.phase = .body ∧
      ((s.work.op.toNat = 0 ∧ decompressStep s = .ok t) ∨ (s.work.op.toNat = 1 ∧ compressStep s = .ok t) ∨
       (s.work.op.toNat = 2 ∧ planarToRgbStep s = .ok t) ∨ (s.work.op.toNat = 3 ∧ rgbToPlanarStep s = .ok t) ∨
       (4 ≤ s.work.op.toNat ∧ t = raiseError .illegalOp 0 s))) := by
  unfold coreStep at h
  by_cases hb : s.busy = true
  · rw [if_pos hb] at h
    cases hp : s.work.phase with
    | precheck => rw [hp] at h; exact .inr (.inl ⟨hb, rfl, (Except.ok.inj h).symm⟩)
    | body =>
      rw [hp] at h
      refine .inr (.inr ⟨hb, rfl, ?_⟩)
      simp only [bodyStep] at h
      generalize s.work.op.toNat = op at h
      match op, h with
      | 0, h => exact .inl ⟨rfl, h⟩
      | 1, h => exact .inr (.inl ⟨rfl, h⟩)
      | 2, h => exact .inr (.inr (.inl ⟨rfl, h⟩))
      | 3, h => exact .inr (.inr (.inr (.inl ⟨rfl, h⟩)))
      | op + 4, h => exact .inr (.inr (.inr (.inr ⟨by omega, (Except.ok.inj h).symm⟩)))
  · rw [if_neg hb] at h
    exact .inl ⟨by simpa using hb, (Except.ok.inj h).symm⟩

/-- A core step touches only what is the core's. -/
theorem sameOutsideCore_coreStep {s t : State} (h : coreStep s = .ok t) : SameOutsideCore s t := by
  obtain ⟨_, rfl⟩ | ⟨_, _, rfl⟩ | ⟨_, _, ⟨_, h⟩ | ⟨_, h⟩ | ⟨_, h⟩ | ⟨_, h⟩ | ⟨_, rfl⟩⟩ := coreStep_cases h
  · exact .refl _
  · exact sameOutsideCore_precheck s
  · exact sameOutsideCore_decompressStep h
  · exact sameOutsideCore_compressStep h
  · exact sameOutsideCore_planarToRgbStep h
  · exact sameOutsideCore_rgbToPlanarStep h
  · exact sameOutsideCore_raiseError _ _ _

@[simp] theorem coreRun_idle {s : State} (h : s.busy = false) (fuel : Nat) : coreRun fuel s = .ok s := by
  cases fuel <;> simp [coreRun, h]

theorem coreRun_busy {s : State} (h : s.busy = true) (fuel : Nat) :
    coreRun (fuel + 1) s = coreStep s >>= coreRun fuel := by simp [coreRun, h]

/-- What every core step keeps, a run of them keeps. -/
theorem coreRun_induction {P : State → Prop}
    (hstep : ∀ s t, s.busy = true → coreStep s = .ok t → P s → P t) {fuel : Nat} {s t : State}
    (h : coreRun fuel s = .ok t) (hs : P s) : P t := by
  induction fuel generalizing s with
  | zero => cases h; exact hs
  | succ fuel ih =>
    cases hb : s.busy with
    | false => rw [coreRun_idle hb] at h; cases h; exact hs
    | true =>
      rw [coreRun_busy hb] at h
      obtain ⟨u, hu, h⟩ := bind_eq_ok.1 h
      exact ih h (hstep s u hb hu hs)

/-- A run of core steps touches only what is the core's. -/
theorem sameOutsideCore_coreRun {fuel : Nat} {s t : State} (h : coreRun fuel s = .ok t) : SameOutsideCore s t :=
  coreRun_induction (P := SameOutsideCore s) (fun _ _ _ hu hs => hs.trans (sameOutsideCore_coreStep hu)) h (.refl s)

theorem toOut_eq_next {r : Except Fault State} {t : State} : toOut r = .next t ↔ r = .ok t := by
  cases r <;> simp [toOut]

/-- A command issued to an idle core runs whole; issued to a busy one it is ignored. -/
theorem issue_eq_next {op : BitVec 4} {s t : State} :
    issue op s = .next t ↔
      (s.busy = true ∧ t = s) ∨
      (s.busy = false ∧ coreRun (stepBound s.srcLen.toNat) (start op s) = .ok t) := by
  unfold issue
  cases s.busy
  · simp [toOut_eq_next]
  · simp [eq_comm (a := s)]

end Sys2Proof.Machine
end

