-- ==== Sys2Proof/Laws/Compress.lean ====
section
/-! SUPPORT. What the parts of COMPRESS's greedy policy answer, in terms of the SRC bytes they read
(41_compress.md R122, R123, R125). -/

namespace Sys2Proof.Machine

theorem runLenFrom_eq_ok {s : State} {i left r r' : Nat} {b : Byte} (h : runLenFrom s i b left r = .ok r')
    (hn : i + r ≤ s.work.n) :
    r ≤ r' ∧ r' ≤ r + left ∧ i + r' ≤ s.work.n ∧ (∀ j, r ≤ j → j < r' → s.src.read (i + j) = some b) ∧
      (r' = r + left ∨ i + r' = s.work.n ∨ ∃ c, s.src.read (i + r') = some c ∧ c ≠ b) := by
  induction left generalizing r with
  | zero => cases h; exact ⟨le_refl _, by omega, hn, fun j _ _ => by omega, .inl rfl⟩
  | succ left ih =>
    simp only [runLenFrom] at h
    split at h
    · next hlt =>
      simp only [bind_eq_ok, srcRead_eq_ok] at h
      obtain ⟨c, ⟨_, hc⟩, h⟩ := h
      split at h
      · next hcb =>
        obtain ⟨h1, h2, h3, h4, h5⟩ := ih h (by omega)
        refine ⟨by omega, by omega, h3, fun j hj hj' => ?_, ?_⟩
        · by_cases hjr : j = r
          · rw [hjr, hc, hcb]
          · exact h4 j (by omega) hj'
        · rcases h5 with h5 | h5
          · exact .inl (by omega)
          · exact .inr h5
      · next hcb => cases h; exact ⟨le_refl _, by omega, hn, fun j _ _ => by omega, .inr (.inr ⟨c, hc, hcb⟩)⟩
    · next hlt => cases h; exact ⟨le_refl _, by omega, hn, fun j _ _ => by omega, .inr (.inl (by omega))⟩

/-- A run length counts equal bytes from `i` on, and ends at 130, at the end of the input or at another byte
(41_compress.md R122). -/
theorem runLen_eq_ok {s : State} {i r : Nat} (h : runLen s i = .ok r) (hi : i < s.work.n) :
    ∃ b, s.src.read i = some b ∧ 1 ≤ r ∧ r ≤ 130 ∧ i + r ≤ s.work.n ∧
      (∀ j, j < r → s.src.read (i + j) = some b) ∧
      (r = 130 ∨ i + r = s.work.n ∨ ∃ c, s.src.read (i + r) = some c ∧ c ≠ b) := by
  simp only [runLen, bind_eq_ok, srcRead_eq_ok] at h
  obtain ⟨b, ⟨_, hb⟩, h⟩ := h
  obtain ⟨h1, h2, h3, h4, h5⟩ := runLenFrom_eq_ok h (by omega)
  refine ⟨b, hb, h1, by omega, h3, fun j hj => ?_, h5⟩
  by_cases hj0 : j = 0
  · simpa [hj0] using hb
  · exact h4 j (by omega) hj

/-- The three bytes at `j` exist and are equal, or not (41_compress.md R123). -/
theorem triple_eq_ok {s : State} {j : Nat} {v : Bool} (h : triple s j = .ok v) :
    v = true ↔ j + 2 < s.work.n ∧ ∃ b, s.src.read j = some b ∧ s.src.read (j + 1) = some b ∧
      s.src.read (j + 2) = some b := by
  unfold triple at h
  split at h
  · next hlt =>
    simp only [bind_eq_ok, srcRead_eq_ok] at h
    obtain ⟨a, ⟨_, ha⟩, b, ⟨_, hb⟩, h⟩ := h
    split at h
    · next hab =>
      simp only [bind_eq_ok, srcRead_eq_ok] at h
      obtain ⟨c, ⟨_, hc⟩, h⟩ := h
      cases h
      simp only [decide_eq_true_eq]
      constructor
      · intro hbc; exact ⟨hlt, b, by rw [ha, hab], hb, by rw [hc, hbc]⟩
      · rintro ⟨_, d, h1, h2, h3⟩
        rw [hb] at h2; rw [hc] at h3
        exact (Option.some.inj h2).trans (Option.some.inj h3).symm
    · next hab =>
      cases h
      simp only [Bool.false_eq_true, false_iff]
      rintro ⟨_, d, h1, h2, h3⟩
      rw [ha] at h1; rw [hb] at h2
      exact hab ((Option.some.inj h1).trans (Option.some.inj h2).symm)
  · next hlt =>
    cases h
    simp only [Bool.false_eq_true, false_iff]
    rintro ⟨h, _⟩
    exact hlt h

theorem litLenFrom_eq_ok {s : State} {i left len len' : Nat} (h : litLenFrom s i left len = .ok len')
    (hn : i + len ≤ s.work.n) :
    len ≤ len' ∧ len' ≤ len + left ∧ i + len' ≤ s.work.n ∧
      (∀ j, len ≤ j → j < len' → triple s (i + j) = .ok false) ∧
      (len' = len + left ∨ i + len' = s.work.n ∨ triple s (i + len') = .ok true) := by
  induction left generalizing len with
  | zero => cases h; exact ⟨le_refl _, by omega, hn, fun j _ _ => by omega, .inl rfl⟩
  | succ left ih =>
    simp only [litLenFrom] at h
    split at h
    · next hlt =>
      obtain ⟨stop, hstop, h⟩ := bind_eq_ok.1 h
      cases stop with
      | true => cases h; exact ⟨le_refl _, by omega, hn, fun j _ _ => by omega, .inr (.inr hstop)⟩
      | false =>
        obtain ⟨h1, h2, h3, h4, h5⟩ := ih h (by omega)
        refine ⟨by omega, by omega, h3, fun j hj hj' => ?_, ?_⟩
        · by_cases hjl : j = len
          · rw [hjl]; exact hstop
          · exact h4 j (by omega) hj'
        · rcases h5 with h5 | h5
          · exact .inl (by omega)
          · exact .inr h5
    · next hlt => cases h; exact ⟨le_refl _, by omega, hn, fun j _ _ => by omega, .inr (.inl (by omega))⟩

/-- A literal takes its first byte and then goes on to the cap, to the end of the input or to three equal bytes
(41_compress.md R123, R125). -/
theorem litLen_eq_ok {s : State} {i len : Nat} (h : litLen s i = .ok len) (hi : i < s.work.n) :
    1 ≤ len ∧ len ≤ 127 ∧ i + len ≤ s.work.n ∧
      (∀ j, 1 ≤ j → j < len → triple s (i + j) = .ok false) ∧
      (len = 127 ∨ i + len = s.work.n ∨ triple s (i + len) = .ok true) := by
  obtain ⟨h1, h2, h3, h4, h5⟩ := litLenFrom_eq_ok h (by omega)
  exact ⟨h1, by omega, h3, h4, h5⟩

/-- The next record is a run of at least 3 equal bytes, or a literal of the bytes up to where it stops
(41_compress.md R123). -/
theorem nextRecord_eq_ok {s : State} {record : Instr} {taken : Nat} (h : nextRecord s = .ok (record, taken)) :
    (∃ b, s.src.read s.work.i = some b ∧ runLen s s.work.i = .ok taken ∧ 3 ≤ taken ∧
      record = .run (BitVec.ofNat 7 (taken - 3)) b) ∨
    (∃ r bs, runLen s s.work.i = .ok r ∧ r < 3 ∧ litLen s s.work.i = .ok taken ∧
      s.src.readAll s.work.i taken = some bs ∧ record = .lit bs) := by
  simp only [nextRecord, bind_eq_ok, srcRead_eq_ok] at h
  obtain ⟨b, ⟨_, hb⟩, r, hr, h⟩ := h
  split at h
  · next h3 => cases h; exact .inl ⟨b, hb, hr, h3, rfl⟩
  · next h3 =>
    simp only [bind_eq_ok, srcReadAll_eq_ok] at h
    obtain ⟨len, hl, bs, ⟨hbs, _⟩, h⟩ := h
    cases h
    exact .inr ⟨r, bs, hr, by omega, hl, hbs, rfl⟩

end Sys2Proof.Machine
end

