-- ==== Sys2Proof/Laws/PerInstr.lean ====
section
/-! SUPPORT. Statements about every instruction as syntax, one lemma per constructor. -/

namespace Sys2Proof.Laws.EncodedLength

/-- A well-formed instruction's encoding is as long as the spec says: 2 bytes for RUN, 1 + K for LIT, 8 lanes for a CMD
word (30_encoding.md R72, R73, R78). -/
def Statement (i : Instr) : Prop := i.wf = true → (encode i).length = i.byteLength

theorem run (r : BitVec 7) (v : Byte) : Statement (.run r v) := fun _ => rfl
theorem lit (bs : List Byte) : Statement (.lit bs) := fun _ => by simp [encode, Instr.byteLength, Nat.add_comm]
theorem decompress : Statement .decompress := fun _ => rfl
theorem compress : Statement .compress := fun _ => rfl
theorem planarToRgb : Statement .planarToRgb := fun _ => rfl
theorem rgbToPlanar : Statement .rgbToPlanar := fun _ => rfl
theorem reservedLow (x : BitVec 2) : Statement (.reservedLow x) := fun _ => rfl
theorem reservedHigh (x : BitVec 3) : Statement (.reservedHigh x) := fun _ => rfl

end Sys2Proof.Laws.EncodedLength
end

