-- ==== Sys2Proof/Laws/Step.lean ====
section
/-! SUPPORT. What one step can do, said once: the core's turn is one core step, the host's turn is one transaction or
one whole command, and reset. -/

namespace Sys2Proof.Machine

theorem decompressing_iff {s : State} :
    s.decompressing = true ↔ s.busy = true ∧ s.work.phase = .body ∧ s.work.op = 0 := by
  simp [State.decompressing, and_assoc]

/-- In a DECOMPRESS's record loop a core step is a step of DECOMPRESS. -/
theorem coreStep_decompressing {s : State} (h : s.decompressing = true) : coreStep s = decompressStep s := by
  obtain ⟨hb, hp, ho⟩ := decompressing_iff.1 h
  simp [coreStep, hb, hp, bodyStep, ho]

/-- The core's turn is one core step, whether a record is performed through its instruction or not. -/
theorem coreTurn_eq (s : State) : coreTurn s = toOut (coreStep s) := by
  unfold coreTurn
  split
  · next hd =>
    split
    · next i hi =>
      rw [coreStep_decompressing hd, decompressStep, hi]
      have hk := fetchRecord_kind hi
      cases i <;> first | (cases hk; done) | simp [exec, execRun, execLit, hd]
    · rfl
  · rfl

/-- A record's instruction answers a next state only in a DECOMPRESS's record loop, and there it is the record. -/
theorem exec_run_eq_next {r : BitVec 7} {v : Byte} {s t : State} :
    exec (.run r v) s = .next t ↔ s.decompressing = true ∧ runRecord r v s = .ok t := by
  simp only [exec, execRun]
  cases s.decompressing <;> simp [toOut_eq_next]

theorem exec_lit_eq_next {bs : List Byte} {s t : State} :
    exec (.lit bs) s = .next t ↔ s.decompressing = true ∧ litRecord bs s = .ok t := by
  simp only [exec, execLit]
  cases s.decompressing <;> simp [toOut_eq_next]

/-- A command's instruction is its OP, issued. -/
theorem exec_command {i : Instr} {op : BitVec 4} (h : i.op? = some op) (s : State) : exec i s = issue op s := by
  cases i with
  | run r v => cases h
  | lit bs => cases h
  | decompress => cases h; rfl
  | compress => cases h; rfl
  | planarToRgb => cases h; rfl
  | rgbToPlanar => cases h; rfl
  | reservedLow x => cases h; rfl
  | reservedHigh x => cases h; rfl

/-- Every command has an OP, every record has none. -/
theorem op?_isSome_iff (i : Instr) : (∃ op, i.op? = some op) ↔ i.kind = .command := by
  cases i <;> simp [Instr.op?, Instr.kind]

/-- A word written to CMD is a command. -/
theorem decodeCommand_kind (w : Dword) : (decodeCommand w).kind = .command := by
  unfold decodeCommand
  split <;> first | rfl | (split <;> rfl)

/-- The host's turn: nothing, one transaction, or one whole command. -/
theorem hostTurn_cases (s : State) :
    (s.program = [] ∧ hostTurn s = .next s) ∨
    (∃ b rest, s.program = .bus b :: rest ∧ hostTurn s = .next (hostAccess b { s with program := rest })) ∨
    (∃ v rest op, s.program = .doCommand v :: rest ∧ (decodeCommand v).op? = some op ∧
      hostTurn s = issue op { s with program := .bus .wait :: rest }) := by
  unfold hostTurn
  split
  · next h => exact .inl ⟨h, rfl⟩
  · next b rest h => exact .inr (.inl ⟨b, rest, h, rfl⟩)
  · next v rest h =>
    obtain ⟨op, hop⟩ := (op?_isSome_iff _).2 (decodeCommand_kind v)
    exact .inr (.inr ⟨v, rest, op, h, hop, exec_command hop _⟩)

/-- One step is a turn of the core, of the host or of the platform. -/
theorem step_cases (s : State) :
    (∃ rest, s.schedule = .reset :: rest ∧ step s = .next (platformReset { s with schedule := rest })) ∨
    (∃ rest, s.schedule = .core :: rest ∧ step s = toOut (coreStep { s with schedule := rest })) ∨
    (s.schedule = [] ∧ s.busy = true ∧ step s = toOut (coreStep s)) ∨
    (∃ rest, s.schedule = .host :: rest ∧ step s = hostTurn { s with schedule := rest }) ∨
    (s.schedule = [] ∧ s.busy = false ∧ step s = hostTurn s) := by
  unfold step
  split
  · next rest h => exact .inr (.inr (.inr (.inl ⟨rest, h, rfl⟩)))
  · next rest h => exact .inr (.inl ⟨rest, h, coreTurn_eq _⟩)
  · next rest h => exact .inl ⟨rest, h, rfl⟩
  · next h =>
    cases hb : s.busy with
    | true => exact .inr (.inr (.inl ⟨h, rfl, by simp [coreTurn_eq]⟩))
    | false => exact .inr (.inr (.inr (.inr ⟨h, rfl, rfl⟩)))

end Sys2Proof.Machine
end

