-- ==== Sys2Proof/Tests/Slice0.lean ====
section
/-! SUPPORT. The model's own tests. Expected results are the spec's: the vectors V-... of 95_test_vectors.md and the tables
of its sections, each named in a test's comment. Then, for every statement with hypotheses, a concrete state and operands
that meet them. -/

namespace Sys2Proof.Machine.Tests

set_option maxRecDepth 20000

/-! ### Small states -/

/-- Idle, with dimensions and an input in SRC. -/
def ready (w h : Nat) (input : List Byte) : State :=
  { State.reset with
    width := BitVec.ofNat 16 w, height := BitVec.ofNat 16 h, srcLen := BitVec.ofNat 64 input.length
    src := Memory.writeAll [] 0 input }

/-- The same with other buffer sizes. -/
def sized (srcSize dstSize : Nat) (s : State) : State :=
  { s with srcSize := BitVec.ofNat 64 srcSize, dstSize := BitVec.ofNat 64 dstSize }

/-- A DECOMPRESS in its record loop. -/
def looping (w h : Nat) (input : List Byte) : State := dispatch (start 0 (ready w h input))

/-- The answer is a next state with a property. -/
def nextWith (o : Out) (f : State → Bool) : Bool :=
  match o with
  | .next t => f t
  | .fault _ => false
  | .refused _ => false

/-- STATUS, ERR_POS, and the result OUT_LEN says is in DST. -/
def shows (t : State) (status : Dword) (errPos : Nat) (result : List Byte) : Bool :=
  t.statusWord = status && t.errPos.toNat = errPos && t.outLen.toNat = result.length &&
    t.dst.readAll 0 result.length = some result

/-! ### Well-formedness: each check refuses an ill-formed term (30_encoding.md R89) -/

theorem test_wf_refuses_empty_literal : (Instr.lit []).wf = false := by decide

theorem test_wf_refuses_literal_of_129 : (Instr.lit (List.replicate 129 0)).wf = false := by decide

theorem test_wf_accepts_literal_of_128 : (Instr.lit (List.replicate 128 0)).wf = true := by decide

/-! ### Decoding: words written out from 30_encoding.md R72, R73, R79 -/

/-- `0_0000001` then the byte: cb = 1 is a run of 4 (R72). -/
theorem test_decode_run : decode .record [0b00000001, 0b10000000, 0xEE] = .ok (.run 1 0x80, [0xEE]) := by decide

/-- `1_1111110`: cb = 0xFE is a literal of 2 (R73, V-D3). -/
theorem test_decode_lit : decode .record [0b11111110, 0x0A, 0x14, 0xFF] = .ok (.lit [0x0A, 0x14], [0xFF]) := by decide

theorem test_decode_decompress : decode .command [0b11110000, 0xFF, 0, 0, 0, 0, 0, 0] = .ok (.decompress, []) := by
  decide

theorem test_decode_compress : decode .command [0b0001, 0, 0, 0, 0, 0, 0, 0] = .ok (.compress, []) := by decide

theorem test_decode_planarToRgb : decode .command [0b0010, 0, 0, 0, 0, 0, 0, 0] = .ok (.planarToRgb, []) := by decide

theorem test_decode_rgbToPlanar : decode .command [0b0011, 0, 0, 0, 0, 0, 0, 0] = .ok (.rgbToPlanar, []) := by decide

/-- OP 0b0111 = 4 + 3 (V-R2). -/
theorem test_decode_reservedLow : decode .command [0b0111, 0, 0, 0, 0, 0, 0, 0] = .ok (.reservedLow 3, []) := by decide

/-- OP 0b1010 = 8 + 2. -/
theorem test_decode_reservedHigh : decode .command [0b1010, 0, 0, 0, 0, 0, 0, 0] = .ok (.reservedHigh 2, []) := by
  decide

theorem test_decode_rejects_truncated : decode .record [0xFE, 0x01] = .error .truncatedRecord := by decide

theorem test_decode_rejects_empty : decode .record [] = .error .emptyStream := by decide

theorem test_decode_rejects_short_command : decode .command [0, 0, 0] = .error .shortCommand := by decide

theorem test_table_word_command : decodeTableWord 8 0x04 = some (.reservedLow 0) := by decide +kernel

theorem test_table_word_record : decodeTableWord 16 0x4100 = some (.run 0 0x41) := by decide +kernel

/-! ### Records -/

/-- V-D2: `00 41` appends three bytes and moves the cursor by 2. -/
theorem test_run_appends :
    nextWith (exec (.run 0 0x41) (looping 1 1 [0x00, 0x41]))
      (fun t => t.work.pc = 2 && t.work.p = 3 && t.dst = [(0, 0x41), (1, 0x41), (2, 0x41)]) = true := by decide

/-- V-D11: the fourth byte of `01 07` is beyond 3: noted at the record, not written. -/
theorem test_run_overruns :
    nextWith (exec (.run 1 0x07) (looping 1 1 [0x01, 0x07]))
      (fun t => t.work.overrun && t.work.overpos = 0 && t.work.p = 3 && t.dst.length = 3) = true := by decide

/-- 40_decompress.md R106: `FE 0A 14` appends two bytes and moves the cursor by 3. -/
theorem test_lit_appends :
    nextWith (exec (.lit [0x0A, 0x14]) (looping 1 1 [0xFE, 0x0A, 0x14, 0xFF, 0x1E]))
      (fun t => t.work.pc = 3 && t.dst = [(0, 0x0A), (1, 0x14)]) = true := by decide

/-- V-D9: a literal of 2 with one byte left fails with TRUNCATED_STREAM at its control byte. -/
theorem test_lit_truncated :
    nextWith (exec (.lit [0x01, 0x02]) (looping 1 1 [0xFE, 0x01])) (fun t => shows t 0x106 0 []) = true := by decide

/-! ### Commands -/

/-- V-D1. -/
theorem test_decompress_scenario :
    nextWith (exec .decompress (ready 2 1 [0xFA, 0x0A, 0x14, 0x1E, 0x28, 0x32, 0x3C]))
      (fun t => shows t 0x2 0 [0x0A, 0x14, 0x1E, 0x28, 0x32, 0x3C]) = true := by decide

/-- V-D12: truncation wins over the overrun before it. -/
theorem test_decompress_truncated_after_overrun :
    nextWith (exec .decompress (ready 1 1 [0x01, 0x07, 0x05])) (fun t => shows t 0x106 2 []) = true := by decide

/-- V-C13. -/
theorem test_compress_pairs_inside_literal :
    nextWith (exec .compress (ready 0 0 [0x01, 0x02, 0x02, 0x03, 0x03, 0x03]))
      (fun t => shows t 0x2 0 [0xFD, 0x01, 0x02, 0x02, 0x00, 0x03]) = true := by decide

/-- V-C4: a run of 130, and the rest is a literal. -/
theorem test_compress_131_equal :
    nextWith (exec .compress (ready 0 0 (List.replicate 131 0x41)))
      (fun t => shows t 0x2 0 [0x7F, 0x41, 0xFF, 0x41]) = true := by decide +kernel

/-- V-P1. -/
theorem test_planarToRgb_scenario :
    nextWith (exec .planarToRgb (ready 2 1 [0x0A, 0x14, 0x1E, 0x28, 0x32, 0x3C]))
      (fun t => shows t 0x2 0 [0x32, 0x1E, 0x0A, 0x3C, 0x28, 0x14]) = true := by decide

/-- V-P7: a wrong length. -/
theorem test_planarToRgb_wrong_length :
    nextWith (exec .planarToRgb (ready 1 1 [1, 2, 3, 4])) (fun t => shows t 0x406 0 []) = true := by decide

/-- V-P3: pure red. -/
theorem test_rgbToPlanar_pure_red :
    nextWith (exec .rgbToPlanar (ready 1 1 [0xFF, 0x00, 0x00])) (fun t => shows t 0x2 0 [0x00, 0x00, 0xFF]) = true := by
  decide

/-- V-P8: DST too small. -/
theorem test_rgbToPlanar_capacity :
    nextWith (exec .rgbToPlanar (sized 4 2 (ready 1 1 [1, 2, 3]))) (fun t => shows t 0x306 0 []) = true := by decide

/-- V-R2: OP 7. -/
theorem test_reservedLow_illegal :
    nextWith (exec (.reservedLow 3) State.reset) (fun t => shows t 0x506 0 [] && t.cmdOp = 7) = true := by decide

theorem test_reservedHigh_illegal :
    nextWith (exec (.reservedHigh 7) State.reset) (fun t => shows t 0x506 0 [] && t.cmdOp = 15) = true := by decide

/-- 70_reset_and_hazards.md R182: a command that reads a byte nothing wrote. -/
theorem test_compress_unwritten_input :
    exec .compress { State.reset with srcLen := 1 } = .fault (.srcByteUnwritten 0) := rfl

/-! ### The host and the step -/

/-- V-R3: the ignored bits; the command only starts in this step. -/
theorem test_cmd_write_starts :
    nextWith (step { State.reset with program := [hostWr .cmd 0xFFFFFFF0] })
      (fun t => t.statusWord = 1 && t.cmdOp = 0) = true := by decide

/-- V-R4. -/
theorem test_width_keeps_16_bits :
    readReg (hostAccess (.regWrite 0x10 64 0x12345) State.reset) .width = 0x2345 := by decide

/-- V-R6: from STATUS 0x206. -/
theorem test_clear_keeps_errPos :
    let t := hostAccess (.regWrite 0x08 64 2)
      { State.reset with done := true, err := true, ecode := 2, errPos := 9 }
    t.statusWord = 0 ∧ t.errPos = 9 := by decide

/-- V-R7: HEIGHT while a command runs. -/
theorem test_busy_write_ignored : hostAccess (.regWrite 0x18 64 9) (start 0 State.reset) = start 0 State.reset := by
  decide

/-- 95_test_vectors.md P1, step 5: at `pc = 0`, `FA` takes the LIT branch, writes DST 0 to 5, and `pc` is 7. -/
theorem test_core_turn_performs_record :
    nextWith (step (looping 2 1 [0xFA, 0x0A, 0x14, 0x1E, 0x28, 0x32, 0x3C]))
      (fun t => t.busy && t.work.pc = 7 && t.work.p = 6 &&
        t.dst.readAll 0 6 = some [0x0A, 0x14, 0x1E, 0x28, 0x32, 0x3C]) = true := by decide

/-- The placed words run in the very next step. -/
theorem test_fetch_word_command :
    nextWith (step (State.reset.withFetchWord 8 0x08)) (fun t => t.statusWord = 0x506 && t.cmdOp = 8) = true := by
  decide +kernel

theorem test_fetch_word_record :
    nextWith (step (State.reset.withFetchWord 8 0x80)) (fun t => t.busy && t.work.pc = 129 && t.work.overrun) = true := by
  decide +kernel

/-- V-H2. -/
theorem test_header :
    writeHeader { width := 0x1234, height := 0xABCD, bitsPerPixel := 24 } =
      [0x34, 0x12, 0xCD, 0xAB, 0x18, 0x00, 0x00, 0x00] := by decide

/-- 30_encoding.md R90: FILL 131. -/
theorem test_fill : asmFill 131 7 = [.run 127 7, .lit [7]] := by decide

/-! ### Witnesses: states and operands that meet the hypotheses of the statements -/

theorem witness_DecodeOfEncodeIsInstruction :
    (Instr.run 127 0xFF).wf = true ∧ (Instr.lit [0]).wf = true ∧ (Instr.lit (List.replicate 128 0)).wf = true ∧
      (Instr.reservedHigh 7).wf = true := by decide

theorem witness_EncodeOfDecodedRecordIsStream :
    decodeRecord [0x7F, 1, 2] = .ok (.run 127 1, [2]) ∧ decodeRecord [0xFF, 1, 2] = .ok (.lit [1], [2]) := by decide

/-- Each clause at its boundary: cb 0x7F with and without its byte, cb 0x80 with 127 and with 128 bytes. -/
theorem witness_ControlByteSelectsRecord :
    (0x7F : Byte).getLsbD 7 = false ∧ (0x80 : Byte).getLsbD 7 = true ∧
      (List.replicate 127 (0 : Byte)).length < 256 - (0x80 : Byte).toNat ∧
      256 - (0x80 : Byte).toNat ≤ (List.replicate 128 (0 : Byte)).length := by decide

/-- A value in every clause at the ends of its range, and two words that differ in ignored bits only. -/
theorem witness_CommandOpcodeMap :
    (0xFFFFFFFFFFFFFFF0 : Dword).toNat % 16 = 0 ∧ (1 : Dword).toNat % 16 = 1 ∧ (0x12 : Dword).toNat % 16 = 2 ∧
      (0xF3 : Dword).toNat % 16 = 3 ∧ (4 : Dword).toNat % 16 = 4 ∧ (7 : Dword).toNat % 16 = 7 ∧
      (8 : Dword).toNat % 16 = 8 ∧ (0xFF : Dword).toNat % 16 = 15 ∧
      (0xF3 : Dword).toNat % 16 = (0x03 : Dword).toNat % 16 := by decide

/-- The data byte is missing; a run that fits exactly; a run that overruns. -/
theorem witness_RunRecordAppendsCopies :
    (∃ s : State, s.decompressing = true ∧ s.work.exp ≤ s.dstSize.toNat ∧ s.work.n = s.work.pc + 1) ∧
    (∃ (s : State) (r : BitVec 7), s.decompressing = true ∧ s.work.exp ≤ s.dstSize.toNat ∧
      s.work.pc + 1 < s.work.n ∧ s.work.exp - s.work.p = r.toNat + 3) ∧
    (∃ (s : State) (r : BitVec 7), s.decompressing = true ∧ s.work.exp ≤ s.dstSize.toNat ∧
      s.work.pc + 1 < s.work.n ∧ s.work.exp - s.work.p < r.toNat + 3) :=
  ⟨⟨looping 1 1 [0x05], by decide⟩, ⟨looping 1 1 [0x00, 0x41], 0, by decide⟩,
    ⟨looping 1 1 [0x01, 0x07], 1, by decide⟩⟩

/-- One byte is missing; a literal that fits exactly; a literal that overruns. -/
theorem witness_LiteralRecordAppendsBytes :
    (∃ (s : State) (bs : List Byte), s.decompressing = true ∧ s.work.exp ≤ s.dstSize.toNat ∧
      s.work.n + 1 = s.work.pc + 1 + bs.length) ∧
    (∃ (s : State) (bs : List Byte), s.decompressing = true ∧ s.work.exp ≤ s.dstSize.toNat ∧
      s.work.pc + 1 + bs.length = s.work.n ∧ s.work.exp - s.work.p = bs.length) ∧
    (∃ (s : State) (bs : List Byte), s.decompressing = true ∧ s.work.exp ≤ s.dstSize.toNat ∧
      s.work.pc + 1 + bs.length = s.work.n ∧ s.work.exp - s.work.p < bs.length) :=
  ⟨⟨looping 1 1 [0xFE, 1], [1, 2], by decide⟩, ⟨looping 1 1 [0xFD, 1, 2, 3], [1, 2, 3], by decide⟩,
    ⟨looping 0 1 [0xFF, 1], [1], by decide⟩⟩

/-- A run without its byte (V-D8), and a literal of 2 with one byte left (V-D9). -/
theorem witness_TruncatedRecordEndsCommand :
    (∃ (s : State) (cb : Byte), s.decompressing = true ∧ s.schedule = [] ∧ s.work.pc < s.work.n ∧
      s.work.n ≤ s.srcSize.toNat ∧ s.src.read s.work.pc = some cb ∧ cb.toNat < 128 ∧
      s.work.n < s.work.pc + (if cb.toNat < 128 then 2 else 1 + (256 - cb.toNat))) ∧
    (∃ (s : State) (cb : Byte), s.decompressing = true ∧ s.schedule = [] ∧ s.work.pc < s.work.n ∧
      s.work.n ≤ s.srcSize.toNat ∧ s.src.read s.work.pc = some cb ∧ 128 ≤ cb.toNat ∧
      s.work.n < s.work.pc + (if cb.toNat < 128 then 2 else 1 + (256 - cb.toNat))) :=
  ⟨⟨looping 1 1 [0x05], 0x05, by decide⟩, ⟨looping 1 1 [0xFE, 0x01], 0xFE, by decide⟩⟩

theorem witness_RecordOutsideDecompressIsRefused :
    State.reset.decompressing = false ∧ (Instr.run 0 0).kind = .record ∧ (Instr.lit [0]).kind = .record := by decide

/-- V-D2. -/
theorem witness_DecompressDecodesWholeStream :
    ∃ (s : State) (records : List Instr),
      s.busy = false ∧ Claim.IsStream records ∧ s.src.readAll 0 s.srcLen.toNat = some (assemble records) ∧
      s.srcLen.toNat ≤ s.srcSize.toNat ∧ (outputOf records).length = 3 * s.width.toNat * s.height.toNat ∧
      3 * s.width.toNat * s.height.toNat ≤ s.dstSize.toNat :=
  ⟨sized 2 3 (ready 1 1 [0x00, 0x41]), [.run 0 0x41], by unfold Claim.IsStream; decide⟩

/-- V-D10: a literal of 3 with two bytes left, after a whole record. -/
theorem witness_DecompressTruncatedStreamFails :
    ∃ (s : State) (records : List Instr) (tail : List Byte),
      s.busy = false ∧ Claim.IsStream records ∧ Claim.IsTruncated tail ∧
      s.src.readAll 0 s.srcLen.toNat = some (assemble records ++ tail) ∧
      s.srcLen.toNat ≤ s.srcSize.toNat ∧ 3 * s.width.toNat * s.height.toNat ≤ s.dstSize.toNat :=
  ⟨ready 1 2 [0x00, 0x07, 0xFD, 0x01, 0x02], [.run 0 0x07], [0xFD, 0x01, 0x02], rfl,
    by unfold Claim.IsStream; decide, ⟨0xFD, [0x01, 0x02], rfl, by decide⟩, by decide⟩

/-- V-D13. -/
theorem witness_DecompressTooFewBytesFails :
    ∃ (s : State) (records : List Instr),
      s.busy = false ∧ Claim.IsStream records ∧ s.src.readAll 0 s.srcLen.toNat = some (assemble records) ∧
      s.srcLen.toNat ≤ s.srcSize.toNat ∧ (outputOf records).length < 3 * s.width.toNat * s.height.toNat ∧
      3 * s.width.toNat * s.height.toNat ≤ s.dstSize.toNat :=
  ⟨ready 1 2 [0x00, 0x07], [.run 0 0x07], by unfold Claim.IsStream; decide⟩

/-- A full stream, then one byte too many. -/
theorem witness_DecompressTooManyBytesFails :
    ∃ (s : State) (before : List Instr) (i : Instr) (after : List Instr),
      s.busy = false ∧ Claim.IsStream (before ++ i :: after) ∧
      s.src.readAll 0 s.srcLen.toNat = some (assemble (before ++ i :: after)) ∧
      s.srcLen.toNat ≤ s.srcSize.toNat ∧ (outputOf before).length ≤ 3 * s.width.toNat * s.height.toNat ∧
      3 * s.width.toNat * s.height.toNat < (outputOf before).length + i.output.length ∧
      3 * s.width.toNat * s.height.toNat ≤ s.dstSize.toNat :=
  ⟨ready 1 1 [0x00, 0x07, 0xFF, 0x08], [.run 0 0x07], .lit [0x08], [], by unfold Claim.IsStream; decide⟩

theorem witness_CompressEmitsGreedyStream :
    ∃ (s : State) (x : List Byte), s.busy = false ∧ s.src.readAll 0 s.srcLen.toNat = some x ∧
      s.srcLen.toNat ≤ s.srcSize.toNat ∧ x.length + (x.length + 126) / 127 ≤ s.dstSize.toNat :=
  ⟨sized 2 3 (ready 0 0 [5, 5]), [5, 5], by decide⟩

theorem witness_CompressedStreamDecodesToInput :
    ∃ (s t : State) (x : List Byte), s.busy = false ∧ s.src.readAll 0 s.srcLen.toNat = some x ∧
      exec .compress s = .next t ∧ t.err = false :=
  ⟨ready 0 0 [5, 5], finish 3 { start 1 (ready 0 0 [5, 5]) with dst := [(0, 0xFE), (1, 5), (2, 5)] }, [5, 5],
    by decide, by decide, rfl, by decide⟩

/-- One byte takes two, the bound (41_compress.md R124). -/
theorem witness_CompressOutputBound :
    ∃ (s t : State), s.busy = false ∧ 0 < s.srcLen.toNat ∧ exec .compress s = .next t ∧ t.err = false ∧
      t.outLen.toNat = s.srcLen.toNat + (s.srcLen.toNat + 126) / 127 :=
  ⟨ready 0 0 [9], finish 2 { start 1 (ready 0 0 [9]) with dst := [(0, 0xFF), (1, 9)] },
    by decide, by decide, rfl, by decide⟩

/-- The last hypothesis too: `FD 01 02 03` is four bytes and SRC holds four. -/
theorem witness_CompressThenDecompressIsIdentity :
    ∃ (s t : State) (x : List Byte), s.busy = false ∧ s.src.readAll 0 s.srcLen.toNat = some x ∧
      x.length = 3 * s.width.toNat * s.height.toNat ∧ x.length ≤ s.srcSize.toNat ∧
      x.length + (x.length + 126) / 127 ≤ s.dstSize.toNat ∧
      exec .compress s = .next t ∧ t.outLen.toNat ≤ t.srcSize.toNat :=
  ⟨sized 4 4 (ready 1 1 [1, 2, 3]),
    finish 4 { start 1 (sized 4 4 (ready 1 1 [1, 2, 3])) with dst := [(0, 0xFD), (1, 1), (2, 2), (3, 3)] }, [1, 2, 3],
    by decide, by decide, by decide, by decide, by decide, rfl, by decide⟩

/-- Both converters' hypotheses (V-P1, V-P2), and their empty image (V-P6). -/
theorem witness_PlanarToRgbInterleavesPlanes_RgbToPlanarSplitsPixels :
    (∃ s : State, s.busy = false ∧ s.InputDefined ∧ s.srcLen.toNat = 3 * (s.width.toNat * s.height.toNat) ∧
      s.srcLen.toNat ≤ s.srcSize.toNat ∧ 3 * (s.width.toNat * s.height.toNat) ≤ s.dstSize.toNat ∧
      0 < s.width.toNat * s.height.toNat) ∧
    (∃ s : State, s.busy = false ∧ s.InputDefined ∧ s.srcLen.toNat = 3 * (s.width.toNat * s.height.toNat) ∧
      s.srcLen.toNat ≤ s.srcSize.toNat ∧ 3 * (s.width.toNat * s.height.toNat) ≤ s.dstSize.toNat) :=
  ⟨⟨sized 6 6 (ready 2 1 [1, 2, 3, 4, 5, 6]), by unfold State.InputDefined; decide⟩,
    ⟨ready 0 7 [], by unfold State.InputDefined; decide⟩⟩

theorem witness_ConvertersAreInverse :
    ∃ (s : State) (x : List Byte), s.busy = false ∧ s.src.readAll 0 s.srcLen.toNat = some x ∧
      x.length = 3 * s.width.toNat * s.height.toNat ∧ x.length ≤ s.srcSize.toNat ∧ x.length ≤ s.dstSize.toNat :=
  ⟨sized 3 3 (ready 1 1 [1, 2, 3]), [1, 2, 3], by decide⟩

/-- One pixel in SRC. -/
def onePixel : State := sized 4 4 (ready 1 1 [1, 2, 3])

/-- Its planes in DST (V-P3 gives the order). -/
def onePixelPlanar : State := finish 3 { start 3 onePixel with dst := [(0, 3), (1, 2), (2, 1)] }

/-- Their stream in DST: one literal of three bytes. -/
def onePixelStream : State :=
  finish 4 { start 1 (Claim.chained onePixelPlanar) with dst := [(0, 0xFD), (1, 3), (2, 2), (3, 1)] }

/-- The last hypothesis too: the stream is four bytes and SRC holds four. -/
theorem witness_ImageRoundTrip :
    onePixel.busy = false ∧ onePixel.src.readAll 0 onePixel.srcLen.toNat = some [1, 2, 3] ∧
      3 = 3 * onePixel.width.toNat * onePixel.height.toNat ∧ 3 ≤ onePixel.srcSize.toNat ∧
      3 + (3 + 126) / 127 ≤ onePixel.dstSize.toNat ∧
      exec .rgbToPlanar onePixel = .next onePixelPlanar ∧
      exec .compress (Claim.chained onePixelPlanar) = .next onePixelStream ∧
      onePixelStream.outLen.toNat ≤ onePixelStream.srcSize.toNat :=
  ⟨by decide, by decide, by decide, by decide, by decide, rfl, by exact rfl, by decide⟩

theorem witness_ReservedOpIsIllegal_IdleMachineStays :
    State.reset.busy = false ∧ State.reset.schedule = [] ∧ State.reset.program = [] := by decide

/-- The hypotheses of PrecheckErrorsInPriorityOrder. -/
def failsPrecheck (s : State) (i : Instr) (op code : BitVec 4) : Bool :=
  s.busy = false && i.op? = some op &&
    Claim.precheckError op.toNat s.width.toNat s.height.toNat s.srcLen.toNat s.srcSize.toNat s.dstSize.toNat = some code

/-- An error of each kind at its boundary: OP 4; SRC_LEN one above SRC_SIZE (V-D18); a converter's SRC_LEN one above 3wh
(V-P7); COMPRESS and a converter one byte short of what they need (V-C17, V-P8). -/
theorem witness_PrecheckErrorsInPriorityOrder :
    failsPrecheck State.reset (.reservedLow 0) 4 5 = true ∧
      failsPrecheck (sized 4 9 (ready 1 1 [1, 2, 3, 4, 5])) .decompress 0 4 = true ∧
      failsPrecheck (ready 1 1 [1, 2, 3, 4]) .planarToRgb 2 4 = true ∧
      failsPrecheck (sized 6 6 (ready 0 0 [0x0A, 0x14, 0x1E, 0x28, 0x32, 0x3C])) .compress 1 3 = true ∧
      failsPrecheck (sized 3 2 (ready 1 1 [1, 2, 3])) .rgbToPlanar 3 3 = true := by decide

theorem witness_CommandWhileBusyIsIgnored_HostCannotDisturbRunningCommand :
    Instr.compress.kind = .command ∧ (start 0 State.reset).busy = true := by decide

theorem witness_CommandFrame :
    ∃ (s t : State) (i : Instr) (op : BitVec 4), s.busy = false ∧ i.op? = some op ∧ exec i s = .next t :=
  ⟨ready 0 0 [], finish 0 (start 0 (ready 0 0 [])), .decompress, 0, by decide, rfl, rfl⟩

theorem witness_CommandOnDefinedInputCompletes :
    ∃ (s : State) (i : Instr), s.busy = false ∧ i.kind = .command ∧ s.InputDefined :=
  ⟨ready 1 1 [1, 2, 3], .compress, by unfold State.InputDefined; decide⟩

/-- Two states that differ in DST, in SRC beyond the input and in STATUS. -/
theorem witness_CommandResultDependsOnInputsAlone :
    ∃ (s s' t : State) (i : Instr), i.kind = .command ∧ s.busy = false ∧ s'.busy = false ∧ s'.width = s.width ∧
      s'.height = s.height ∧ s'.srcLen = s.srcLen ∧ s'.srcSize = s.srcSize ∧ s'.dstSize = s.dstSize ∧
      (∀ a, a < s.srcLen.toNat → s'.src.read a = s.src.read a) ∧ exec i s = .next t ∧ s' ≠ s :=
  ⟨ready 1 1 [1, 2, 3],
    { ready 1 1 [1, 2, 3] with src := [(0, 1), (1, 2), (2, 3), (3, 4)], dst := [(0, 9)], done := true },
    finish 3 { start 3 (ready 1 1 [1, 2, 3]) with dst := [(0, 3), (1, 2), (2, 1)] }, .rgbToPlanar,
    by decide, by decide, by decide, by decide, by decide, by decide, by decide, by decide, by decide, rfl, by decide⟩

theorem witness_CmdWriteStartsCommand :
    ∃ (s : State) (v : Dword) (rest : List HostOp), s.busy = false ∧ s.schedule = [] ∧
      s.program = .bus (.regWrite 0x00 64 v) :: rest :=
  ⟨{ State.reset with program := [hostWr .cmd 3, .bus .wait] }, 3, [.bus .wait], rfl, rfl, rfl⟩

theorem witness_WholeCommandIsItsCoreSteps :
    ∃ (s t : State) (i : Instr) (op : BitVec 4),
      s.busy = false ∧ s.schedule = [] ∧ i.op? = some op ∧ exec i s = .next t :=
  ⟨ready 1 1 [1, 2, 3], finish 3 { start 2 (ready 1 1 [1, 2, 3]) with dst := [(0, 3), (1, 2), (2, 1)] }, .planarToRgb, 2,
    by decide, by decide, rfl, rfl⟩

/-- A state in DECOMPRESS's record loop meets the invariant. -/
theorem witness_looping_inv : (looping 1 1 [0x00, 0x41]).Inv where
  srcWf := by decide
  dstWf := by decide
  srcFits := by unfold Memory.fits; decide
  dstFits := by unfold Memory.fits; decide
  status := ⟨by decide, by decide, by decide, by decide⟩
  idle := by decide
  latched := by decide
  started := by decide
  body := fun _ _ => ⟨by decide, by decide, by decide, ⟨by decide, by decide, by decide⟩⟩

/-- An idle state with an input meets the invariant. -/
theorem witness_ready_inv : (ready 1 1 [1, 2, 3]).Inv where
  srcWf := by decide
  dstWf := by decide
  srcFits := by unfold Memory.fits; decide
  dstFits := by unfold Memory.fits; decide
  status := ⟨by decide, by decide, by decide, by decide⟩
  idle := by decide
  latched := by decide
  started := by decide
  body := fun h => by cases h

theorem witness_RunningCommandEnds_StepIsSafe :
    ∃ s : State, s.Inv ∧ s.busy = true ∧ s.schedule = [] :=
  ⟨_, witness_looping_inv, by decide, by decide⟩

theorem witness_StepKeepsInvariant_CoreTurnLeavesOperandsAlone_BufferSizeRegistersAreConstant :
    ∃ s t : State, s.Inv ∧ step s = .next t ∧ s.schedule = [] ∧ s.busy = true :=
  ⟨looping 1 1 [0x00, 0x41],
    { looping 1 1 [0x00, 0x41] with
      dst := [(0, 0x41), (1, 0x41), (2, 0x41)]
      work := { (looping 1 1 [0x00, 0x41]).work with pc := 2, p := 3 } },
    witness_looping_inv, rfl, by decide⟩

/-- A start, a completion, and a reset of a running command. -/
theorem witness_BusyChangesOnlyByStartCompletionReset_ResetAbortsAndClears :
    (∃ s t : State, step s = .next t ∧ s.busy = false ∧ t.busy = true) ∧
    (∃ s t : State, step s = .next t ∧ s.busy = true ∧ t.busy = false ∧ s.schedule = []) ∧
    (∃ s t : State, step s = .next t ∧ s.busy = true ∧ t.busy = false ∧ s.schedule = [.reset]) :=
  ⟨⟨{ State.reset with program := [hostWr .cmd 1] }, start 1 State.reset, rfl, by decide⟩,
    ⟨start 9 State.reset, raiseError .illegalOp 0 (start 9 State.reset), rfl, by decide⟩,
    ⟨{ start 0 State.reset with schedule := [.reset] }, { State.reset with resets := 1 }, rfl, by decide⟩⟩

theorem witness_OnlyCmdWriteStartsCommand :
    State.reset.busy = false ∧ (∀ v, BusOp.regWrite 0x08 64 2 ≠ .regWrite 0x00 64 v) ∧
      (2 : Dword).getLsbD 1 = true := ⟨rfl, fun v h => by simp at h, by decide⟩

theorem witness_OperandRegisterAccess_StatusWriteOneClears :
    State.reset.busy = false ∧ (2 : Dword).getLsbD 1 = true ∧ (5 : Dword).getLsbD 1 = false := by decide

theorem witness_ReservedOffsetsReadZero :
    0x48 ≤ (0x48 : BitVec 7).toNat ∧ (0x48 : BitVec 7).toNat % 8 = 0 ∧ (0x78 : BitVec 7).toNat % 8 = 0 := by decide

theorem witness_ReadOnlyRegistersIgnoreWrites : 0x28 ≤ (0x28 : BitVec 7).toNat ∧ 0x28 ≤ (0x78 : BitVec 7).toNat := by
  decide

theorem witness_UnsupportedRegisterAccess : (32 : Nat) ≠ 64 ∧ (0x7F : BitVec 7).toNat % 8 ≠ 0 := by decide

/-- The last byte of each buffer, listed. -/
theorem witness_IdleBufferAccess :
    ∃ (s : State) (a : Nat) (b : Byte), s.busy = false ∧ a < s.srcSize.toNat ∧ s.src.read a = some b ∧
      a < s.dstSize.toNat ∧ s.dst.read a = some b :=
  ⟨{ sized 3 3 (ready 1 1 [1, 2, 3]) with dst := [(2, 3)] }, 2, 3, by decide⟩

theorem witness_BusyBufferAccess : (start 0 State.reset).busy = true := rfl

/-- Each clause at the size itself, idle and while BUSY = 1. -/
theorem witness_OutOfRangeBufferAccess :
    (∃ s : State, s.busy = false ∧ s.srcSize.toNat ≤ 3 ∧ s.dstSize.toNat ≤ 4) ∧
    (∃ s : State, s.busy = true ∧ s.srcSize.toNat ≤ 3 ∧ s.dstSize.toNat ≤ 4) :=
  ⟨⟨sized 3 4 State.reset, by decide⟩, ⟨start 0 (sized 3 4 State.reset), by decide⟩⟩

/-- Both clauses: the core moves by itself, and by its turn in the schedule. -/
theorem witness_StepRunsRecordAtCursor :
    ∃ (s : State) (i : Instr), s.decompressing = true ∧ i.kind = .record ∧ i.wf = true ∧
      s.work.pc + i.byteLength ≤ s.work.n ∧ s.work.n ≤ s.srcSize.toNat ∧
      s.src.readAll s.work.pc i.byteLength = some (encode i) ∧ s.schedule = [] ∧
      ({ s with schedule := [.core] } : State).schedule = .core :: [] :=
  ⟨looping 1 1 [0x00, 0x41], .run 0 0x41, by decide⟩

theorem witness_StepRunsIssuedCommand :
    ∃ (s : State) (i : Instr) (rest : List HostOp), i.kind = .command ∧
      s.program = .doCommand (ofLanes (encode i)) :: rest ∧ s.schedule = [] ∧ s.busy = false ∧
      ({ s with schedule := [.host] } : State).schedule = .host :: [] :=
  ⟨{ State.reset with program := [.doCommand 3] }, .rgbToPlanar, [], by decide⟩

theorem witness_HeaderRoundTrip : (List.replicate 7 (0 : Byte)).length < 8 := by decide

theorem witness_FillAndDataDecodeToTheirBytes : 1 ≤ (1 : Nat) ∧ 1 ≤ [(0 : Byte)].length := by decide

end Sys2Proof.Machine.Tests
end

section
/-! PROOFS. A buffer edited below a length: what the core's writes, and the forgetting after a failed DECOMPRESS, can do
to DST, said once. -/

namespace Sys2Proof.Machine

/-- `m'` comes from `m` by writes below `len` and by leaving what lies below `len` without a value. -/
inductive Memory.EditedBelow (len : Nat) (m : Memory) : Memory → Prop where
  | refl : EditedBelow len m m
  | write {m' : Memory} {a : Nat} (v : Byte) (h : EditedBelow len m m') (ha : a < len) :
      EditedBelow len m (Memory.write m' a v)
  | forget {m' : Memory} {l : Nat} (h : EditedBelow len m m') (hl : l ≤ len) :
      EditedBelow len m (Memory.forget m' l)

theorem Memory.EditedBelow.writeAll {len a : Nat} {m m' : Memory} {vs : List Byte}
    (h : Memory.EditedBelow len m m') (ha : a + vs.length ≤ len) :
    Memory.EditedBelow len m (Memory.writeAll m' a vs) := by
  induction vs generalizing m' a with
  | nil => exact h
  | cons v vs ih =>
    rw [List.length_cons] at ha
    exact ih (h.write v (by omega)) (by omega)

theorem Memory.EditedBelow.wf {len : Nat} {m m' : Memory} (h : Memory.EditedBelow len m m') (hm : m.wf) :
    Memory.wf m' := by
  induction h with
  | refl => exact hm
  | write v _ _ ih => exact Memory.wf_write ih _ v
  | forget _ _ ih => exact Memory.wf_forget ih _

/-- What lies from `len` on reads as before. -/
theorem Memory.EditedBelow.sameFrom {len : Nat} {m m' : Memory} (h : Memory.EditedBelow len m m') :
    Claim.SameFrom len m m' := by
  intro b hb
  induction h with
  | refl => rfl
  | write v _ ha ih => rw [Memory.read_write_ne _ _ (by omega), ih]
  | forget _ hl ih => rw [Memory.read_forget, if_pos (by omega), ih]

theorem Memory.fits_nil (size : Nat) : Memory.fits [] size := by simp [Memory.fits]

theorem Memory.fits_write {m : Memory} {size a : Nat} (h : Memory.fits m size) (ha : a < size) (v : Byte) :
    Memory.fits (Memory.write m a v) size := by
  intro c hc
  rcases Memory.mem_write hc with rfl | hc
  · exact ha
  · exact h c hc

theorem Memory.fits_forget {m : Memory} {size : Nat} (h : Memory.fits m size) (len : Nat) :
    Memory.fits (Memory.forget m len) size := fun c hc => h c (List.mem_of_mem_filter hc)

/-- Edits inside a buffer stay inside it. -/
theorem Memory.EditedBelow.fits {len size : Nat} {m m' : Memory} (h : Memory.EditedBelow len m m')
    (hm : Memory.fits m size) (hl : len ≤ size) : Memory.fits m' size := by
  induction h with
  | refl => exact hm
  | write v _ ha ih => exact Memory.fits_write ih (by omega) v
  | forget _ _ ih => exact Memory.fits_forget ih _

end Sys2Proof.Machine
end

section
/-! PROOFS. What a core step of a legally running command answers: a completion, or the command goes on legally. -/

namespace Sys2Proof.Machine

/-! ### A legally running command -/

/-- The clauses of the machine's invariant that speak of a running command alone. They hold at the start of every
command, whatever the buffers hold. -/
structure State.RunLegal (s : State) : Prop where
  latched : s.busy = true → s.work.op = s.cmdOp ∧ s.work.w = s.width.toNat ∧ s.work.h = s.height.toNat ∧
      s.work.n = s.srcLen.toNat
  started : s.busy = true → s.work.phase = .precheck → s.work = s.latched s.cmdOp
  body    : s.busy = true → s.work.phase = .body → s.BodyLegal

theorem State.Inv.runLegal {s : State} (h : s.Inv) : s.RunLegal := ⟨h.latched, h.started, h.body⟩

theorem runLegal_of_idle {s : State} (h : s.busy = false) : s.RunLegal := by constructor <;> simp [h]

theorem runLegal_start (op : BitVec 4) (s : State) : (start op s).RunLegal where
  latched _ := ⟨rfl, rfl, rfl, rfl⟩
  started _ _ := rfl
  body _ h := by cases h

/-- The required DST length of the running command (60_exceptions.md R154). -/
def State.required (s : State) : Nat := requiredLength s.work.op s.work.w s.work.h s.work.n

/-- How many records or pixels the body has left at most. -/
def State.bodyLeft (s : State) : Nat :=
  match s.work.op.toNat with
  | 0 => s.work.n - s.work.pc
  | 1 => s.work.n - s.work.i
  | _ => s.work.w * s.work.h - s.work.k

/-- How many core steps the running command has left at most (log entry 26). -/
def State.stepsLeft (s : State) : Nat :=
  if s.busy then
    match s.work.phase with
    | .precheck => s.work.n + 2
    | .body => s.bodyLeft + 1
  else 0

theorem stepsLeft_idle {s : State} (h : s.busy = false) : s.stepsLeft = 0 := by simp [State.stepsLeft, h]

theorem stepsLeft_precheck {s : State} (hb : s.busy = true) (hp : s.work.phase = .precheck) :
    s.stepsLeft = s.work.n + 2 := by simp [State.stepsLeft, hb, hp]

theorem stepsLeft_body {s : State} (hb : s.busy = true) (hp : s.work.phase = .body) :
    s.stepsLeft = s.bodyLeft + 1 := by simp [State.stepsLeft, hb, hp]

/-- The command of `s` goes on in `t`: only DST, below the required length, and the working registers change, the operands
stay latched, the body is legal, and fewer steps are left. -/
structure Continues (s t : State) : Prop where
  frame    : t = { s with dst := t.dst, work := t.work }
  op       : t.work.op = s.work.op
  w        : t.work.w = s.work.w
  h        : t.work.h = s.work.h
  n        : t.work.n = s.work.n
  phase    : t.work.phase = .body
  legal    : t.BodyLegal
  edited   : Memory.EditedBelow s.required s.dst t.dst
  progress : t.stepsLeft < s.stepsLeft

/-- A core step of a running command completes it, with or without an error, or the command goes on. Only an error of
DECOMPRESS's body, past the prechecks, leaves DST bytes without a value (60_exceptions.md R159). -/
inductive CoreAnswer (s : State) : State → Prop where
  | finished (len : Nat) : CoreAnswer s (finish len s)
  | raised (e : CodecError) (pos : Nat) (h : e.spoilsDst = true → s.BodyLegal ∧ s.work.op = 0) :
      CoreAnswer s (raiseError e pos s)
  | continued {t : State} (h : Continues s t) : CoreAnswer s t

/-! ### The lengths -/

theorem State.BodyLegal.required_le {s : State} (h : s.BodyLegal) : s.required ≤ s.dstSize.toNat := h.capacity

theorem required_compress {s : State} (h : s.work.op = 1) : s.required = compressBound s.work.n :=
  if_pos h

theorem required_of_ne_compress {s : State} (h : s.work.op ≠ 1) :
    s.required = expectedLength s.work.w s.work.h := if_neg h

/-- Outside COMPRESS the body's expected length is the required one. -/
theorem State.BodyLegal.exp_eq_required {s : State} (hl : s.BodyLegal) (h : s.work.op ≠ 1) :
    s.work.exp = s.required := by rw [hl.expected, if_neg h, required_of_ne_compress h]

theorem expectedLength_eq (w h : Nat) : expectedLength w h = 3 * (w * h) := Nat.mul_assoc 3 w h

theorem compressBound_eq (n : Nat) : compressBound n = n + (n + 126) / 127 := by
  simp [compressBound, ceilDiv]

/-! ### The working registers' ranges, command by command -/

theorem bodyRanges_decompress {s : State} (h : s.work.op = 0) :
    s.BodyRanges ↔ s.work.pc ≤ s.work.n ∧ s.work.p ≤ s.work.exp ∧
      (s.work.overrun = true → s.work.p = s.work.exp ∧ s.work.overpos < s.work.n) := by
  simp [State.BodyRanges, h]

theorem bodyRanges_compress {s : State} (h : s.work.op = 1) :
    s.BodyRanges ↔ s.work.i ≤ s.work.n ∧ s.work.o ≤ s.compressRoom := by simp [State.BodyRanges, h]

theorem bodyRanges_convert {s : State} (h : s.work.op = 2 ∨ s.work.op = 3) :
    s.BodyRanges ↔ s.work.n = s.work.exp ∧ s.work.k ≤ s.work.w * s.work.h := by
  rcases h with h | h <;> simp [State.BodyRanges, h]

theorem bodyLeft_decompress {s : State} (h : s.work.op = 0) : s.bodyLeft = s.work.n - s.work.pc := by
  simp [State.bodyLeft, h]

theorem bodyLeft_compress {s : State} (h : s.work.op = 1) : s.bodyLeft = s.work.n - s.work.i := by
  simp [State.bodyLeft, h]

theorem bodyLeft_convert {s : State} (h : s.work.op = 2 ∨ s.work.op = 3) :
    s.bodyLeft = s.work.w * s.work.h - s.work.k := by
  rcases h with h | h <;> simp [State.bodyLeft, h]

/-- The OP of a running body is one of the four commands. -/
theorem op_cases {op : BitVec 4} (h : op.toNat < 4) : op = 0 ∨ op = 1 ∨ op = 2 ∨ op = 3 := by
  revert op; decide

/-- A body step that keeps the operands and `exp`, edits DST below the required length, and leaves its working registers
in range with less to do, goes on. -/
theorem continues_of_body {s : State} {d : Memory} {wk : Work} (hb : s.busy = true) (hp : s.work.phase = .body)
    (hl : s.BodyLegal)
    (hkeep : wk.op = s.work.op ∧ wk.w = s.work.w ∧ wk.h = s.work.h ∧ wk.n = s.work.n ∧ wk.exp = s.work.exp ∧
      wk.phase = s.work.phase)
    (hranges : State.BodyRanges { s with dst := d, work := wk })
    (hd : Memory.EditedBelow s.required s.dst d)
    (hless : State.bodyLeft { s with dst := d, work := wk } < s.bodyLeft) :
    Continues s { s with dst := d, work := wk } := by
  obtain ⟨hop, hw, hh, hn, hexp, hphase⟩ := hkeep
  have hphase' : wk.phase = .body := hphase.trans hp
  refine ⟨rfl, hop, hw, hh, hn, hphase', ⟨?_, ?_, ?_, hranges⟩, hd, ?_⟩
  · exact hn ▸ hl.length
  · simpa only [hop, hw, hh, hn] using hl.capacity
  · simpa only [hop, hw, hh, hexp] using hl.expected
  · rw [stepsLeft_body hb hp, stepsLeft_body (by exact hb) (by exact hphase')]
    omega

/-! ### The prechecks -/

/-- Before the body begins its working registers are in range, and it has at most a step for each input byte left. -/
theorem dispatch_ranges {s : State} (hop : s.work.op.toNat < 4)
    (hconv : (s.work.op = 2 ∨ s.work.op = 3) → s.work.n = expectedLength s.work.w s.work.h) :
    (dispatch s).BodyRanges ∧ (dispatch s).bodyLeft ≤ s.work.n := by
  have hop' : (dispatch s).work.op = s.work.op := rfl
  rcases op_cases hop with h | h | h
  · rw [bodyRanges_decompress (hop'.trans h), bodyLeft_decompress (hop'.trans h)]
    simp [dispatch]
  · rw [bodyRanges_compress (hop'.trans h), bodyLeft_compress (hop'.trans h)]
    simp [dispatch]
  · have hn := hconv h
    have h1 : s.work.op ≠ 1 := by rcases h with h | h <;> simp [h]
    rw [bodyRanges_convert (s := dispatch s) h, bodyLeft_convert (s := dispatch s) h]
    refine ⟨⟨hn.trans (if_neg h1).symm, by simp [dispatch]⟩, ?_⟩
    rw [hn, expectedLength_eq]
    simp [dispatch]
    omega

theorem coreAnswer_precheck {s : State} (hb : s.busy = true) (hp : s.work.phase = .precheck) :
    CoreAnswer s (precheck s) := by
  obtain ⟨_, h⟩ | ⟨_, _, h⟩ | ⟨_, _, _, _, h⟩ | ⟨hop, hn, hconv, hcap, h⟩ := precheck_cases s <;> rw [h]
  · exact .raised _ _ nofun
  · exact .raised _ _ nofun
  · exact .raised _ _ nofun
  · obtain ⟨hranges, hleft⟩ := dispatch_ranges hop hconv
    refine .continued ⟨rfl, rfl, rfl, rfl, rfl, rfl, ⟨hn, hcap, rfl, hranges⟩, .refl, ?_⟩
    rw [stepsLeft_body (s := dispatch s) hb rfl, stepsLeft_precheck hb hp]
    omega

/-! ### DECOMPRESS -/

theorem coreAnswer_performRecord {s t : State} {len : Nat} {out : List Byte} (hb : s.busy = true)
    (hp : s.work.phase = .body) (hl : s.BodyLegal) (hop : s.work.op = 0) (hlen : 1 ≤ len)
    (h : performRecord len out s = .ok t) : CoreAnswer s t := by
  obtain ⟨hfit, _, rfl⟩ | ⟨_, rfl⟩ := performRecord_eq_ok.1 h
  · obtain ⟨_, hpexp, hover⟩ := (bodyRanges_decompress hop).1 hl.ranges
    have hexp := hl.exp_eq_required (by simp [hop])
    refine .continued (continues_of_body hb hp hl ⟨rfl, rfl, rfl, rfl, rfl, rfl⟩ ?_ ?_ ?_)
    · rw [bodyRanges_decompress (by exact hop)]
      refine ⟨hfit, ?_, fun hover' => ?_⟩
      · simp only [emitted]; omega
      · simp only [emitted, Bool.or_eq_true, decide_eq_true_eq] at hover' ⊢
        cases ho : s.work.overrun with
        | true =>
          obtain ⟨hpe, hpos⟩ := hover ho
          exact ⟨by omega, by simpa using hpos⟩
        | false =>
          have hlt : s.work.exp - s.work.p < out.length := by simpa [ho] using hover'
          exact ⟨by omega, by simp [hlt]; omega⟩
    · exact Memory.EditedBelow.refl.writeAll (by rw [List.length_take]; omega)
    · rw [bodyLeft_decompress hop, bodyLeft_decompress (by exact hop)]
      show s.work.n - (s.work.pc + len) < _
      omega
  · exact .raised _ _ fun _ => ⟨hl, hop⟩

theorem coreAnswer_decompressEnd {s : State} (hl : s.BodyLegal) (hop : s.work.op = 0) :
    CoreAnswer s (decompressEnd s) := by
  unfold decompressEnd
  split
  · exact .raised _ _ fun _ => ⟨hl, hop⟩
  · split
    · exact .raised _ _ fun _ => ⟨hl, hop⟩
    · exact .finished _

theorem coreAnswer_decompressStep {s t : State} (hb : s.busy = true) (hp : s.work.phase = .body)
    (hl : s.BodyLegal) (hop : s.work.op = 0) (h : decompressStep s = .ok t) : CoreAnswer s t := by
  obtain ⟨_, rfl⟩ | ⟨_, rfl⟩ | ⟨_, _, _, h⟩ | ⟨bs, _, h⟩ := decompressStep_cases h
  · exact coreAnswer_decompressEnd hl hop
  · exact .raised _ _ fun _ => ⟨hl, hop⟩
  · exact coreAnswer_performRecord hb hp hl hop (by omega) h
  · exact coreAnswer_performRecord hb hp hl hop (by omega) h

/-! ### COMPRESS -/

/-- No run of three begins where the run length is less than 3. -/
theorem tripleNext_eq_false {s : State} {r : Nat} (h : runLen s s.work.i = .ok r) (hi : s.work.i < s.work.n)
    (hr : r < 3) : s.tripleNext = false := by
  obtain ⟨b, hb, hr1, _, _, hrun, hend⟩ := runLen_eq_ok h hi
  rw [Bool.eq_false_iff]
  intro ht
  simp only [State.tripleNext, Bool.and_eq_true, decide_eq_true_eq, beq_iff_eq] at ht
  obtain ⟨⟨hlt, h01⟩, h12⟩ := ht
  have hall : s.src.read (s.work.i + r) = some b := by
    obtain rfl | rfl : r = 1 ∨ r = 2 := by omega
    · rw [← h01, hb]
    · rw [← h12, ← h01, hb]
  rcases hend with h | h | ⟨c, hc, hcb⟩
  · omega
  · omega
  · rw [hall] at hc
    exact hcb (Option.some.inj hc).symm

/-- The record COMPRESS stores next keeps R124's bound (41_compress.md R124): a run writes no more than it takes; a
literal's control byte is paid for by its 127 bytes, by the end of the input, or by the run it stopped at. -/
theorem nextRecord_room {s : State} {record : Instr} {taken : Nat} {t : State}
    (h : nextRecord s = .ok (record, taken)) (hi : s.work.i < s.work.n) (ho : s.work.o ≤ s.compressRoom)
    (hsrc : t.src = s.src) (hn : t.work.n = s.work.n) (hi' : t.work.i = s.work.i + taken)
    (ho' : t.work.o = s.work.o + record.byteLength) :
    1 ≤ taken ∧ t.work.i ≤ t.work.n ∧ t.work.o ≤ t.compressRoom := by
  unfold State.compressRoom at ho ⊢
  rw [if_neg (by omega)] at ho
  rw [compressBound_eq, hn, hi', ho']
  obtain ⟨b, _, hrun, h3, rfl⟩ | ⟨r, bs, hrun, hr, hlit, hbs, rfl⟩ := nextRecord_eq_ok h
  · obtain ⟨_, _, _, _, hle, _⟩ := runLen_eq_ok hrun hi
    simp only [Instr.byteLength]
    refine ⟨by omega, hle, ?_⟩
    split at ho <;> split <;> omega
  · obtain ⟨h1, _, hle, _, hstop⟩ := litLen_eq_ok hlit hi
    rw [tripleNext_eq_false hrun hi hr] at ho
    have hlen := ((Memory.readAll_eq_some _ _ _ _).1 hbs).1
    simp only [Instr.byteLength, hlen, Bool.false_eq_true, if_false] at ho ⊢
    refine ⟨h1, hle, ?_⟩
    split
    · omega
    · rcases hstop with h127 | hend | htriple
      · omega
      · omega
      · obtain ⟨hlt, b, hb0, hb1, hb2⟩ := (triple_eq_ok htriple).1 rfl
        have : t.tripleNext = true := by
          simp only [State.tripleNext, hsrc, hn, hi', hb0, hb1, hb2]
          simpa using hlt
        rw [if_pos this]
        omega

/-- COMPRESS never stands above the required length (41_compress.md R124). -/
theorem compressRoom_le {s : State} (h : s.work.i ≤ s.work.n) : s.compressRoom ≤ compressBound s.work.n := by
  unfold State.compressRoom
  split
  · exact le_refl _
  · rw [compressBound_eq]
    split <;> omega

theorem nextRecord_byteLength {s : State} {record : Instr} {taken : Nat}
    (h : nextRecord s = .ok (record, taken)) : (encode record).length = record.byteLength := by
  obtain ⟨_, _, _, _, rfl⟩ | ⟨_, _, _, _, _, _, rfl⟩ := nextRecord_eq_ok h
  · rfl
  · simp [encode, Instr.byteLength, Nat.add_comm]

theorem coreAnswer_compressStep {s t : State} (hb : s.busy = true) (hp : s.work.phase = .body)
    (hl : s.BodyLegal) (hop : s.work.op = 1) (h : compressStep s = .ok t) : CoreAnswer s t := by
  obtain ⟨_, rfl⟩ | ⟨hi, record, taken, hrec, _, rfl⟩ := compressStep_cases h
  · exact .finished _
  · obtain ⟨_, ho⟩ := (bodyRanges_compress hop).1 hl.ranges
    obtain ⟨htaken, hi', ho'⟩ := nextRecord_room hrec hi ho
      (t := { s with dst := s.dst.writeAll s.work.o (encode record)
                     work := { s.work with o := s.work.o + record.byteLength, i := s.work.i + taken } })
      rfl rfl rfl rfl
    refine .continued (continues_of_body hb hp hl ⟨rfl, rfl, rfl, rfl, rfl, rfl⟩ ?_ ?_ ?_)
    · rw [bodyRanges_compress (by exact hop)]
      exact ⟨hi', ho'⟩
    · refine Memory.EditedBelow.refl.writeAll ?_
      rw [required_compress hop, nextRecord_byteLength hrec]
      exact ho'.trans (compressRoom_le hi')
    · rw [bodyLeft_compress hop, bodyLeft_compress (by exact hop)]
      show s.work.n - (s.work.i + taken) < _
      omega

/-! ### The converters -/

/-- A pixel moved inside the required length goes on to the next one. -/
theorem continues_pixel {s : State} {d : Memory} (hb : s.busy = true) (hp : s.work.phase = .body)
    (hl : s.BodyLegal) (hop : s.work.op = 2 ∨ s.work.op = 3) (hk : s.work.k < s.work.w * s.work.h)
    (hd : Memory.EditedBelow s.required s.dst d) :
    Continues s { s with dst := d, work := { s.work with k := s.work.k + 1 } } := by
  obtain ⟨hn, _⟩ := (bodyRanges_convert hop).1 hl.ranges
  refine continues_of_body hb hp hl ⟨rfl, rfl, rfl, rfl, rfl, rfl⟩ ?_ hd ?_
  · rw [bodyRanges_convert (by exact hop)]
    exact ⟨hn, hk⟩
  · rw [bodyLeft_convert hop, bodyLeft_convert (by exact hop)]
    show s.work.w * s.work.h - (s.work.k + 1) < _
    omega

theorem required_convert {s : State} (h : s.work.op = 2 ∨ s.work.op = 3) :
    s.required = 3 * (s.work.w * s.work.h) := by
  rw [required_of_ne_compress (by rcases h with h | h <;> simp [h]), expectedLength_eq]

theorem coreAnswer_planarToRgbStep {s t : State} (hb : s.busy = true) (hp : s.work.phase = .body)
    (hl : s.BodyLegal) (hop : s.work.op = 2) (h : planarToRgbStep s = .ok t) : CoreAnswer s t := by
  obtain ⟨_, rfl⟩ | ⟨hk, r, g, b, _, _, _, rfl⟩ := planarToRgbStep_cases h
  · exact .finished _
  · have hin : ∀ c, pixelOffset c s.work.k < s.required := fun c => by
      rw [required_convert (.inl hop), pixelOffset]; omega
    exact .continued (continues_pixel hb hp hl (.inl hop) hk
      (((Memory.EditedBelow.refl.write r (hin 2)).write g (hin 1)).write b (hin 0)))

theorem coreAnswer_rgbToPlanarStep {s t : State} (hb : s.busy = true) (hp : s.work.phase = .body)
    (hl : s.BodyLegal) (hop : s.work.op = 3) (h : rgbToPlanarStep s = .ok t) : CoreAnswer s t := by
  obtain ⟨_, rfl⟩ | ⟨hk, r, g, b, _, _, _, rfl⟩ := rgbToPlanarStep_cases h
  · exact .finished _
  · have hin : ∀ c, c ≤ 2 → planeOffset (s.work.w * s.work.h) c s.work.k < s.required := fun c hc => by
      rw [required_convert (.inr hop), planeOffset]
      have := Nat.mul_le_mul_right (s.work.w * s.work.h) hc
      omega
    exact .continued (continues_pixel hb hp hl (.inr hop) hk
      (((Memory.EditedBelow.refl.write b (hin 0 (by omega))).write g (hin 1 (by omega))).write r
        (hin 2 (by omega))))

/-! ### One core step -/

/-- Every core step of a legally running command completes it, or the command goes on legally. -/
theorem coreAnswer_coreStep {s t : State} (hb : s.busy = true) (hl : s.RunLegal) (h : coreStep s = .ok t) :
    CoreAnswer s t := by
  obtain ⟨hb', _⟩ | ⟨_, hp, rfl⟩ | ⟨_, hp, h⟩ := coreStep_cases h
  · rw [hb] at hb'; cases hb'
  · exact coreAnswer_precheck hb hp
  · have hbody := hl.body hb hp
    obtain ⟨hop, h⟩ | ⟨hop, h⟩ | ⟨hop, h⟩ | ⟨hop, h⟩ | ⟨_, rfl⟩ := h
    · exact coreAnswer_decompressStep hb hp hbody (BitVec.eq_of_toNat_eq hop) h
    · exact coreAnswer_compressStep hb hp hbody (BitVec.eq_of_toNat_eq hop) h
    · exact coreAnswer_planarToRgbStep hb hp hbody (BitVec.eq_of_toNat_eq hop) h
    · exact coreAnswer_rgbToPlanarStep hb hp hbody (BitVec.eq_of_toNat_eq hop) h
    · exact .raised _ _ nofun

end Sys2Proof.Machine
end

section
/-! PROOFS. What every core step, and a whole command as a run of them, keeps: legality, the invariant, DST from the
required length up; and that a whole command completes. -/

namespace Sys2Proof.Machine

/-! ### A command that goes on -/

theorem Continues.exists_eq {s t : State} (h : Continues s t) : ∃ d wk, t = { s with dst := d, work := wk } :=
  ⟨t.dst, t.work, h.frame⟩

theorem Continues.busy {s t : State} (h : Continues s t) : t.busy = s.busy := by
  obtain ⟨_, _, rfl⟩ := h.exists_eq
  rfl

theorem Continues.required {s t : State} (h : Continues s t) : t.required = s.required := by
  simp only [State.required, h.op, h.w, h.h, h.n]

theorem Continues.required_le {s t : State} (h : Continues s t) : s.required ≤ s.dstSize.toNat := by
  have hcap := h.legal.required_le
  rwa [h.required, congrArg State.dstSize h.frame] at hcap

theorem Continues.runLegal {s t : State} (h : Continues s t) (hb : s.busy = true) (hl : s.RunLegal) : t.RunLegal where
  latched _ := by
    obtain ⟨hop, hw, hh, hn⟩ := hl.latched hb
    rw [h.op, h.w, h.h, h.n, hop, hw, hh, hn]
    obtain ⟨d, wk, rfl⟩ := h.exists_eq
    exact ⟨rfl, rfl, rfl, rfl⟩
  started _ hp := by rw [h.phase] at hp; cases hp
  body _ _ := h.legal

/-! ### Legality and progress -/

theorem runLegal_coreStep {s t : State} (hb : s.busy = true) (hl : s.RunLegal) (h : coreStep s = .ok t) :
    t.RunLegal := by
  cases coreAnswer_coreStep hb hl h with
  | finished len => exact runLegal_of_idle (finish_busy len s)
  | raised e pos _ => exact runLegal_of_idle (raiseError_busy e pos s)
  | continued hc => exact hc.runLegal hb hl

theorem stepsLeft_pos {s : State} (hb : s.busy = true) : 0 < s.stepsLeft := by
  cases hp : s.work.phase with
  | precheck => rw [stepsLeft_precheck hb hp]; omega
  | body => rw [stepsLeft_body hb hp]; omega

/-- Every core step leaves fewer steps to do. -/
theorem stepsLeft_coreStep {s t : State} (hb : s.busy = true) (hl : s.RunLegal) (h : coreStep s = .ok t) :
    t.stepsLeft < s.stepsLeft := by
  cases coreAnswer_coreStep hb hl h with
  | finished len => rw [stepsLeft_idle (finish_busy len s)]; exact stepsLeft_pos hb
  | raised e pos _ => rw [stepsLeft_idle (raiseError_busy e pos s)]; exact stepsLeft_pos hb
  | continued hc => exact hc.progress

/-- A run with fuel for every step left ends in a completed command. -/
theorem coreRun_completes {fuel : Nat} {s t : State} (hl : s.RunLegal) (hfuel : s.stepsLeft ≤ fuel)
    (h : coreRun fuel s = .ok t) : t.busy = false := by
  induction fuel generalizing s with
  | zero =>
    cases h
    by_contra hb
    have := stepsLeft_pos (by simpa using hb)
    omega
  | succ fuel ih =>
    cases hb : s.busy with
    | false => rw [coreRun_idle hb] at h; cases h; exact hb
    | true =>
      rw [coreRun_busy hb] at h
      obtain ⟨u, hu, h⟩ := bind_eq_ok.1 h
      have := stepsLeft_coreStep hb hl hu
      exact ih (runLegal_coreStep hb hl hu) (by omega) h

/-- A whole command issued to an idle core leaves it idle (log entry 26: its fuel suffices). -/
theorem issue_busy {op : BitVec 4} {s t : State} (h : issue op s = .next t) : t.busy = s.busy := by
  obtain ⟨_, rfl⟩ | ⟨hb, h⟩ := issue_eq_next.1 h
  · rfl
  · rw [hb]
    refine coreRun_completes (runLegal_start op s) ?_ h
    rw [stepsLeft_precheck (start_busy op s) (by simp)]
    simp [stepBound]

/-- What every core answer keeps, a run of a legally started command keeps. -/
theorem coreRun_answer_induction {P : State → Prop}
    (hstep : ∀ s t, s.busy = true → s.RunLegal → CoreAnswer s t → P s → P t) {fuel : Nat} {s t : State}
    (h : coreRun fuel s = .ok t) (hl : s.RunLegal) (hs : P s) : P t := by
  refine (coreRun_induction (P := fun u => u.RunLegal ∧ P u) (fun u v hb hv hu => ?_) h ⟨hl, hs⟩).2
  obtain ⟨hlu, hpu⟩ := hu
  exact ⟨runLegal_coreStep hb hlu hv, hstep u v hb hlu (coreAnswer_coreStep hb hlu hv) hpu⟩

/-! ### DST -/

/-- An error edits DST below the required length only. -/
theorem raiseError_edited {e : CodecError} {s : State} (pos : Nat)
    (h : e.spoilsDst = true → s.BodyLegal ∧ s.work.op = 0) :
    Memory.EditedBelow s.required s.dst (raiseError e pos s).dst := by
  rw [raiseError_dst]
  split
  · next he =>
    obtain ⟨hl, hop⟩ := h he
    exact .forget .refl (hl.exp_eq_required (by simp [hop])).le
  · exact .refl

theorem CoreAnswer.edited {s t : State} (h : CoreAnswer s t) : Memory.EditedBelow s.required s.dst t.dst := by
  cases h with
  | finished len => exact .refl
  | raised e pos he => exact raiseError_edited pos he
  | continued hc => exact hc.edited

/-! ### The invariant -/

/-- An idle machine meets the invariant when its buffers and its STATUS do. -/
theorem inv_of_idle {s : State} (hb : s.busy = false) (hw : s.work = Work.blank) (hsrc : s.src.wf)
    (hdst : s.dst.wf) (hsrcFits : s.src.fits s.srcSize.toNat) (hdstFits : s.dst.fits s.dstSize.toNat)
    (hstatus : s.StatusLegal) : s.Inv where
  srcWf := hsrc
  dstWf := hdst
  srcFits := hsrcFits
  dstFits := hdstFits
  status := hstatus
  idle _ := hw
  latched h := by rw [hb] at h; cases h
  started h := by rw [hb] at h; cases h
  body h := by rw [hb] at h; cases h

theorem statusLegal_finish (len : Nat) (s : State) : (finish len s).StatusLegal := by constructor <;> simp

/-- Every error's code is one of the five (60_exceptions.md R151). -/
theorem CodecError.code_range (e : CodecError) : 1 ≤ e.code.toNat ∧ e.code.toNat ≤ 5 := by cases e <;> decide

theorem statusLegal_raiseError (e : CodecError) (pos : Nat) (s : State) : (raiseError e pos s).StatusLegal where
  running h := by simp at h
  errDone _ := by simp
  noError h := by simp at h
  error _ := by simpa using e.code_range

theorem inv_finish {s : State} (h : s.Inv) (len : Nat) : (finish len s).Inv :=
  inv_of_idle rfl rfl h.srcWf h.dstWf h.srcFits h.dstFits (statusLegal_finish len s)

theorem inv_raiseError {s : State} (h : s.Inv) (e : CodecError) (pos : Nat) : (raiseError e pos s).Inv := by
  refine inv_of_idle (raiseError_busy e pos s) (raiseError_work e pos s) ?_ ?_ ?_ ?_ (statusLegal_raiseError e pos s)
  · simpa using h.srcWf
  · rw [raiseError_dst]
    split
    · exact Memory.wf_forget h.dstWf _
    · exact h.dstWf
  · simpa using h.srcFits
  · rw [raiseError_dst, raiseError_dstSize]
    split
    · exact Memory.fits_forget h.dstFits _
    · exact h.dstFits

theorem Continues.inv {s t : State} (h : Continues s t) (hb : s.busy = true) (hi : s.Inv) : t.Inv := by
  have hl := h.runLegal hb hi.runLegal
  have hwf := h.edited.wf hi.dstWf
  have hfits := h.edited.fits hi.dstFits h.required_le
  obtain ⟨d, wk, rfl⟩ := h.exists_eq
  exact {
    srcWf := hi.srcWf, dstWf := hwf, srcFits := hi.srcFits, dstFits := hfits
    status := ⟨hi.status.running, hi.status.errDone, hi.status.noError, hi.status.error⟩
    idle := fun hb' => absurd (hb.symm.trans hb') (by decide)
    latched := hl.latched, started := hl.started, body := hl.body }

theorem CoreAnswer.inv {s t : State} (h : CoreAnswer s t) (hb : s.busy = true) (hi : s.Inv) : t.Inv := by
  cases h with
  | finished len => exact inv_finish hi len
  | raised e pos _ => exact inv_raiseError hi e pos
  | continued hc => exact hc.inv hb hi

/-- A core step of an idle core changes nothing (60_exceptions.md R169). -/
theorem coreStep_idle {s : State} (hb : s.busy = false) : coreStep s = .ok s := by simp [coreStep, hb]

/-- A core step keeps the invariant. -/
theorem inv_coreStep {s t : State} (hi : s.Inv) (h : coreStep s = .ok t) : t.Inv := by
  cases hb : s.busy with
  | true => exact (coreAnswer_coreStep hb hi.runLegal h).inv hb hi
  | false =>
    rw [coreStep_idle hb] at h
    cases h
    exact hi

theorem inv_start {s : State} (hi : s.Inv) (op : BitVec 4) : (start op s).Inv where
  srcWf := hi.srcWf
  dstWf := hi.dstWf
  srcFits := hi.srcFits
  dstFits := hi.dstFits
  status := by constructor <;> simp
  idle h := by cases h
  latched := (runLegal_start op s).latched
  started := (runLegal_start op s).started
  body := (runLegal_start op s).body

/-- A whole command keeps the invariant. -/
theorem inv_issue {op : BitVec 4} {s t : State} (hi : s.Inv) (h : issue op s = .next t) : t.Inv := by
  obtain ⟨_, rfl⟩ | ⟨_, h⟩ := issue_eq_next.1 h
  · exact hi
  · exact coreRun_induction (P := State.Inv) (fun _ _ _ hu hs => inv_coreStep hs hu) h (inv_start hi op)

/-- The invariant does not speak of the model's own fields of the host. -/
theorem State.Inv.hostFields {s : State} (h : s.Inv) (program : List HostOp) (schedule : List Turn) (saw : List Saw)
    (draws : Nat) :
    State.Inv { s with program := program, schedule := schedule, saw := saw, draws := draws } where
  srcWf := h.srcWf
  dstWf := h.dstWf
  srcFits := h.srcFits
  dstFits := h.dstFits
  status := ⟨h.status.running, h.status.errDone, h.status.noError, h.status.error⟩
  idle := h.idle
  latched := h.latched
  started := h.started
  body hb hp := ⟨(h.body hb hp).length, (h.body hb hp).capacity, (h.body hb hp).expected, (h.body hb hp).ranges⟩

end Sys2Proof.Machine
end

section
/-! PROOFS. What one transaction of the host, and one step of the machine, can do, said once. -/

namespace Sys2Proof.Machine

/-! ### The register block -/

@[simp] theorem regAt_offset (r : Reg) : regAt r.offset = some r := by cases r <;> rfl

/-- A named register stands at its own offset alone (10_state.md R21). -/
theorem eq_offset_of_regAt {off : BitVec 7} {r : Reg} (h : regAt off = some r) (hr : r ≠ .reserved) :
    off = r.offset := by
  unfold regAt at h
  split at h
  · cases h
  · apply BitVec.eq_of_toNat_eq
    split at h <;> cases h
    case h_10.refl => exact absurd rfl hr
    all_goals simp only [Reg.offset, BitVec.ofNat_eq_ofNat, BitVec.toNat_ofNat]; omega

/-- The offsets from 0x48 up that are multiples of 8 are the reserved ones (10_state.md R33). -/
theorem regAt_reserved {off : BitVec 7} (h : 0x48 ≤ off.toNat) (hmod : off.toNat % 8 = 0) :
    regAt off = some .reserved := by
  rw [regAt, if_neg (by omega)]
  obtain ⟨q, hq⟩ : ∃ q, off.toNat / 8 = q + 9 := ⟨off.toNat / 8 - 9, by omega⟩
  rw [hq]
  rfl

/-- From 0x28 up stand the registers from OUT_LEN on (10_state.md R21). -/
theorem offset_ge_of_regAt {off : BitVec 7} {r : Reg} (h : regAt off = some r) (hoff : 0x28 ≤ off.toNat) :
    0x28 ≤ r.offset.toNat := by
  by_cases hr : r = .reserved
  · subst hr; decide
  · rwa [← eq_offset_of_regAt h hr]

theorem hostAccess_regRead (r : Reg) {off : BitVec 7} (h : regAt off = some r) (s : State) :
    hostAccess (.regRead off 64) s = { s with saw := .reg off (readReg s r) :: s.saw } := by
  simp [hostAccess, regRead, h, State.note]

theorem hostAccess_regWrite (r : Reg) {off : BitVec 7} (h : regAt off = some r) (v : Dword) (s : State) :
    hostAccess (.regWrite off 64 v) s = writeReg r v s := by simp [hostAccess, regWrite, h]

/-- A write that is not supported changes nothing (20_memory.md R58). -/
theorem hostAccess_regWrite_none {off : BitVec 7} (h : regAt off = none) (v : Dword) (s : State) :
    hostAccess (.regWrite off 64 v) s = s := by simp [hostAccess, regWrite, h]

theorem writeReg_busy {s : State} (h : s.busy = true) (r : Reg) (v : Dword) : writeReg r v s = s := if_pos h

theorem writeReg_cmd (v : Dword) (s : State) :
    writeReg .cmd v s = if s.busy then s else start (v.setWidth 4) s := rfl

theorem writeReg_status (v : Dword) (s : State) :
    writeReg .status v s = if s.busy then s else if v.getLsbD 1 then s.statusClear else s := rfl

theorem writeReg_width (v : Dword) (s : State) :
    writeReg .width v s = if s.busy then s else { s with width := v.setWidth 16 } := rfl

theorem writeReg_height (v : Dword) (s : State) :
    writeReg .height v s = if s.busy then s else { s with height := v.setWidth 16 } := rfl

theorem writeReg_srcLen (v : Dword) (s : State) :
    writeReg .srcLen v s = if s.busy then s else { s with srcLen := v } := rfl

/-- The registers from OUT_LEN on ignore writes (10_state.md R29 to R33). -/
theorem writeReg_readOnly {r : Reg} (h : 0x28 ≤ r.offset.toNat) (v : Dword) (s : State) : writeReg r v s = s := by
  cases r with
  | cmd => exact absurd h (by decide)
  | status => exact absurd h (by decide)
  | width => exact absurd h (by decide)
  | height => exact absurd h (by decide)
  | srcLen => exact absurd h (by decide)
  | outLen => exact ite_self s
  | srcSize => exact ite_self s
  | dstSize => exact ite_self s
  | errPos => exact ite_self s
  | reserved => exact ite_self s

/-! ### One transaction of the host -/

/-- What the transaction `b` can make of the state: only the host's own fields change; or, while idle, a command starts,
STATUS is cleared, an operand register or a buffer byte is written. -/
inductive HostEffect (b : BusOp) (s : State) : State → Prop where
  | hostOnly (program : List HostOp) (saw : List Saw) (draws : Nat) :
      HostEffect b s { s with program := program, saw := saw, draws := draws }
  | started (v : Dword) (hb : s.busy = false) (h : b = .regWrite 0x00 64 v) : HostEffect b s (start (v.setWidth 4) s)
  | cleared (v : Dword) (hb : s.busy = false) (h : b = .regWrite 0x08 64 v) (hv : v.getLsbD 1 = true) :
      HostEffect b s s.statusClear
  | operands (width height : Half) (srcLen : Dword) (hb : s.busy = false) :
      HostEffect b s { s with width := width, height := height, srcLen := srcLen }
  | srcWritten (a : Nat) (v : Byte) (hb : s.busy = false) (ha : a < s.srcSize.toNat) :
      HostEffect b s { s with src := s.src.write a v }
  | dstWritten (a : Nat) (v : Byte) (hb : s.busy = false) (ha : a < s.dstSize.toNat) :
      HostEffect b s { s with dst := s.dst.write a v }

theorem HostEffect.refl (b : BusOp) (s : State) : HostEffect b s s := .hostOnly s.program s.saw s.draws

theorem hostEffect_writeReg {off : BitVec 7} {r : Reg} (h : regAt off = some r) (v : Dword) (s : State) :
    HostEffect (.regWrite off 64 v) s (writeReg r v s) := by
  cases hb : s.busy with
  | true => rw [writeReg_busy hb]; exact .refl _ s
  | false =>
    by_cases hro : 0x28 ≤ r.offset.toNat
    · rw [writeReg_readOnly hro]; exact .refl _ s
    have hoff : off = r.offset := eq_offset_of_regAt h (by rintro rfl; exact hro (by decide))
    subst hoff
    have hidle : ¬ s.busy = true := by simp [hb]
    cases r with
    | cmd => rw [writeReg_cmd, if_neg hidle]; exact .started v hb rfl
    | status =>
      rw [writeReg_status, if_neg hidle]
      split
      · next hv => exact .cleared v hb rfl hv
      · exact .refl _ s
    | width => rw [writeReg_width, if_neg hidle]; exact .operands _ s.height s.srcLen hb
    | height => rw [writeReg_height, if_neg hidle]; exact .operands s.width _ s.srcLen hb
    | srcLen => rw [writeReg_srcLen, if_neg hidle]; exact .operands s.width s.height _ hb
    | outLen => exact absurd (by decide) hro
    | srcSize => exact absurd (by decide) hro
    | dstSize => exact absurd (by decide) hro
    | errPos => exact absurd (by decide) hro
    | reserved => exact absurd (by decide) hro

theorem hostEffect_regWrite (off : BitVec 7) (bits : Nat) (v : Dword) (s : State) :
    HostEffect (.regWrite off bits v) s (regWrite off bits v s) := by
  unfold regWrite
  split
  · next r hr =>
    split at hr
    · next hbits => subst hbits; exact hostEffect_writeReg hr v s
    · cases hr
  · exact .refl _ s

theorem hostEffect_bufWrite (b : BusOp) (buf : Buffer) (a : Nat) (v : Byte) (s : State) :
    HostEffect b s (bufWrite buf a v s) := by
  unfold bufWrite
  split
  · exact .refl _ s
  · next hb =>
    have hb : s.busy = false := by simpa using hb
    split
    · exact .refl _ s
    · next ha =>
      cases buf with
      | src => exact .srcWritten a v hb (not_le.1 ha)
      | dst => exact .dstWritten a v hb (not_le.1 ha)

/-- A register read changes only what the host has read, and perhaps the count of free values. -/
theorem exists_regRead_eq (off : BitVec 7) (bits : Nat) (s : State) :
    ∃ saw draws, regRead off bits s = { s with saw := saw, draws := draws } := by
  unfold regRead
  split
  · next r _ => exact ⟨.reg off (readReg s r) :: s.saw, s.draws, rfl⟩
  · exact ⟨.reg off (Config.freeDword s.draws) :: s.saw, s.draws + 1, rfl⟩

/-- A buffer byte the host reads changes at most the count of free values. -/
theorem exists_hostByte_eq (buf : Buffer) (a : Nat) (s : State) :
    ∃ x draws, hostByte buf a s = (x, { s with draws := draws }) := by
  unfold hostByte
  split
  · exact ⟨0, s.draws, rfl⟩
  · split
    · exact ⟨Config.freeByte s.draws, s.draws + 1, rfl⟩
    · exact ⟨s.currentByte buf a, s.draws, rfl⟩

theorem hostEffect_waitRead (b : BusOp) (s : State) : HostEffect b s (waitRead s) := by
  obtain ⟨saw, draws, h⟩ := exists_regRead_eq Reg.status.offset 64 s
  simp only [waitRead, h]
  split
  · exact .hostOnly (.bus .wait :: s.program) saw draws
  · exact .hostOnly s.program saw draws

/-- Every transaction of the host has one of the effects. -/
theorem hostEffect_hostAccess (b : BusOp) (s : State) : HostEffect b s (hostAccess b s) := by
  cases b with
  | regWrite off bits v => exact hostEffect_regWrite off bits v s
  | regRead off bits =>
    obtain ⟨saw, draws, h⟩ := exists_regRead_eq off bits s
    rw [hostAccess, h]
    exact .hostOnly s.program saw draws
  | bufWrite buf a v => exact hostEffect_bufWrite _ buf a v s
  | bufRead buf a =>
    obtain ⟨x, draws, h⟩ := exists_hostByte_eq buf a s
    simp only [hostAccess, bufRead, h]
    exact .hostOnly s.program (.byte buf a x :: s.saw) draws
  | copyByte a =>
    obtain ⟨x, draws, h⟩ := exists_hostByte_eq .dst a s
    simp only [hostAccess, copyByte, h]
    exact .hostOnly (.bus (.bufWrite .src a x) :: s.program) (.byte .dst a x :: s.saw) draws
  | wait => exact hostEffect_waitRead _ s

/-- A transaction keeps the invariant. -/
theorem HostEffect.inv {b : BusOp} {s t : State} (h : HostEffect b s t) (hi : s.Inv) : t.Inv := by
  have hstatus : s.StatusLegal := hi.status
  have idle (hb : s.busy = false) : s.work = Work.blank := hi.idle hb
  cases h with
  | hostOnly program saw draws => exact hi.hostFields program s.schedule saw draws
  | started v _ _ => exact inv_start hi _
  | cleared v hb _ _ =>
    refine inv_of_idle hb (idle hb) hi.srcWf hi.dstWf hi.srcFits hi.dstFits ?_
    constructor <;> simp [hb]
  | operands width height srcLen hb =>
    exact inv_of_idle hb (idle hb) hi.srcWf hi.dstWf hi.srcFits hi.dstFits
      ⟨hstatus.running, hstatus.errDone, hstatus.noError, hstatus.error⟩
  | srcWritten a v hb ha =>
    exact inv_of_idle hb (idle hb) (Memory.wf_write hi.srcWf a v) hi.dstWf (Memory.fits_write hi.srcFits ha v)
      hi.dstFits ⟨hstatus.running, hstatus.errDone, hstatus.noError, hstatus.error⟩
  | dstWritten a v hb ha =>
    exact inv_of_idle hb (idle hb) hi.srcWf (Memory.wf_write hi.dstWf a v) hi.srcFits
      (Memory.fits_write hi.dstFits ha v) ⟨hstatus.running, hstatus.errDone, hstatus.noError, hstatus.error⟩

/-- A transaction sets BUSY only as the CMD write that starts a command, and never clears it (10_state.md R24). -/
theorem HostEffect.busy {b : BusOp} {s t : State} (h : HostEffect b s t) :
    t.busy = s.busy ∨ s.busy = false ∧ ∃ v, b = .regWrite 0x00 64 v := by
  cases h with
  | hostOnly program saw draws => exact .inl rfl
  | started v hb h => exact .inr ⟨hb, v, h⟩
  | cleared v _ _ _ => exact .inl rfl
  | operands width height srcLen _ => exact .inl rfl
  | srcWritten a v _ _ => exact .inl rfl
  | dstWritten a v _ _ => exact .inl rfl

theorem HostEffect.sizes {b : BusOp} {s t : State} (h : HostEffect b s t) :
    t.srcSize = s.srcSize ∧ t.dstSize = s.dstSize := by
  cases h <;> exact ⟨rfl, rfl⟩

/-! ### BUSY and DONE along core steps, legal or not -/

theorem busy_or_done_precheck {s : State} (hb : s.busy = true) :
    (precheck s).busy = true ∨ (precheck s).done = true := by
  obtain ⟨_, h⟩ | ⟨_, _, h⟩ | ⟨_, _, _, _, h⟩ | ⟨_, _, _, _, h⟩ := precheck_cases s <;> rw [h]
  · exact .inr (raiseError_done _ _ s)
  · exact .inr (raiseError_done _ _ s)
  · exact .inr (raiseError_done _ _ s)
  · exact .inl hb

theorem busy_or_done_performRecord {len : Nat} {out : List Byte} {s t : State} (hb : s.busy = true)
    (h : performRecord len out s = .ok t) : t.busy = true ∨ t.done = true := by
  obtain ⟨_, _, rfl⟩ | ⟨_, rfl⟩ := performRecord_eq_ok.1 h
  · exact .inl hb
  · exact .inr (raiseError_done _ _ s)

theorem busy_or_done_decompressStep {s t : State} (hb : s.busy = true) (h : decompressStep s = .ok t) :
    t.busy = true ∨ t.done = true := by
  obtain ⟨_, rfl⟩ | ⟨_, rfl⟩ | ⟨_, _, _, h⟩ | ⟨_, _, h⟩ := decompressStep_cases h
  · right
    unfold decompressEnd
    split
    · exact raiseError_done _ _ s
    · split
      · exact raiseError_done _ _ s
      · exact finish_done _ s
  · exact .inr (raiseError_done _ _ s)
  · exact busy_or_done_performRecord hb h
  · exact busy_or_done_performRecord hb h

/-- A core step of a running command leaves BUSY set, or is a completion, which sets DONE (60_exceptions.md R157,
R158). -/
theorem busy_or_done_coreStep {s t : State} (hb : s.busy = true) (h : coreStep s = .ok t) :
    t.busy = true ∨ t.done = true := by
  obtain ⟨_, rfl⟩ | ⟨_, _, rfl⟩ | ⟨_, _, ⟨_, h⟩ | ⟨_, h⟩ | ⟨_, h⟩ | ⟨_, h⟩ | ⟨_, rfl⟩⟩ := coreStep_cases h
  · exact .inl hb
  · exact busy_or_done_precheck hb
  · exact busy_or_done_decompressStep hb h
  · obtain ⟨_, rfl⟩ | ⟨_, _, _, _, _, rfl⟩ := compressStep_cases h
    · exact .inr (finish_done _ s)
    · exact .inl hb
  · obtain ⟨_, rfl⟩ | ⟨_, _, _, _, _, _, _, rfl⟩ := planarToRgbStep_cases h
    · exact .inr (finish_done _ s)
    · exact .inl hb
  · obtain ⟨_, rfl⟩ | ⟨_, _, _, _, _, _, _, rfl⟩ := rgbToPlanarStep_cases h
    · exact .inr (finish_done _ s)
    · exact .inl hb
  · exact .inr (raiseError_done _ _ s)

/-! ### One step -/

/-- The next turn is `turn`, and `rest` are the turns scheduled after it: the first of the schedule, or where that is
empty the core's while a command runs, else the host's (log entry 1). -/
def State.NextTurn (s : State) (turn : Turn) (rest : List Turn) : Prop :=
  s.schedule = turn :: rest ∨ (s.schedule = [] ∧ rest = [] ∧ turn = if s.busy then .core else .host)

/-- What one step that answers a next state has done. -/
inductive StepEffect (s : State) : State → Prop where
  | reset (rest : List Turn) (h : s.schedule = .reset :: rest) :
      StepEffect s (platformReset { s with schedule := rest })
  | core (rest : List Turn) (hturn : s.NextTurn .core rest) {t : State}
      (h : coreStep { s with schedule := rest } = .ok t) : StepEffect s t
  | nothing (rest : List Turn) (hturn : s.NextTurn .host rest) (h : s.program = []) :
      StepEffect s { s with schedule := rest }
  | bus (rest : List Turn) (hturn : s.NextTurn .host rest) (b : BusOp) (ops : List HostOp)
      (h : s.program = .bus b :: ops) {t : State} (ht : HostEffect b { s with schedule := rest, program := ops } t) :
      StepEffect s t
  | command (rest : List Turn) (hturn : s.NextTurn .host rest) (v : Dword) (ops : List HostOp) (op : BitVec 4)
      (h : s.program = .doCommand v :: ops) {t : State}
      (ht : issue op { s with schedule := rest, program := .bus .wait :: ops } = .next t) : StepEffect s t

theorem stepEffect_hostTurn {s t : State} {rest : List Turn} (hturn : s.NextTurn .host rest)
    (h : hostTurn { s with schedule := rest } = .next t) : StepEffect s t := by
  obtain ⟨hp, h'⟩ | ⟨b, ops, hp, h'⟩ | ⟨v, ops, op, hp, _, h'⟩ := hostTurn_cases { s with schedule := rest } <;>
    rw [h'] at h
  · cases h; exact .nothing rest hturn hp
  · cases h; exact .bus rest hturn b ops hp (hostEffect_hostAccess b _)
  · exact .command rest hturn v ops op hp h

/-- Every step that answers a next state has one of the effects. -/
theorem stepEffect_of_step {s t : State} (h : step s = .next t) : StepEffect s t := by
  obtain ⟨rest, hs, h'⟩ | ⟨rest, hs, h'⟩ | ⟨hs, hb, h'⟩ | ⟨rest, hs, h'⟩ | ⟨hs, hb, h'⟩ := step_cases s <;>
    rw [h'] at h
  · cases h; exact .reset rest hs
  · exact .core rest (.inl hs) (toOut_eq_next.1 h)
  · refine .core [] (.inr ⟨hs, rfl, by simp [hb]⟩) ?_
    rw [← hs]
    exact toOut_eq_next.1 h
  · exact stepEffect_hostTurn (.inl hs) h
  · refine stepEffect_hostTurn (rest := []) (.inr ⟨hs, rfl, by simp [hb]⟩) ?_
    rw [← hs]
    exact h

end Sys2Proof.Machine
end

section
/-! PROOFS. The obligations of 10_state.md. -/

namespace Sys2Proof.Machine

/-! ### The invariant -/

theorem inv_platformReset (s : State) : (platformReset s).Inv := by
  refine inv_of_idle rfl rfl Memory.wf_nil Memory.wf_nil (Memory.fits_nil _) (Memory.fits_nil _) ?_
  constructor <;> simp

theorem StepEffect.inv {s t : State} (h : StepEffect s t) (hi : s.Inv) : t.Inv := by
  cases h with
  | reset rest _ => exact inv_platformReset _
  | core rest _ h => exact inv_coreStep (hi.hostFields s.program rest s.saw s.draws) h
  | nothing rest _ _ => exact hi.hostFields s.program rest s.saw s.draws
  | bus rest _ b ops _ ht => exact ht.inv (hi.hostFields ops rest s.saw s.draws)
  | command rest _ v ops op _ ht => exact inv_issue (hi.hostFields (.bus .wait :: ops) rest s.saw s.draws) ht

/-- Settles O53: each effect a step can have keeps the invariant; the core's effect does by R124's bound for COMPRESS and
by the prechecks' capacity for every write. -/
theorem stepKeepsInvariant : Obligations.StepKeepsInvariant := fun _ _ hi h => (stepEffect_of_step h).inv hi

/-- Settles O52: the reset state is idle, its working registers blank, its buffers empty. -/
theorem resetMeetsInvariant : Obligations.ResetMeetsInvariant := by
  refine inv_of_idle rfl rfl Memory.wf_nil Memory.wf_nil (Memory.fits_nil _) (Memory.fits_nil _) ?_
  constructor <;> simp [State.reset]

/-! ### A whole command -/

theorem Continues.sameOutsideCore {s t : State} (h : Continues s t) : SameOutsideCore s t := by
  obtain ⟨_, _, rfl⟩ := h.exists_eq
  constructor <;> rfl

theorem CoreAnswer.sameOutsideCore {s t : State} (h : CoreAnswer s t) : SameOutsideCore s t := by
  cases h with
  | finished len => exact sameOutsideCore_finish len s
  | raised e pos _ => exact sameOutsideCore_raiseError e pos s
  | continued hc => exact hc.sameOutsideCore

/-- The latched operands give the required length that the registers give. -/
theorem State.RunLegal.required_eq {s : State} (hl : s.RunLegal) (hb : s.busy = true) :
    s.required = requiredLength s.cmdOp s.width.toNat s.height.toNat s.srcLen.toNat := by
  obtain ⟨hop, hw, hh, hn⟩ := hl.latched hb
  rw [State.required, hop, hw, hh, hn]

/-- A whole command leaves DST from its required length up as it was (20_memory.md R52). -/
theorem sameFrom_coreRun {fuel : Nat} {op : BitVec 4} {s t : State} (h : coreRun fuel (start op s) = .ok t) :
    Claim.SameFrom (requiredLength op s.width.toNat s.height.toNat s.srcLen.toNat) s.dst t.dst := by
  refine (coreRun_answer_induction (P := fun u => SameOutsideCore (start op s) u ∧ Claim.SameFrom
    (requiredLength op s.width.toNat s.height.toNat s.srcLen.toNat) s.dst u.dst)
    (fun u v hb hl hv hu => ?_) h (runLegal_start op s) ⟨.refl _, fun _ _ => rfl⟩).2
  obtain ⟨hout, hsame⟩ := hu
  have hreq := hl.required_eq hb
  rw [hout.cmdOp, hout.width, hout.height, hout.srcLen] at hreq
  exact ⟨hout.trans hv.sameOutsideCore, fun a ha => (hv.edited.sameFrom a (hreq ▸ ha)).trans (hsame a ha)⟩

theorem requiredLength_eq (op : BitVec 4) (w h n : Nat) :
    requiredLength op w h n = if op.toNat = 1 then n + (n + 126) / 127 else 3 * w * h := by
  have hop : op = 1 ↔ op.toNat = 1 := ⟨fun h => by rw [h]; rfl, fun h => BitVec.eq_of_toNat_eq h⟩
  simp only [requiredLength, hop, compressBound_eq, expectedLength]

/-- Settles O25: a run of core steps touches only what is the core's, and edits DST below the required length. -/
theorem commandFrame : Obligations.CommandFrame := by
  intro s t i op hb hop h
  rw [exec_command hop] at h
  obtain ⟨hb', _⟩ | ⟨_, h⟩ := issue_eq_next.1 h
  · simp [hb] at hb'
  · have hout := sameOutsideCore_coreRun h
    refine ⟨hout.cmdOp, hout.width, hout.height, hout.srcLen, hout.srcSize, hout.dstSize, hout.src, hout.program,
      hout.schedule, hout.saw, hout.draws, hout.resets, ?_⟩
    rw [← requiredLength_eq]
    exact sameFrom_coreRun h

theorem run_succ_of_step {s u : State} (h : step s = .next u) (k : Nat) :
    Host.Core.run Sys2Proof.core (k + 1) s = Host.Core.run Sys2Proof.core k u := by
  have h' : Sys2Proof.core.step s = .next u := h
  simp only [Host.Core.run, h']

/-- With no turn scheduled a running core moves. -/
theorem step_of_busy {s : State} (hs : s.schedule = []) (hb : s.busy = true) : step s = toOut (coreStep s) := by
  rw [step, hs]
  simp [hb, coreTurn_eq]

/-- A run of core steps is that many steps of the machine where no other agent has a turn, BUSY set before each. -/
theorem exists_run_of_coreRun {fuel : Nat} {s t : State} (hs : s.schedule = []) (h : coreRun fuel s = .ok t) :
    ∃ k, k ≤ fuel ∧ Host.Core.run Sys2Proof.core k s = .next t ∧
      ∀ j u, j < k → Host.Core.run Sys2Proof.core j s = .next u → u.busy = true := by
  induction fuel generalizing s with
  | zero => cases h; exact ⟨0, le_refl _, rfl, nofun⟩
  | succ fuel ih =>
    cases hb : s.busy with
    | false => rw [coreRun_idle hb] at h; cases h; exact ⟨0, Nat.zero_le _, rfl, nofun⟩
    | true =>
      rw [coreRun_busy hb] at h
      obtain ⟨u, hu, h⟩ := bind_eq_ok.1 h
      have hstep : step s = .next u := by rw [step_of_busy hs hb, hu]; rfl
      obtain ⟨k, hk, hrun, hbusy⟩ := ih ((sameOutsideCore_coreStep hu).schedule.trans hs) h
      refine ⟨k + 1, by omega, by rw [run_succ_of_step hstep, hrun], fun j v hj hv => ?_⟩
      cases j with
      | zero => cases hv; exact hb
      | succ j => exact hbusy j v (by omega) (by rwa [run_succ_of_step hstep] at hv)

/-- Settles O29: the fuel of the whole command bounds its core steps, and the started command, busy, is no state that it
answers. -/
theorem wholeCommandIsItsCoreSteps : Obligations.WholeCommandIsItsCoreSteps := by
  intro s t i op hb hs hop h
  rw [exec_command hop] at h
  have hidle : t.busy = false := (issue_busy h).trans hb
  obtain ⟨hb', _⟩ | ⟨_, h⟩ := issue_eq_next.1 h
  · simp [hb] at hb'
  · obtain ⟨k, hk, hrun, hbusy⟩ := exists_run_of_coreRun (s := start op s) hs h
    refine ⟨k, ?_, hk, hrun, hbusy⟩
    cases k with
    | zero => cases hrun; cases hidle
    | succ k => omega

/-! ### Turns of the core, BUSY, the sizes -/

/-- Where the core's turn is next, a step is one core step. -/
theorem step_of_core_turn {s : State}
    (hturn : s.schedule.head? = some .core ∨ (s.schedule = [] ∧ s.busy = true)) :
    ∃ rest, step s = toOut (coreStep { s with schedule := rest }) := by
  obtain ⟨rest, hs, _⟩ | ⟨rest, hs, h⟩ | ⟨hs, _, h⟩ | ⟨rest, hs, _⟩ | ⟨hs, hb, _⟩ := step_cases s
  · simp [hs] at hturn
  · exact ⟨rest, h⟩
  · exact ⟨[], by rw [← hs]; exact h⟩
  · simp [hs] at hturn
  · simp [hs, hb] at hturn

/-- Settles O31: the step is one core step, and that touches only what is the core's. -/
theorem coreTurnLeavesOperandsAlone : Obligations.CoreTurnLeavesOperandsAlone := by
  intro s t h hturn
  obtain ⟨rest, hstep⟩ := step_of_core_turn hturn
  have hout := sameOutsideCore_coreStep (toOut_eq_next.1 (hstep.symm.trans h))
  exact ⟨hout.src, hout.cmdOp, hout.width, hout.height, hout.srcLen, hout.srcSize, hout.dstSize, hout.program,
    hout.saw, hout.draws, hout.resets⟩

theorem State.NextTurn.schedule {s : State} {turn : Turn} {rest : List Turn} (h : s.NextTurn turn rest) :
    s.schedule = [] ∨ s.schedule.head? = some turn := by
  obtain h | ⟨h, _⟩ := h
  · exact .inr (by rw [h]; rfl)
  · exact .inl h

/-- The three ways BUSY comes out of a step: as it was; set by a CMD write in the host's turn; cleared by reset, or by the
core, which sets DONE (10_state.md R24). -/
theorem StepEffect.busy {s t : State} (h : StepEffect s t) :
    t.busy = s.busy ∨
    (s.busy = false ∧ (s.schedule = [] ∨ s.schedule.head? = some .host) ∧
      ∃ v rest, s.program = .bus (.regWrite 0x00 64 v) :: rest) ∨
    (t.busy = false ∧ (s.schedule.head? = some .reset ∨
      ((s.schedule = [] ∨ s.schedule.head? = some .core) ∧ t.done = true))) := by
  cases h with
  | reset rest h => exact .inr (.inr ⟨rfl, .inl (by rw [h]; rfl)⟩)
  | core rest hturn h =>
    cases hb : s.busy with
    | false =>
      have hsame := (coreStep_idle (by exact hb)).symm.trans h
      cases hsame
      exact .inl hb
    | true =>
      cases hbt : t.busy with
      | true => exact .inl rfl
      | false =>
        have hdone : t.done = true := by simpa [hbt] using busy_or_done_coreStep (by exact hb) h
        exact .inr (.inr ⟨rfl, .inr ⟨hturn.schedule, hdone⟩⟩)
  | nothing rest _ _ => exact .inl rfl
  | bus rest hturn b ops h ht =>
    obtain hsame | ⟨hb, v, rfl⟩ := ht.busy
    · exact .inl hsame
    · exact .inr (.inl ⟨hb, hturn.schedule, v, ops, h⟩)
  | command rest _ v ops op _ ht => exact .inl (issue_busy ht :)

/-- Settles O32: a whole command, and every other transaction, leaves BUSY as it was. -/
theorem busyChangesOnlyByStartCompletionReset : Obligations.BusyChangesOnlyByStartCompletionReset := by
  intro s t h
  obtain hsame | ⟨hb, hset⟩ | ⟨hbt, hcleared⟩ := (stepEffect_of_step h).busy
  · exact ⟨fun hb hbt => by simp [hsame, hb] at hbt, fun hb hbt => by simp [hsame, hb] at hbt⟩
  · exact ⟨fun _ _ => hset, fun hb' _ => by simp [hb] at hb'⟩
  · exact ⟨fun _ hbt' => by simp [hbt] at hbt', fun _ _ => hcleared⟩

theorem issue_sizes {op : BitVec 4} {s t : State} (h : issue op s = .next t) :
    t.srcSize = s.srcSize ∧ t.dstSize = s.dstSize := by
  obtain ⟨_, rfl⟩ | ⟨_, h⟩ := issue_eq_next.1 h
  · exact ⟨rfl, rfl⟩
  · exact ⟨(sameOutsideCore_coreRun h).srcSize, (sameOutsideCore_coreRun h).dstSize⟩

theorem StepEffect.sizes {s t : State} (h : StepEffect s t) : t.srcSize = s.srcSize ∧ t.dstSize = s.dstSize := by
  cases h with
  | reset rest _ => exact ⟨rfl, rfl⟩
  | core rest _ h => exact ⟨(sameOutsideCore_coreStep h).srcSize, (sameOutsideCore_coreStep h).dstSize⟩
  | nothing rest _ _ => exact ⟨rfl, rfl⟩
  | bus rest _ b ops _ ht => exact ht.sizes
  | command rest _ v ops op _ ht => exact (issue_sizes ht :)

/-- Settles O35: no effect of a step is on the sizes, and their registers are read-only. -/
theorem bufferSizeRegistersAreConstant : Obligations.BufferSizeRegistersAreConstant := by
  refine ⟨fun s t h => (stepEffect_of_step h).sizes, fun s => ⟨?_, ?_⟩, fun s v => ⟨?_, ?_⟩⟩
  · exact hostAccess_regRead .srcSize (regAt_offset .srcSize) s
  · exact hostAccess_regRead .dstSize (regAt_offset .dstSize) s
  · exact (hostAccess_regWrite .srcSize (regAt_offset .srcSize) v s).trans (writeReg_readOnly (by decide) v s)
  · exact (hostAccess_regWrite .dstSize (regAt_offset .dstSize) v s).trans (writeReg_readOnly (by decide) v s)

/-! ### The host's transactions -/

/-- Settles O33: every effect but the host's own fields asks for an idle core. -/
theorem hostCannotDisturbRunningCommand : Obligations.HostCannotDisturbRunningCommand := by
  intro s b hbusy
  have heffect := hostEffect_hostAccess b s
  generalize hostAccess b s = t at heffect ⊢
  cases heffect with
  | hostOnly program saw draws => rfl
  | started v hb _ => simp [hbusy] at hb
  | cleared v hb _ _ => simp [hbusy] at hb
  | operands width height srcLen hb => simp [hbusy] at hb
  | srcWritten a v hb _ => simp [hbusy] at hb
  | dstWritten a v hb _ => simp [hbusy] at hb

/-- Settles O34: of the effects a transaction can have, only the start is a CMD write, and only the clear touches the
completion fields. -/
theorem onlyCmdWriteStartsCommand : Obligations.OnlyCmdWriteStartsCommand := by
  intro s b hidle hcmd
  have heffect := hostEffect_hostAccess b s
  generalize hostAccess b s = t at heffect ⊢
  cases heffect with
  | hostOnly program saw draws => exact ⟨hidle, rfl, rfl, rfl, rfl, .inl ⟨rfl, rfl, rfl⟩⟩
  | started v _ h => exact absurd h (hcmd v)
  | cleared v _ h hv => exact ⟨hidle, rfl, rfl, rfl, rfl, .inr ⟨⟨v, h, hv⟩, rfl, rfl, rfl⟩⟩
  | operands width height srcLen _ => exact ⟨hidle, rfl, rfl, rfl, rfl, .inl ⟨rfl, rfl, rfl⟩⟩
  | srcWritten a v _ _ => exact ⟨hidle, rfl, rfl, rfl, rfl, .inl ⟨rfl, rfl, rfl⟩⟩
  | dstWritten a v _ _ => exact ⟨hidle, rfl, rfl, rfl, rfl, .inl ⟨rfl, rfl, rfl⟩⟩

/-! ### Registers -/

/-- Bit `j` of STATUS (10_state.md R23). -/
theorem statusWord_getLsbD (s : State) (j : Nat) :
    s.statusWord.getLsbD j =
      if j = 0 then s.busy else if j = 1 then s.done else if j = 2 then s.err
      else decide (8 ≤ j) && s.ecode.getLsbD (j - 8) := by
  simp only [State.statusWord, BitVec.getLsbD_or, BitVec.getLsbD_shiftLeft, BitVec.getLsbD_setWidth,
    BitVec.getLsbD_ofBool]
  match j with
  | 0 => simp
  | 1 => simp
  | 2 => simp
  | j + 3 =>
    by_cases hecode : 8 ≤ j + 3 ∧ j + 3 < 12
    · obtain ⟨h8, h12⟩ := hecode
      simp [h8, show j + 3 < 64 by omega, show ¬ j + 3 < 8 by omega, show j - 5 < 64 by omega]
    · by_cases h8 : 8 ≤ j + 3
      · simp [s.ecode.getLsbD_of_ge (j - 5) (by omega)]
      · simp [h8, show j + 3 < 8 by omega]

/-- Settles O36, bit by bit. -/
theorem statusWordLayout : Obligations.StatusWordLayout := by
  intro s
  refine ⟨statusWord_getLsbD s 0, statusWord_getLsbD s 1, statusWord_getLsbD s 2, ?_, fun j hj => ?_⟩
  · ext j hj
    rw [BitVec.getElem_extractLsb', readReg, statusWord_getLsbD, if_neg (by omega), if_neg (by omega),
      if_neg (by omega)]
    simp [hj]
  · rw [readReg, statusWord_getLsbD, if_neg (by omega), if_neg (by omega), if_neg (by omega)]
    rcases hj with hj | hj
    · simp [show ¬ 8 ≤ j by omega]
    · simp [s.ecode.getLsbD_of_ge (j - 8) (by omega)]

/-- Settles O37: each register is read at its own offset. -/
theorem registerReadsReturnRegisters : Obligations.RegisterReadsReturnRegisters := fun s =>
  ⟨hostAccess_regRead .cmd (regAt_offset .cmd) s, hostAccess_regRead .status (regAt_offset .status) s,
    hostAccess_regRead .width (regAt_offset .width) s, hostAccess_regRead .height (regAt_offset .height) s,
    hostAccess_regRead .srcLen (regAt_offset .srcLen) s, hostAccess_regRead .outLen (regAt_offset .outLen) s,
    hostAccess_regRead .errPos (regAt_offset .errPos) s⟩

/-- Settles O41: from 0x28 up stands no register that keeps a write. -/
theorem readOnlyRegistersIgnoreWrites : Obligations.ReadOnlyRegistersIgnoreWrites := by
  intro s off v hoff
  cases hr : regAt off with
  | none => exact hostAccess_regWrite_none hr v s
  | some r => rw [hostAccess_regWrite r hr, writeReg_readOnly (offset_ge_of_regAt hr hoff)]

/-- Settles O38: those offsets are the reserved ones, and read-only. -/
theorem reservedOffsetsReadZero : Obligations.ReservedOffsetsReadZero := fun s off v hoff hmod =>
  ⟨hostAccess_regRead .reserved (regAt_reserved hoff hmod) s,
    readOnlyRegistersIgnoreWrites s off v (Nat.le_trans (by decide) hoff)⟩

theorem toNat_setWidth_half (v : Dword) : ((v.setWidth 16 : Half).setWidth 64 : Dword).toNat = v.toNat % 65536 := by
  simp only [BitVec.toNat_setWidth]
  omega

/-- Settles O39: each operand register's write, then what reads of the written field give. -/
theorem operandRegisterAccess : Obligations.OperandRegisterAccess := by
  refine ⟨rfl, rfl, rfl, fun s v => ?_⟩
  have hwidth := (hostAccess_regWrite .width (regAt_offset .width) v s).trans (writeReg_width v s)
  have hheight := (hostAccess_regWrite .height (regAt_offset .height) v s).trans (writeReg_height v s)
  have hsrcLen := (hostAccess_regWrite .srcLen (regAt_offset .srcLen) v s).trans (writeReg_srcLen v s)
  refine ⟨hwidth, hheight, hsrcLen, fun hb => ?_⟩
  have hidle : ¬ s.busy = true := by simp [hb]
  have hreadWidth := congrArg (readReg · .width) (hwidth.trans (if_neg hidle))
  have hreadHeight := congrArg (readReg · .height) (hheight.trans (if_neg hidle))
  have hreadSrcLen := congrArg (readReg · .srcLen) (hsrcLen.trans (if_neg hidle))
  exact ⟨(congrArg BitVec.toNat hreadWidth).trans (toNat_setWidth_half v),
    (congrArg BitVec.toNat hreadHeight).trans (toNat_setWidth_half v), hreadSrcLen⟩

/-- Settles O40: a write to STATUS, busy or idle, with bit 1 set or clear. -/
theorem statusWriteOneClears : Obligations.StatusWriteOneClears := by
  intro s v
  refine ((hostAccess_regWrite .status (regAt_offset .status) v s).trans (writeReg_status v s)).trans ?_
  cases hb : s.busy with
  | true => rfl
  | false =>
    cases v.getLsbD 1 with
    | true => simp [State.statusClear, hb]
    | false => rfl

/-! ### Reset, the idle machine, DO -/

/-- Settles O47: the fields of the reset state, and the parameters, which fit 64 bits. -/
theorem resetStateValues : Obligations.ResetStateValues :=
  ⟨rfl, rfl, rfl, rfl, rfl, rfl, rfl, rfl, by decide, by decide, rfl, fun _ => ⟨rfl, rfl⟩⟩

/-- Settles O49: the host's turn of an empty program. -/
theorem idleMachineStays : Obligations.IdleMachineStays := by
  intro s hb hs hp
  simp [step, hs, hb, hostTurn, hp]

/-- The word whose byte lanes a command is encoded as decodes to it (30_encoding.md R78, R79). -/
theorem decodeCommand_ofLanes_encode {i : Instr} (h : i.kind = .command) : decodeCommand (ofLanes (encode i)) = i := by
  cases i with
  | run r v => cases h
  | lit bs => cases h
  | decompress => decide
  | compress => decide
  | planarToRgb => decide
  | rgbToPlanar => decide
  | reservedLow x => revert x; decide
  | reservedHigh x => revert x; decide

/-- Settles O51: the host's turn decodes the word back to the command. -/
theorem stepRunsIssuedCommand : Obligations.StepRunsIssuedCommand := by
  intro s i rest hi hp
  have hdecode := decodeCommand_ofLanes_encode hi
  exact ⟨fun hs hb => by simp [step, hs, hb, hostTurn, hp, hdecode],
    fun turns hs => by simp [step, hs, hostTurn, hp, hdecode]⟩

end Sys2Proof.Machine
end

section
/-! PROOFS. Two runs of one command side by side: what the core reads of its input, it reads alike in both, and where one
run stops at an input byte that nothing wrote, so does the other. A run beside itself is the case in which this says only
how it can stop. -/

namespace Sys2Proof.Machine

/-! ### Two answers, one beside the other -/

/-- Both operations answer, with results that `R` relates, or both stop at the same byte below `n` that has no value in
`m`. -/
inductive Lockstep (m : Memory) (n : Nat) {α : Type} (R : α → α → Prop) : Except Fault α → Except Fault α → Prop where
  | ok {x x' : α} (h : R x x') : Lockstep m n R (.ok x) (.ok x')
  | fault {a : Nat} (ha : a < n) (h : m.read a = none) :
      Lockstep m n R (.error (.srcByteUnwritten a)) (.error (.srcByteUnwritten a))

section
variable {m : Memory} {n : Nat} {α β : Type}

/-- Sequences go side by side when their first parts do, and their second parts after every pair of related results. -/
theorem Lockstep.bind {R : α → α → Prop} {Q : β → β → Prop} {x x' : Except Fault α} {f f' : α → Except Fault β}
    (h : Lockstep m n R x x') (hf : ∀ a a', x = .ok a → R a a' → Lockstep m n Q (f a) (f' a')) :
    Lockstep m n Q (x >>= f) (x' >>= f') := by
  cases h with
  | ok h => exact hf _ _ rfl h
  | fault ha h => exact .fault ha h

/-- The same for first parts whose results are equal. -/
theorem Lockstep.bindEq {Q : β → β → Prop} {x x' : Except Fault α} {f f' : α → Except Fault β}
    (h : Lockstep m n Eq x x') (hf : ∀ a, x = .ok a → Lockstep m n Q (f a) (f' a)) :
    Lockstep m n Q (x >>= f) (x' >>= f') :=
  h.bind fun a _ ha heq => heq ▸ hf a ha

end

/-! ### The input -/

/-- The two states stand at the same point of a command, on the same input of `n` bytes, all of them inside SRC. -/
structure SameInput (s s' : State) : Prop where
  work    : s'.work = s.work
  srcSize : s'.srcSize = s.srcSize
  length  : s.work.n ≤ s.srcSize.toNat
  src     : ∀ a, a < s.work.n → s'.src.read a = s.src.read a

section
variable {s s' : State} (h : SameInput s s')
include h

theorem lockstep_srcRead {a : Nat} (ha : a < s.work.n) :
    Lockstep s.src s.work.n Eq (srcRead s a) (srcRead s' a) := by
  have hin : a < s.srcSize.toNat := ha.trans_le h.length
  rw [srcRead, srcRead, h.srcSize, if_pos hin, if_pos hin, h.src a ha]
  cases hread : s.src.read a with
  | some b => exact .ok rfl
  | none => exact .fault ha hread

theorem lockstep_srcReadAll {a len : Nat} (ha : a + len ≤ s.work.n) :
    Lockstep s.src s.work.n Eq (srcReadAll s a len) (srcReadAll s' a len) := by
  induction len generalizing a with
  | zero => exact .ok rfl
  | succ len ih =>
    exact (lockstep_srcRead h (by omega)).bindEq fun _ _ => (ih (by omega)).bindEq fun _ _ => .ok rfl

theorem lockstep_runLenFrom (i : Nat) (b : Byte) (left r : Nat) :
    Lockstep s.src s.work.n Eq (runLenFrom s i b left r) (runLenFrom s' i b left r) := by
  induction left generalizing r with
  | zero => exact .ok rfl
  | succ left ih =>
    simp only [runLenFrom, h.work]
    split
    · next hlt =>
      refine (lockstep_srcRead h hlt).bindEq fun c _ => ?_
      split
      · exact ih (r + 1)
      · exact .ok rfl
    · exact .ok rfl

theorem lockstep_runLen {i : Nat} (hi : i < s.work.n) : Lockstep s.src s.work.n Eq (runLen s i) (runLen s' i) :=
  (lockstep_srcRead h hi).bindEq fun b _ => lockstep_runLenFrom h i b 129 1

theorem lockstep_triple (j : Nat) : Lockstep s.src s.work.n Eq (triple s j) (triple s' j) := by
  simp only [triple, h.work]
  split
  · next hlt =>
    refine (lockstep_srcRead h (by omega)).bindEq fun a _ => (lockstep_srcRead h (by omega)).bindEq fun b _ => ?_
    split
    · exact (lockstep_srcRead h hlt).bindEq fun _ _ => .ok rfl
    · exact .ok rfl
  · exact .ok rfl

theorem lockstep_litLenFrom (i left len : Nat) :
    Lockstep s.src s.work.n Eq (litLenFrom s i left len) (litLenFrom s' i left len) := by
  induction left generalizing len with
  | zero => exact .ok rfl
  | succ left ih =>
    simp only [litLenFrom, h.work]
    split
    · refine (lockstep_triple h _).bindEq fun stop _ => ?_
      split
      · exact .ok rfl
      · exact ih (len + 1)
    · exact .ok rfl

/-- COMPRESS finds the same record in both. -/
theorem lockstep_nextRecord (hi : s.work.i < s.work.n) :
    Lockstep s.src s.work.n Eq (nextRecord s) (nextRecord s') := by
  simp only [nextRecord, h.work]
  refine (lockstep_srcRead h hi).bindEq fun b _ => (lockstep_runLen h hi).bindEq fun r _ => ?_
  split
  · exact .ok rfl
  · refine (lockstep_litLenFrom h _ 126 1).bindEq fun len hlen => ?_
    obtain ⟨_, _, hend, _, _⟩ := litLen_eq_ok hlen hi
    exact (lockstep_srcReadAll h hend).bindEq fun _ _ => .ok rfl

/-- DECOMPRESS fetches the same record in both. -/
theorem lockstep_fetchRecord : Lockstep s.src s.work.n Eq (fetchRecord s) (fetchRecord s') := by
  simp only [fetchRecord, h.work]
  split
  · next hpc =>
    refine (lockstep_srcRead h hpc).bindEq fun cb _ => ?_
    split
    · next hfit =>
      refine (lockstep_srcReadAll h (by omega)).bindEq fun data _ => ?_
      split <;> exact .ok rfl
    · exact .ok rfl
  · exact .ok rfl

end

end Sys2Proof.Machine
end

section
/-! PROOFS. Twins: two states that run one command on one input, whatever else they hold. Every core step keeps them twins,
or stops both at the same input byte; so the command's result is the same in both, and no core access is out of range. -/

namespace Sys2Proof.Machine

/-! ### What a command has produced -/

/-- The two buffers read the same at every offset of `P`. -/
def Memory.AgreeOn (P : Nat → Prop) (m m' : Memory) : Prop := ∀ a, P a → m'.read a = m.read a

theorem Memory.AgreeOn.writeAll {P : Nat → Prop} {m m' : Memory} (h : Memory.AgreeOn P m m') (a : Nat)
    (vs : List Byte) :
    Memory.AgreeOn (fun b => P b ∨ a ≤ b ∧ b < a + vs.length) (m.writeAll a vs) (m'.writeAll a vs) := by
  intro b hb
  rw [Memory.read_writeAll, Memory.read_writeAll]
  split
  · rfl
  · next hout => exact h b (hb.resolve_right hout)

theorem Memory.AgreeOn.write {P : Nat → Prop} {m m' : Memory} (h : Memory.AgreeOn P m m') (a : Nat) (v : Byte) :
    Memory.AgreeOn (fun b => P b ∨ b = a) (m.write a v) (m'.write a v) := by
  intro b hb
  rw [Memory.read_write, Memory.read_write]
  split
  · rfl
  · next hne => exact h b (hb.resolve_right (Ne.symm hne))

/-- The DST offsets a running body has written: what the output index passed, or the bytes of the pixels done. -/
def Work.Produced (wk : Work) (a : Nat) : Prop :=
  match wk.op.toNat with
  | 0 => a < wk.p
  | 1 => a < wk.o
  | 2 => a < 3 * wk.k
  | 3 => ∃ c k, c ≤ 2 ∧ k < wk.k ∧ a = planeOffset (wk.w * wk.h) c k
  | _ => False

section
variable {wk : Work} {a : Nat}

theorem produced_decompress (h : wk.op = 0) : wk.Produced a ↔ a < wk.p := by simp [Work.Produced, h]

theorem produced_compress (h : wk.op = 1) : wk.Produced a ↔ a < wk.o := by simp [Work.Produced, h]

theorem produced_planarToRgb (h : wk.op = 2) : wk.Produced a ↔ a < 3 * wk.k := by simp [Work.Produced, h]

theorem produced_rgbToPlanar (h : wk.op = 3) :
    wk.Produced a ↔ ∃ c k, c ≤ 2 ∧ k < wk.k ∧ a = planeOffset (wk.w * wk.h) c k := by simp [Work.Produced, h]

/-- A body that begins has produced nothing. -/
theorem not_produced_dispatch (s : State) (a : Nat) : ¬ (dispatch s).work.Produced a := by
  unfold Work.Produced
  split <;> simp [dispatch]

end

/-- The DST offsets that twins agree on: those produced so far, and after the completion the result. -/
def State.Shared (s : State) (a : Nat) : Prop :=
  if s.busy then s.work.phase = .body ∧ s.work.Produced a else a < s.outLen.toNat

theorem shared_idle {s : State} (h : s.busy = false) (a : Nat) : s.Shared a ↔ a < s.outLen.toNat := by
  simp [State.Shared, h]

theorem shared_precheck {s : State} (hb : s.busy = true) (hp : s.work.phase = .precheck) (a : Nat) :
    ¬ s.Shared a := by simp [State.Shared, hb, hp]

theorem shared_body {s : State} (hb : s.busy = true) (hp : s.work.phase = .body) (a : Nat) :
    s.Shared a ↔ s.work.Produced a := by simp [State.Shared, hb, hp]

/-! ### Twins -/

/-- The body of the command `op` runs, legally, on its latched input length. -/
structure State.InBody (s : State) (op : BitVec 4) : Prop where
  busy  : s.busy = true
  phase : s.work.phase = .body
  op    : s.work.op = op
  n     : s.work.n = s.srcLen.toNat
  legal : s.BodyLegal

/-- The state without the buffers, the host and the model's own fields. -/
def State.visible (s : State) : State :=
  { s with src := [], dst := [], program := [], schedule := [], saw := [], draws := 0, resets := 0, dstSpoils := [] }

/-- Two states with the same registers, working registers and sizes and the same input, that agree on what the command has
produced. -/
structure Twins (s s' : State) : Prop where
  visible : s'.visible = s.visible
  src     : ∀ a, a < s.srcLen.toNat → s'.src.read a = s.src.read a
  dst     : Memory.AgreeOn s.Shared s.dst s'.dst

theorem Twins.refl (s : State) : Twins s s := ⟨rfl, fun _ _ => rfl, fun _ _ => rfl⟩

section
variable {s s' : State} (h : Twins s s')
include h

theorem Twins.busy : s'.busy = s.busy := (congrArg State.busy h.visible :)
theorem Twins.work : s'.work = s.work := (congrArg State.work h.visible :)
theorem Twins.srcSize : s'.srcSize = s.srcSize := (congrArg State.srcSize h.visible :)
theorem Twins.dstSize : s'.dstSize = s.dstSize := (congrArg State.dstSize h.visible :)

/-- Twins that agree on the result finish as twins. -/
theorem Twins.finish {len : Nat} (hd : ∀ a, a < len → s'.dst.read a = s.dst.read a) :
    Twins (finish len s) (finish len s') where
  visible := congrArg (Machine.finish len) h.visible
  src := h.src
  dst a ha := by
    rw [shared_idle (finish_busy len s), finish_outLen, BitVec.toNat_ofNat] at ha
    exact hd a (ha.trans_le (Nat.mod_le _ _))

/-- Twins fail as twins, whatever DST holds: a failed command has no result. -/
theorem Twins.raiseError (e : CodecError) (pos : Nat) : Twins (raiseError e pos s) (raiseError e pos s') where
  visible := by
    have hvis (u : State) : (Machine.raiseError e pos u).visible = (Machine.raiseError e pos u.visible).visible := by
      cases e <;> rfl
    rw [hvis s', h.visible, ← hvis s]
  src a ha := by
    rw [raiseError_src, raiseError_src]
    exact h.src a (by simpa using ha)
  dst a ha := by simp [shared_idle] at ha

/-- A body step after which both agree on what is produced by then leaves them twins. -/
theorem Twins.goOn {d d' : Memory} {wk : Work} (hb : s.busy = true) (hp : wk.phase = .body)
    (hd : Memory.AgreeOn wk.Produced d d') :
    Twins { s with dst := d, work := wk } { s' with dst := d', work := wk } where
  visible := congrArg (State.setWork · wk) h.visible
  src := h.src
  dst a ha := hd a ((shared_body (by exact hb) (by exact hp) a).1 ha)

theorem Twins.agreeOnProduced {op : BitVec 4} (hs : s.InBody op) :
    Memory.AgreeOn s.work.Produced s.dst s'.dst := fun a ha => h.dst a ((shared_body hs.busy hs.phase a).2 ha)

theorem Twins.sameInput {op : BitVec 4} (hs : s.InBody op) : SameInput s s' :=
  ⟨h.work, h.srcSize, hs.legal.length, fun a ha => h.src a (hs.n ▸ ha)⟩

/-! ### The prechecks -/

theorem Twins.precheck (hb : s.busy = true) : Twins (precheck s) (precheck s') := by
  simp only [Machine.precheck, h.work, h.srcSize, h.dstSize]
  split
  · exact h.raiseError _ _
  split
  · exact h.raiseError _ _
  split
  · exact h.raiseError _ _
  split
  · exact h.raiseError _ _
  · unfold dispatch
    rw [h.work]
    exact h.goOn hb rfl fun a ha => absurd ha (not_produced_dispatch s a)

/-! ### DECOMPRESS -/

theorem Twins.performRecord (hs : s.InBody 0) (len : Nat) (out : List Byte) :
    Lockstep s.src s.work.n Twins (performRecord len out s) (performRecord len out s') := by
  have hcap : s.work.exp ≤ s.dstSize.toNat := (hs.legal.exp_eq_required (by simp [hs.op])).trans_le hs.legal.required_le
  simp only [Machine.performRecord, h.work]
  split
  · rw [emitAll_of_capacity hcap, emitAll_of_capacity (by rwa [h.work, h.dstSize])]
    refine .ok ?_
    simp only [emitted, h.work]
    refine h.goOn hs.busy hs.phase fun a ha => ?_
    have ha : a < s.work.p + min out.length (s.work.exp - s.work.p) := (produced_decompress (by exact hs.op)).1 ha
    refine (h.agreeOnProduced hs).writeAll _ _ a ?_
    simp only [produced_decompress hs.op, List.length_take]
    omega
  · exact .ok (h.raiseError _ _)

theorem Twins.decompressEnd (hs : s.InBody 0) : Twins (decompressEnd s) (decompressEnd s') := by
  simp only [Machine.decompressEnd, h.work]
  split
  · exact h.raiseError _ _
  split
  · exact h.raiseError _ _
  · next hexp =>
    refine h.finish fun a ha => h.agreeOnProduced hs a ?_
    rw [produced_decompress hs.op]
    omega

theorem Twins.decompressStep (hs : s.InBody 0) :
    Lockstep s.src s.work.n Twins (decompressStep s) (decompressStep s') := by
  refine (lockstep_fetchRecord (h.sameInput hs)).bindEq fun fetched _ => ?_
  split
  · exact .ok (h.decompressEnd hs)
  · rw [h.work]; exact .ok (h.raiseError _ _)
  · exact h.performRecord hs 2 _
  · exact h.performRecord hs _ _
  · exact .ok h

/-! ### COMPRESS -/

theorem Twins.compressStep (hs : s.InBody 1) :
    Lockstep s.src s.work.n Twins (compressStep s) (compressStep s') := by
  simp only [Machine.compressStep, h.work]
  split
  · next hi =>
    refine (lockstep_nextRecord (h.sameInput hs) hi).bindEq fun (record, taken) hrec => ?_
    obtain ⟨_, ho⟩ := (bodyRanges_compress hs.op).1 hs.legal.ranges
    obtain ⟨_, hi', ho'⟩ := nextRecord_room hrec hi ho
      (t := s.setWork { s.work with o := s.work.o + record.byteLength, i := s.work.i + taken }) rfl rfl rfl rfl
    have hfit : s.work.o + (encode record).length ≤ s.dstSize.toNat := by
      rw [nextRecord_byteLength hrec]
      exact (ho'.trans (compressRoom_le hi')).trans (required_compress hs.op ▸ hs.legal.required_le)
    have hfit' : s.work.o + (encode record).length ≤ s'.dstSize.toNat := h.dstSize ▸ hfit
    simp only [dstWriteAll_eq_ok.2 ⟨.inr hfit, rfl⟩, dstWriteAll_eq_ok.2 ⟨.inr hfit', rfl⟩, ok_bind, h.work]
    refine .ok (h.goOn hs.busy hs.phase fun a ha => (h.agreeOnProduced hs).writeAll _ _ a ?_)
    have ha : a < s.work.o + record.byteLength := (produced_compress (by exact hs.op)).1 ha
    simp only [produced_compress hs.op, nextRecord_byteLength hrec]
    omega
  · refine .ok (h.finish fun a ha => h.agreeOnProduced hs a ?_)
    rwa [produced_compress hs.op]

end

/-! ### The converters -/

/-- In the middle of a pixel: `t` and `t'` came from `s` and `s'` by writes of DST alone, and agree on `P` of it. -/
structure MidPixel (s s' : State) (P : Nat → Prop) (t t' : State) : Prop where
  left  : t = { s with dst := t.dst }
  right : t' = { s' with dst := t'.dst }
  agree : Memory.AgreeOn P t.dst t'.dst

/-- A byte moved inside the input and inside DST is the same in both. -/
theorem lockstep_moveByte {s s' t t' : State} {P : Nat → Prop} {a b : Nat} (h : SameInput s s')
    (hsize : s'.dstSize = s.dstSize) (hm : MidPixel s s' P t t') (ha : a < s.work.n) (hb : b < s.dstSize.toNat) :
    Lockstep s.src s.work.n (MidPixel s s' fun x => P x ∨ x = b) (moveByte a b t) (moveByte a b t') := by
  obtain ⟨hleft, hright, hagree⟩ := hm
  generalize t.dst = d at hleft hagree
  generalize t'.dst = d' at hright hagree
  subst hleft hright
  refine (lockstep_srcRead (s := s) (s' := s') h ha).bindEq fun v _ => ?_
  rw [dstWrite_eq_ok.2 ⟨by exact hb, rfl⟩, dstWrite_eq_ok.2 ⟨by exact hsize ▸ hb, rfl⟩]
  exact .ok ⟨rfl, rfl, hagree.write b v⟩

/-- What both converters do with a pixel: three bytes moved, then the next index. -/
def movePixel (a₀ b₀ a₁ b₁ a₂ b₂ : Nat) (s : State) : Except Fault State := do
  let s ← moveByte a₀ b₀ s
  let s ← moveByte a₁ b₁ s
  let s ← moveByte a₂ b₂ s
  .ok (nextPixel s)

theorem planarToRgbStep_eq (s : State) :
    planarToRgbStep s =
      let N := s.work.w * s.work.h
      let k := s.work.k
      if k < N then
        movePixel (planeOffset N 2 k) (pixelOffset 2 k) (planeOffset N 1 k) (pixelOffset 1 k)
          (planeOffset N 0 k) (pixelOffset 0 k) s
      else .ok (finish (3 * N) s) := rfl

theorem rgbToPlanarStep_eq (s : State) :
    rgbToPlanarStep s =
      let N := s.work.w * s.work.h
      let k := s.work.k
      if k < N then
        movePixel (pixelOffset 0 k) (planeOffset N 0 k) (pixelOffset 1 k) (planeOffset N 1 k)
          (pixelOffset 2 k) (planeOffset N 2 k) s
      else .ok (finish (3 * N) s) := rfl

section
variable {s : State} {op : BitVec 4} (hs : s.InBody op) (hop : op = 2 ∨ op = 3)
include hs hop

/-- A converter's input is as long as its output (60_exceptions.md R154). -/
theorem length_eq_required : s.work.n = s.required := by
  have hne : s.work.op ≠ 1 := by rw [hs.op]; rcases hop with h | h <;> simp [h]
  exact ((bodyRanges_convert (hs.op ▸ hop)).1 hs.legal.ranges).1.trans (hs.legal.exp_eq_required hne)

theorem planeOffset_lt_required (hk : s.work.k < s.work.w * s.work.h) {c : Nat} (hc : c ≤ 2) :
    planeOffset (s.work.w * s.work.h) c s.work.k < s.required := by
  have hplane : c * (s.work.w * s.work.h) ≤ 2 * (s.work.w * s.work.h) := Nat.mul_le_mul_right _ hc
  rw [required_convert (hs.op ▸ hop), planeOffset]
  omega

theorem pixelOffset_lt_required (hk : s.work.k < s.work.w * s.work.h) (c : Nat) :
    pixelOffset c s.work.k < s.required := by
  rw [required_convert (hs.op ▸ hop), pixelOffset]
  omega

end

section
variable {s s' : State} (h : Twins s s')
include h

/-- Twins move a pixel alike, where all six offsets lie inside the required length and the three written ones are what the
next index adds. -/
theorem Twins.movePixel {op : BitVec 4} (hs : s.InBody op) (hop : op = 2 ∨ op = 3) {a₀ b₀ a₁ b₁ a₂ b₂ : Nat}
    (ha : a₀ < s.required ∧ a₁ < s.required ∧ a₂ < s.required)
    (hb : b₀ < s.required ∧ b₁ < s.required ∧ b₂ < s.required)
    (hnext : ∀ a, Work.Produced { s.work with k := s.work.k + 1 } a →
      ((s.work.Produced a ∨ a = b₀) ∨ a = b₁) ∨ a = b₂) :
    Lockstep s.src s.work.n Twins (movePixel a₀ b₀ a₁ b₁ a₂ b₂ s) (movePixel a₀ b₀ a₁ b₁ a₂ b₂ s') := by
  rw [← length_eq_required hs hop] at ha
  obtain ⟨ha₀, ha₁, ha₂⟩ := ha
  obtain ⟨hb₀, hb₁, hb₂⟩ := hb
  have hin := h.sameInput hs
  have hcap := hs.legal.required_le
  have hstart : MidPixel s s' s.work.Produced s s' := ⟨rfl, rfl, h.agreeOnProduced hs⟩
  refine (lockstep_moveByte hin h.dstSize hstart ha₀ (hb₀.trans_le hcap)).bind fun _ _ _ hm => ?_
  refine (lockstep_moveByte hin h.dstSize hm ha₁ (hb₁.trans_le hcap)).bind fun _ _ _ hm => ?_
  refine (lockstep_moveByte hin h.dstSize hm ha₂ (hb₂.trans_le hcap)).bind fun t t' _ hm => .ok ?_
  obtain ⟨hleft, hright, hagree⟩ := hm
  rw [hleft, hright, nextPixel, nextPixel]
  simp only [h.work]
  exact h.goOn hs.busy hs.phase fun a ha => hagree a (hnext a ha)

theorem Twins.planarToRgbStep (hs : s.InBody 2) :
    Lockstep s.src s.work.n Twins (planarToRgbStep s) (planarToRgbStep s') := by
  simp only [planarToRgbStep_eq, h.work]
  split
  · next hk =>
    have hplane {c : Nat} (hc : c ≤ 2) := planeOffset_lt_required hs (.inl rfl) hk hc
    have hpixel := pixelOffset_lt_required hs (.inl rfl) hk
    refine h.movePixel hs (.inl rfl) ⟨hplane (by omega), hplane (by omega), hplane (by omega)⟩
      ⟨hpixel 2, hpixel 1, hpixel 0⟩ fun a ha => ?_
    have ha : a < 3 * (s.work.k + 1) := (produced_planarToRgb (by exact hs.op)).1 ha
    rw [produced_planarToRgb hs.op, pixelOffset, pixelOffset, pixelOffset]
    omega
  · next hk =>
    refine .ok (h.finish fun a ha => h.agreeOnProduced hs a ?_)
    rw [produced_planarToRgb hs.op]
    omega

theorem Twins.rgbToPlanarStep (hs : s.InBody 3) :
    Lockstep s.src s.work.n Twins (rgbToPlanarStep s) (rgbToPlanarStep s') := by
  simp only [rgbToPlanarStep_eq, h.work]
  split
  · next hk =>
    have hplane {c : Nat} (hc : c ≤ 2) := planeOffset_lt_required hs (.inr rfl) hk hc
    have hpixel := pixelOffset_lt_required hs (.inr rfl) hk
    refine h.movePixel hs (.inr rfl) ⟨hpixel 0, hpixel 1, hpixel 2⟩
      ⟨hplane (by omega), hplane (by omega), hplane (by omega)⟩ fun a ha => ?_
    obtain ⟨c, k, hc, hk', rfl⟩ := (produced_rgbToPlanar (by exact hs.op)).1 ha
    have hk' : k < s.work.k + 1 := hk'
    by_cases hold : k < s.work.k
    · exact .inl (.inl (.inl ((produced_rgbToPlanar hs.op).2 ⟨c, k, hc, hold, rfl⟩)))
    · obtain rfl : k = s.work.k := by omega
      obtain rfl | rfl | rfl : c = 0 ∨ c = 1 ∨ c = 2 := by omega
      · exact .inl (.inl (.inr rfl))
      · exact .inl (.inr rfl)
      · exact .inr rfl
  · next hk =>
    refine .ok (h.finish fun a ha => h.agreeOnProduced hs a ?_)
    have hN : 0 < s.work.w * s.work.h := by omega
    refine (produced_rgbToPlanar hs.op).2 ⟨a / (s.work.w * s.work.h), a % (s.work.w * s.work.h), ?_, ?_, ?_⟩
    · exact Nat.lt_succ_iff.1 ((Nat.div_lt_iff_lt_mul hN).2 ha)
    · exact (Nat.mod_lt a hN).trans_le (not_lt.1 hk)
    · exact (Nat.div_add_mod' a _).symm

/-! ### One core step, and a run of them -/

/-- A core step of a legal command keeps twins, or stops both. -/
theorem Twins.coreStep (hl : s.RunLegal) :
    Lockstep s.src s.srcLen.toNat Twins (coreStep s) (coreStep s') := by
  cases hb : s.busy with
  | false => rw [coreStep_idle hb, coreStep_idle (h.busy.trans hb)]; exact .ok h
  | true =>
    obtain ⟨_, _, _, hn⟩ := hl.latched hb
    simp only [Machine.coreStep, h.busy, hb, h.work, if_true]
    cases hp : s.work.phase with
    | precheck => exact .ok (h.precheck hb)
    | body =>
      have hbody {op : BitVec 4} (hop : s.work.op = op) : s.InBody op := ⟨hb, hp, hop, hn, hl.body hb hp⟩
      rw [← hn]
      simp only [bodyStep, h.work]
      split
      · next hop => exact h.decompressStep (hbody (BitVec.eq_of_toNat_eq hop))
      · next hop => exact h.compressStep (hbody (BitVec.eq_of_toNat_eq hop))
      · next hop => exact h.planarToRgbStep (hbody (BitVec.eq_of_toNat_eq hop))
      · next hop => exact h.rgbToPlanarStep (hbody (BitVec.eq_of_toNat_eq hop))
      · exact .ok (h.raiseError _ _)

/-- A run of core steps keeps twins, or stops both at a byte of the input they started with. -/
theorem Twins.coreRun (hl : s.RunLegal) (fuel : Nat) :
    Lockstep s.src s.srcLen.toNat Twins (coreRun fuel s) (coreRun fuel s') := by
  induction fuel generalizing s s' with
  | zero => exact .ok h
  | succ fuel ih =>
    cases hb : s.busy with
    | false => rw [coreRun_idle hb, coreRun_idle (h.busy.trans hb)]; exact .ok h
    | true =>
      rw [coreRun_busy hb, coreRun_busy (h.busy.trans hb)]
      refine (h.coreStep hl).bind fun t t' ht htwins => ?_
      have hout := sameOutsideCore_coreStep ht
      rw [← hout.src, ← hout.srcLen]
      exact ih htwins (runLegal_coreStep hb hl ht)

end

end Sys2Proof.Machine
end

section
/-! PROOFS. The host's accesses to the register block that are not supported, and to the buffers: one equation per case of
a buffer access. -/

namespace Sys2Proof.Machine

/-! ### Unsupported register accesses -/

theorem regAt_unaligned {off : BitVec 7} (h : off.toNat % 8 ≠ 0) : regAt off = none := if_pos h

/-- An access of another width, or at an offset that is no multiple of 8, finds no register (20_memory.md R58). -/
theorem unsupported_eq_none {off : BitVec 7} {bits : Nat} (h : bits ≠ 64 ∨ off.toNat % 8 ≠ 0) :
    (if bits = 64 then regAt off else none) = none := by
  by_cases hbits : bits = 64
  · rw [if_pos hbits, regAt_unaligned (h.resolve_left (not_not.2 hbits))]
  · exact if_neg hbits

/-! ### A buffer by its name -/

/-- The bytes of a buffer. -/
def State.bufBytes (s : State) (buf : Buffer) : Memory :=
  match buf with
  | .src => s.src
  | .dst => s.dst

/-- The state with other bytes in a buffer. -/
def State.setBuf (s : State) (buf : Buffer) (m : Memory) : State :=
  match buf with
  | .src => { s with src := m }
  | .dst => { s with dst := m }

@[simp] theorem setBuf_busy (s : State) (buf : Buffer) (m : Memory) : (s.setBuf buf m).busy = s.busy := by
  cases buf <;> rfl

@[simp] theorem setBuf_bufSize (s : State) (buf : Buffer) (m : Memory) :
    (s.setBuf buf m).bufSize buf = s.bufSize buf := by cases buf <;> rfl

@[simp] theorem setBuf_bufBytes (s : State) (buf : Buffer) (m : Memory) : (s.setBuf buf m).bufBytes buf = m := by
  cases buf <;> rfl

@[simp] theorem setBuf_setBuf (s : State) (buf : Buffer) (m m' : Memory) :
    (s.setBuf buf m).setBuf buf m' = s.setBuf buf m' := by cases buf <;> rfl

/-- A byte with a value is what the host finds there (20_memory.md R53). -/
theorem currentByte_of_read {s : State} {buf : Buffer} {a : Nat} {b : Byte} (h : (s.bufBytes buf).read a = some b) :
    s.currentByte buf a = b := by
  cases buf with
  | src => simp only [State.bufBytes] at h; simp [State.currentByte, h]
  | dst => simp only [State.bufBytes] at h; simp [State.currentByte, h]

/-- The same byte written again changes nothing. -/
theorem Memory.write_write_same (m : Memory) (a : Nat) (v : Byte) : (m.write a v).write a v = m.write a v := by
  induction m with
  | nil => simp [Memory.write]
  | cons c rest ih =>
    by_cases hlt : a < c.1
    · simp [Memory.write, hlt]
    · by_cases heq : c.1 = a
      · simp [Memory.write, heq]
      · simp [Memory.write, hlt, heq, ih]

/-! ### Buffer accesses, case by case -/

section
variable {s : State} {buf : Buffer} {a : Nat}

theorem hostAccess_bufWrite (buf : Buffer) (a : Nat) (v : Byte) (s : State) :
    hostAccess (.bufWrite buf a v) s =
      if s.busy then s else if s.bufSize buf ≤ a then s else s.setBuf buf ((s.bufBytes buf).write a v) := by
  cases buf <;> rfl

/-- While BUSY = 1 a write is ignored (20_memory.md R54). -/
theorem bufWrite_busy (hb : s.busy = true) (v : Byte) : hostAccess (.bufWrite buf a v) s = s := by
  rw [hostAccess_bufWrite, if_pos hb]

/-- Out of range a write is ignored, busy or idle (20_memory.md R55). -/
theorem bufWrite_outOfRange (ha : s.bufSize buf ≤ a) (v : Byte) : hostAccess (.bufWrite buf a v) s = s := by
  rw [hostAccess_bufWrite, if_pos ha, ite_self]

/-- An idle write in range is one of the buffer's bytes (20_memory.md R53). -/
theorem bufWrite_idle (hb : s.busy = false) (ha : a < s.bufSize buf) (v : Byte) :
    hostAccess (.bufWrite buf a v) s = s.setBuf buf ((s.bufBytes buf).write a v) := by
  rw [hostAccess_bufWrite, if_neg (by simp [hb]), if_neg (not_le.2 ha)]

/-- Any read notes one byte and changes nothing else but the count of free values (20_memory.md R53 to R55). -/
theorem exists_bufRead_eq (buf : Buffer) (a : Nat) (s : State) :
    ∃ x d, hostAccess (.bufRead buf a) s = { s with draws := d, saw := .byte buf a x :: s.saw } := by
  obtain ⟨x, d, h⟩ := exists_hostByte_eq buf a s
  exact ⟨x, d, by simp only [hostAccess, bufRead, h]; rfl⟩

/-- Out of range a read gives 0, busy or idle (20_memory.md R55; log entry 10). -/
theorem bufRead_outOfRange (ha : s.bufSize buf ≤ a) :
    hostAccess (.bufRead buf a) s = { s with saw := .byte buf a 0 :: s.saw } := by
  simp only [hostAccess, bufRead, hostByte, if_pos ha, State.note]

/-- An idle read in range gives the current value (20_memory.md R53). -/
theorem bufRead_idle (hb : s.busy = false) (ha : a < s.bufSize buf) :
    hostAccess (.bufRead buf a) s = { s with saw := .byte buf a (s.currentByte buf a) :: s.saw } := by
  simp only [hostAccess, bufRead, hostByte, if_neg (not_le.2 ha), hb, Bool.false_eq_true, if_false, State.note]

/-- An idle write sets the byte and no other, and repeated changes nothing more (20_memory.md R53). -/
theorem bufWrite_idle_sets (hb : s.busy = false) (ha : a < s.bufSize buf) (v : Byte) :
    ∃ m, hostAccess (.bufWrite buf a v) s = s.setBuf buf m ∧
      (∀ b, Memory.read m b = if b = a then some v else (s.bufBytes buf).read b) ∧
      hostAccess (.bufWrite buf a v) (s.setBuf buf m) = s.setBuf buf m := by
  refine ⟨(s.bufBytes buf).write a v, bufWrite_idle hb ha v, fun b => ?_, ?_⟩
  · rw [Memory.read_write]
    exact if_congr eq_comm rfl rfl
  · rw [bufWrite_idle (by simpa using hb) (by simpa using ha)]
    simp [Memory.write_write_same]

/-- An idle read gives the byte's own value where it has one, and the same again (20_memory.md R53; log entry 7). -/
theorem bufRead_idle_repeats (hb : s.busy = false) (ha : a < s.bufSize buf) :
    ∃ x, (∀ b, (s.bufBytes buf).read a = some b → x = b) ∧
      hostAccess (.bufRead buf a) s = { s with saw := .byte buf a x :: s.saw } ∧
      hostAccess (.bufRead buf a) (hostAccess (.bufRead buf a) s) =
        { s with saw := .byte buf a x :: .byte buf a x :: s.saw } := by
  refine ⟨s.currentByte buf a, fun b => currentByte_of_read, bufRead_idle hb ha, ?_⟩
  rw [bufRead_idle hb ha, bufRead_idle (by exact hb) (by cases buf <;> exact ha)]
  cases buf <;> rfl

end

end Sys2Proof.Machine
end

section
/-! PROOFS. The obligations of 20_memory.md. -/

namespace Sys2Proof.Machine

/-! ### The core's accesses -/

/-- An operation beside itself stops only at an input byte that nothing wrote. -/
theorem safeAnswer_of_lockstep {s : State} {R : State → State → Prop} {x : Except Fault State}
    (h : Lockstep s.src s.srcLen.toNat R x x) : SafeAnswer s (toOut x) := by
  cases h with
  | ok _ => exact .inl ⟨_, rfl⟩
  | fault ha h => exact .inr ⟨_, rfl, ha, h⟩

theorem safeAnswer_coreStep {s : State} (hl : s.RunLegal) : SafeAnswer s (toOut (coreStep s)) :=
  safeAnswer_of_lockstep ((Twins.refl s).coreStep hl)

theorem safeAnswer_issue (op : BitVec 4) (s : State) : SafeAnswer s (issue op s) := by
  unfold issue
  split
  · exact .inl ⟨s, rfl⟩
  · exact safeAnswer_of_lockstep ((Twins.refl (start op s)).coreRun (runLegal_start op s) _)

theorem safeAnswer_hostTurn (s : State) : SafeAnswer s (hostTurn s) := by
  obtain ⟨_, h⟩ | ⟨_, _, _, h⟩ | ⟨_, rest, op, _, _, h⟩ := hostTurn_cases s <;> rw [h]
  · exact .inl ⟨_, rfl⟩
  · exact .inl ⟨_, rfl⟩
  · exact safeAnswer_issue op { s with program := .bus .wait :: rest }

/-- Settles O54: the core's turn and a whole command are lockstep runs beside themselves; every other turn answers a next
state. -/
theorem stepIsSafe : Obligations.StepIsSafe := by
  intro s hi
  have hlegal (rest : List Turn) : State.RunLegal { s with schedule := rest } :=
    (hi.hostFields s.program rest s.saw s.draws).runLegal
  obtain ⟨_, _, h⟩ | ⟨rest, _, h⟩ | ⟨_, _, h⟩ | ⟨rest, _, h⟩ | ⟨_, _, h⟩ := step_cases s <;> rw [h]
  · exact .inl ⟨_, rfl⟩
  · exact safeAnswer_coreStep (hlegal rest)
  · exact safeAnswer_coreStep hi.runLegal
  · exact safeAnswer_hostTurn { s with schedule := rest }
  · exact safeAnswer_hostTurn s

/-- The same command started in two states with the same operands, sizes and input makes twins of them. -/
theorem twins_start {s s' : State} (op : BitVec 4) (hwidth : s'.width = s.width) (hheight : s'.height = s.height)
    (hsrcLen : s'.srcLen = s.srcLen) (hsrcSize : s'.srcSize = s.srcSize) (hdstSize : s'.dstSize = s.dstSize)
    (hsrc : ∀ a, a < s.srcLen.toNat → s'.src.read a = s.src.read a) : Twins (start op s) (start op s') where
  visible := by
    simp only [start, State.latched, State.visible, State.statusStart, hwidth, hheight, hsrcLen, hsrcSize, hdstSize]
  src := hsrc
  dst a ha := absurd ha (shared_precheck (start_busy op s) rfl a)

/-- Settles O27: the two states are twins from the start on, so the one's command completes where the other's does, and
they agree on the registers and on the result. -/
theorem commandResultDependsOnInputsAlone : Obligations.CommandResultDependsOnInputsAlone := by
  intro s s' t i hkind hb hb' hwidth hheight hsrcLen hsrcSize hdstSize hsrc h
  obtain ⟨op, hop⟩ := (op?_isSome_iff i).2 hkind
  simp only [exec_command hop] at h ⊢
  have hidle : t.busy = false := (issue_busy h).trans hb
  obtain ⟨hbusy, _⟩ | ⟨_, hrun⟩ := issue_eq_next.1 h
  · simp [hb] at hbusy
  · have htwins := (twins_start op hwidth hheight hsrcLen hsrcSize hdstSize hsrc).coreRun (runLegal_start op s)
      (stepBound s.srcLen.toNat)
    rw [hrun] at htwins
    generalize hrun' : coreRun (stepBound s.srcLen.toNat) (start op s') = x' at htwins
    cases htwins with
    | @ok _ t' htt =>
      refine ⟨t', issue_eq_next.2 (.inr ⟨hb', hsrcLen ▸ hrun'⟩), (congrArg State.cmdOp htt.visible :), htt.busy,
        (congrArg State.done htt.visible :), (congrArg State.err htt.visible :),
        (congrArg State.ecode htt.visible :), (congrArg State.outLen htt.visible :),
        (congrArg State.errPos htt.visible :), fun a ha => ?_⟩
      exact htt.dst a ((shared_idle hidle a).2 ha)

/-! ### The host's accesses -/

/-- Settles O42: no register stands there. -/
theorem unsupportedRegisterAccess : Obligations.UnsupportedRegisterAccess := by
  intro s off bits v h
  have hnone := unsupported_eq_none h
  refine ⟨?_, Config.freeDword s.draws, ?_⟩
  · simp only [hostAccess, regWrite, hnone]
  · simp only [hostAccess, regRead, hnone, State.note]

/-- Settles O43, for SRC and DST alike: a write is one of the byte alone, a read notes its current value. -/
theorem idleBufferAccess : Obligations.IdleBufferAccess := fun _ _ v hb =>
  ⟨fun ha => ⟨bufWrite_idle_sets (buf := .src) hb ha v, bufRead_idle_repeats (buf := .src) hb ha⟩,
    fun ha => ⟨bufWrite_idle_sets (buf := .dst) hb ha v, bufRead_idle_repeats (buf := .dst) hb ha⟩⟩

/-- Settles O44: the write stops at BUSY, and a read draws at most a free value. -/
theorem busyBufferAccess : Obligations.BusyBufferAccess := fun s buf a v hb =>
  ⟨bufWrite_busy hb v, exists_bufRead_eq buf a s⟩

/-- Settles O45: the range is checked whether or not a command runs. -/
theorem outOfRangeBufferAccess : Obligations.OutOfRangeBufferAccess := fun _ _ v =>
  ⟨fun ha => ⟨bufWrite_outOfRange (buf := .src) ha v, bufRead_outOfRange (buf := .src) ha⟩,
    fun ha => ⟨bufWrite_outOfRange (buf := .dst) ha v, bufRead_outOfRange (buf := .dst) ha⟩⟩

end Sys2Proof.Machine
end

section
/-! PROOFS. The decoder and the encoder: one equation per case of the record decoder, the records it reads, and what it
reads of a CMD word. -/

namespace Sys2Proof

/-! ### Control bytes (30_encoding.md R71, R74) -/

theorem getLsbD_seven (cb : Byte) : cb.getLsbD 7 = decide (128 ≤ cb.toNat) :=
  (BitVec.msb_eq_getLsbD_last cb).symm.trans (BitVec.msb_eq_decide cb)

/-- The control byte of a RUN has bit 7 clear. -/
theorem runControl_lt (r : BitVec 7) : (r.setWidth 8).toNat < 128 := by
  rw [BitVec.toNat_setWidth_of_le (by decide)]
  exact r.isLt

/-- Below 128, the other seven bits are the whole control byte. -/
theorem toNat_runField {cb : Byte} (h : cb.toNat < 128) : (cb.setWidth 7).toNat = cb.toNat := by
  rw [BitVec.toNat_setWidth, Nat.mod_eq_of_lt h]

theorem runLength_ofNat {n : Nat} (h : 3 ≤ n) (h' : n ≤ 130) : runLength (BitVec.ofNat 7 (n - 3)) = n := by
  simp only [runLength, BitVec.toNat_ofNat]
  omega

theorem toNat_literalControl {n : Nat} (h : 1 ≤ n) : (BitVec.ofNat 8 (256 - n)).toNat = 256 - n := by
  rw [BitVec.toNat_ofNat, Nat.mod_eq_of_lt (by omega)]

/-! ### The record decoder, case by case -/

theorem decodeRecord_run {cb : Byte} (h : cb.toNat < 128) (v : Byte) (rest : List Byte) :
    decodeRecord (cb :: v :: rest) = .ok (.run (cb.setWidth 7) v, rest) := if_pos h

theorem decodeRecord_run_truncated {cb : Byte} (h : cb.toNat < 128) :
    decodeRecord [cb] = .error .truncatedRecord := if_pos h

theorem decodeRecord_lit_truncated {cb : Byte} {rest : List Byte} (h : 128 ≤ cb.toNat)
    (hlen : rest.length < literalCount cb) : decodeRecord (cb :: rest) = .error .truncatedRecord :=
  (if_neg (by omega)).trans (if_pos hlen)

theorem decodeRecord_lit {cb : Byte} {rest : List Byte} (h : 128 ≤ cb.toNat) (hlen : literalCount cb ≤ rest.length) :
    decodeRecord (cb :: rest) = .ok (.lit (rest.take (literalCount cb)), rest.drop (literalCount cb)) :=
  (if_neg (by omega)).trans (if_neg (by omega))

/-! ### The records it reads -/

theorem lit_wf_iff (bs : List Byte) : (Instr.lit bs).wf = true ↔ 1 ≤ bs.length ∧ bs.length ≤ 128 := by
  simp [Instr.wf]

theorem decodeRecord_encode {i : Instr} (hkind : i.kind = .record) (hwf : i.wf = true) (rest : List Byte) :
    decodeRecord (encode i ++ rest) = .ok (i, rest) := by
  cases i with
  | run r v =>
    have hfield : (r.setWidth 8).setWidth 7 = r := by simp
    exact (decodeRecord_run (runControl_lt r) v rest).trans (by rw [hfield])
  | lit bs =>
    obtain ⟨hlo, hhi⟩ := (lit_wf_iff bs).1 hwf
    have hcb := toNat_literalControl hlo
    have hcount : literalCount (BitVec.ofNat 8 (256 - bs.length)) = bs.length := by rw [literalCount, hcb]; omega
    have hdecode := decodeRecord_lit (rest := bs ++ rest) (show 128 ≤ (BitVec.ofNat 8 (256 - bs.length)).toNat by omega)
      (by simp [hcount])
    rwa [hcount, List.take_left, List.drop_left] at hdecode
  | decompress => cases hkind
  | compress => cases hkind
  | planarToRgb => cases hkind
  | rgbToPlanar => cases hkind
  | reservedLow x => cases hkind
  | reservedHigh x => cases hkind

/-- A RUN's control byte is put together again from its field. -/
theorem encode_run_of_lt {cb : Byte} (h : cb.toNat < 128) (v : Byte) : encode (.run (cb.setWidth 7) v) = [cb, v] := by
  have hcb : (cb.setWidth 7).setWidth 8 = cb := by
    apply BitVec.eq_of_toNat_eq
    rw [BitVec.toNat_setWidth_of_le (by decide), toNat_runField h]
  rw [encode, hcb]

/-- A literal's control byte is put together again from its length. -/
theorem encode_lit_of_length {cb : Byte} {bs : List Byte} (h : bs.length = literalCount cb) :
    encode (.lit bs) = cb :: bs := by
  have hcb : BitVec.ofNat 8 (256 - bs.length) = cb := by
    rw [h, literalCount, Nat.sub_sub_self cb.isLt.le, BitVec.ofNat_toNat, BitVec.setWidth_eq]
  rw [encode, hcb]

theorem decodeRecord_eq_ok {bs rest : List Byte} {i : Instr} :
    decodeRecord bs = .ok (i, rest) ↔ i.kind = .record ∧ i.wf = true ∧ encode i ++ rest = bs := by
  refine ⟨fun h => ?_, fun ⟨hkind, hwf, hbs⟩ => hbs ▸ decodeRecord_encode hkind hwf rest⟩
  refine ⟨Machine.decodeRecord_kind h, ?_⟩
  match bs with
  | [] => cases h
  | cb :: tail =>
    by_cases hcb : cb.toNat < 128
    · match tail with
      | [] => rw [decodeRecord_run_truncated hcb] at h; cases h
      | v :: tail =>
        rw [decodeRecord_run hcb] at h
        cases h
        exact ⟨rfl, by rw [encode_run_of_lt hcb]; rfl⟩
    · have hcb : 128 ≤ cb.toNat := by omega
      by_cases hlen : tail.length < literalCount cb
      · rw [decodeRecord_lit_truncated hcb hlen] at h; cases h
      · rw [decodeRecord_lit hcb (by omega)] at h
        cases h
        have htake : (tail.take (literalCount cb)).length = literalCount cb := List.length_take_of_le (by omega)
        refine ⟨(lit_wf_iff _).2 ?_, ?_⟩
        · rw [htake, literalCount]
          omega
        · rw [encode_lit_of_length htake, List.cons_append, List.take_append_drop]

/-! ### CMD words (30_encoding.md R78 to R81) -/

theorem encode_length_of_command {i : Instr} (h : i.kind = .command) : (encode i).length = 8 := by
  cases i with
  | run r v => cases h
  | lit bs => cases h
  | decompress => rfl
  | compress => rfl
  | planarToRgb => rfl
  | rgbToPlanar => rfl
  | reservedLow x => rfl
  | reservedHigh x => rfl

theorem decode_command_encode {i : Instr} (h : i.kind = .command) (rest : List Byte) :
    decode .command (encode i ++ rest) = .ok (i, rest) := by
  have hlen := encode_length_of_command h
  have htake : (encode i ++ rest).take 8 = encode i := List.take_left' hlen
  have hdrop : (encode i ++ rest).drop 8 = rest := List.drop_left' hlen
  rw [decode, if_neg (by simp [hlen]), htake, hdrop, Machine.decodeCommand_ofLanes_encode h]

/-- Bits 63:4 are ignored: a word decodes as the one with its OP and zeros there (30_encoding.md R78, R81). -/
theorem decodeCommand_eq_of_op (w : Dword) : decodeCommand w = decodeCommand (commandWord (w.setWidth 4)) := by
  have hop : (commandWord (w.setWidth 4)).toNat % 16 = w.toNat % 16 := by
    simp only [commandWord, BitVec.toNat_setWidth]
    omega
  have hlow : (commandWord (w.setWidth 4)).setWidth 2 = w.setWidth 2 := by
    simp [commandWord, BitVec.setWidth_setWidth_of_le]
  have hhigh : (commandWord (w.setWidth 4)).setWidth 3 = w.setWidth 3 := by
    simp [commandWord, BitVec.setWidth_setWidth_of_le]
  simp only [decodeCommand, hop, hlow, hhigh]

end Sys2Proof
end

section
/-! PROOFS. FILL and DATA: the stream of records each expands to (30_encoding.md R90). -/

namespace Sys2Proof.Machine

theorem isStream_cons {i : Instr} {records : List Instr} :
    Claim.IsStream (i :: records) ↔ (i.kind = .record ∧ i.wf = true) ∧ Claim.IsStream records := List.forall_mem_cons

/-- The records are encodable and decode to the bytes `out`. -/
def DecodesTo (records : List Instr) (out : List Byte) : Prop := Claim.IsStream records ∧ outputOf records = out

theorem decodesTo_nil : DecodesTo [] [] := ⟨by simp [Claim.IsStream], rfl⟩

theorem DecodesTo.run {records : List Instr} {out : List Byte} (h : DecodesTo records out) (r : BitVec 7) (v : Byte) :
    DecodesTo (.run r v :: records) (List.replicate (runLength r) v ++ out) :=
  ⟨isStream_cons.2 ⟨⟨rfl, rfl⟩, h.1⟩, congrArg _ h.2⟩

theorem DecodesTo.lit {records : List Instr} {bs out : List Byte} (h : DecodesTo records out) (hlo : 1 ≤ bs.length)
    (hhi : bs.length ≤ 128) : DecodesTo (.lit bs :: records) (bs ++ out) :=
  ⟨isStream_cons.2 ⟨⟨rfl, (lit_wf_iff bs).2 ⟨hlo, hhi⟩⟩, h.1⟩, congrArg _ h.2⟩

/-- Every record of FILL but the last, which holds what is left, is a RUN of at least 3, so as many records as bytes
suffice. -/
theorem decodesTo_asmFillFrom (v : Byte) {fuel len : Nat} (h : len ≤ fuel) :
    DecodesTo (asmFillFrom fuel len v) (List.replicate len v) := by
  induction fuel generalizing len with
  | zero =>
    obtain rfl : len = 0 := by omega
    exact decodesTo_nil
  | succ fuel ih =>
    unfold asmFillFrom
    split
    · next hrun =>
      have hlength : runLength (BitVec.ofNat 7 (min len 130 - 3)) = min len 130 := runLength_ofNat (by omega) (by omega)
      have hrest : DecodesTo (asmFillFrom fuel (len - min len 130) v) (List.replicate (len - min len 130) v) :=
        ih (by omega)
      have hout := hrest.run (BitVec.ofNat 7 (min len 130 - 3)) v
      rwa [hlength, List.replicate_append_replicate, Nat.add_sub_cancel' (by omega)] at hout
    · split
      · next hzero => exact hzero ▸ decodesTo_nil
      · simpa using decodesTo_nil.lit (bs := List.replicate len v) (by simp; omega) (by simp; omega)

theorem decodesTo_asmDataFrom {fuel : Nat} {bs : List Byte} (h : bs.length ≤ fuel) :
    DecodesTo (asmDataFrom fuel bs) bs := by
  induction fuel generalizing bs with
  | zero =>
    obtain rfl : bs = [] := List.eq_nil_of_length_eq_zero (by omega)
    exact decodesTo_nil
  | succ fuel ih =>
    unfold asmDataFrom
    split
    · next hnil => exact hnil ▸ decodesTo_nil
    · next hne =>
      have hpos : 0 < bs.length := List.length_pos_of_ne_nil hne
      have hrest : DecodesTo (asmDataFrom fuel (bs.drop 128)) (bs.drop 128) := ih (by rw [List.length_drop]; omega)
      have htake : (bs.take 128).length = min 128 bs.length := List.length_take
      have hout := hrest.lit (bs := bs.take 128) (by omega) (by omega)
      rwa [List.take_append_drop] at hout

end Sys2Proof.Machine
end

section
/-! PROOFS. The obligations of 30_encoding.md. -/

namespace Sys2Proof.Machine

/-! ### Decoding and encoding -/

/-- Settles O1: the record decoder on a record's bytes, the command decoder on a CMD word's lanes. -/
theorem decodeOfEncodeIsInstruction : Obligations.DecodeOfEncodeIsInstruction := by
  intro i rest hwf
  cases hkind : i.kind with
  | record => exact decodeRecord_encode hkind hwf rest
  | command => exact decode_command_encode hkind rest

/-- Settles O2: what the record decoder reads, and from which bytes. -/
theorem encodeOfDecodedRecordIsStream : Obligations.EncodeOfDecodedRecordIsStream := fun _ _ _ =>
  decodeRecord_eq_ok.1

/-- Settles O3: bit 7 says on which side of 128 the control byte is, and the decoder's equations do the rest. -/
theorem controlByteSelectsRecord : Obligations.ControlByteSelectsRecord := by
  intro cb rest
  refine ⟨fun hbit => ?_, fun hbit => ?_⟩
  · have hcb : cb.toNat < 128 := by
      rw [getLsbD_seven, decide_eq_false_iff_not] at hbit
      omega
    refine ⟨?_, ?_⟩
    · rintro rfl
      exact decodeRecord_run_truncated hcb
    · rintro v rest' rfl
      exact ⟨_, decodeRecord_run hcb v rest', by rw [runLength, toNat_runField hcb]⟩
  · have hcb : 128 ≤ cb.toNat := by rwa [getLsbD_seven, decide_eq_true_eq] at hbit
    exact ⟨decodeRecord_lit_truncated hcb, decodeRecord_lit hcb⟩

/-- Settles O4: the decoder runs on nine closed words. -/
theorem knownWordsDecode : Obligations.KnownWordsDecode := by
  unfold Obligations.KnownWordsDecode
  decide

/-- Words with one OP start one command. -/
theorem setWidth_four_eq_of_mod {w w' : Dword} (h : w.toNat % 16 = w'.toNat % 16) :
    (w.setWidth 4 : BitVec 4) = w'.setWidth 4 :=
  BitVec.eq_of_toNat_eq (by simpa only [BitVec.toNat_setWidth] using h)

/-- Settles O5: a word decodes as its OP does, so the map is a table of sixteen rows; a CMD write takes only the OP. -/
theorem commandOpcodeMap : Obligations.CommandOpcodeMap := by
  refine ⟨fun w => ?_, fun w w' s h => ?_⟩
  · have hop : w.toNat % 16 = (w.setWidth 4 : BitVec 4).toNat := (BitVec.toNat_setWidth 4 w).symm
    rw [decodeCommand_eq_of_op, hop]
    generalize (w.setWidth 4 : BitVec 4) = op
    revert op
    decide
  · have hop := setWidth_four_eq_of_mod h
    refine ⟨by rw [decodeCommand_eq_of_op w, decodeCommand_eq_of_op w', hop], ?_⟩
    have hwrite (v : Dword) := (hostAccess_regWrite .cmd (regAt_offset .cmd) v s).trans (writeReg_cmd v s)
    exact (hwrite w).trans (hop ▸ (hwrite w').symm)

/-! ### Reserved OPs and WAIT -/

/-- A reserved OP fails at the first precheck, in the one core step the command takes (60_exceptions.md R154). -/
theorem issue_reserved {op : BitVec 4} (hop : 4 ≤ op.toNat) {s : State} (hb : s.busy = false) :
    issue op s = .next { Claim.failed op 5 0 s with work := Work.blank } := by
  have hstep : coreStep (start op s) = .ok (raiseError .illegalOp 0 (start op s)) :=
    congrArg Except.ok (if_pos hop)
  refine issue_eq_next.2 (.inr ⟨hb, ?_⟩)
  rw [stepBound, coreRun_busy (start_busy op s), hstep, ok_bind, coreRun_idle (raiseError_busy _ _ _)]
  rfl

/-- Settles O22: both families' OPs are 4 and above. -/
theorem reservedOpIsIllegal : Obligations.ReservedOpIsIllegal := by
  refine ⟨fun s x hb => ?_, fun s x hb => ?_⟩
  · have hop : 1#2 ++ x = BitVec.ofNat 4 (4 + x.toNat) := by revert x; decide
    have hreserved : 4 ≤ (1#2 ++ x).toNat := by revert x; decide
    exact ⟨_, (exec_command rfl s).trans (issue_reserved hreserved hb), by rw [hop]⟩
  · have hop : 1#1 ++ x = BitVec.ofNat 4 (8 + x.toNat) := by revert x; decide
    have hreserved : 4 ≤ (1#1 ++ x).toNat := by revert x; decide
    exact ⟨_, (exec_command rfl s).trans (issue_reserved hreserved hb), by rw [hop]⟩

/-- Settles O46: the read of STATUS, then WAIT again or not. -/
theorem waitRepeatsWhileBusy : Obligations.WaitRepeatsWhileBusy := by
  intro s
  have hread : regRead 0x08 64 s = { s with saw := .reg 0x08 s.statusWord :: s.saw } :=
    hostAccess_regRead .status (regAt_offset .status) s
  have hwait : hostAccess .wait s =
      if s.busy then (regRead 0x08 64 s).hostNext (.bus .wait) else regRead 0x08 64 s := rfl
  rw [hwait, hread]
  cases s.busy with
  | true => rfl
  | false => rfl

/-! ### The container's header -/

theorem toNat_append_bytes (hi lo : Byte) : (hi ++ lo : Half).toNat = lo.toNat + 256 * hi.toNat := by
  rw [BitVec.toNat_append, ← Nat.shiftLeft_add_eq_or_of_lt lo.isLt, Nat.shiftLeft_eq]
  omega

theorem highByte_append_lowByte (x : Half) : highByte x ++ lowByte x = x := by
  apply BitVec.eq_of_toNat_eq
  rw [toNat_append_bytes]
  simp only [lowByte, highByte, BitVec.toNat_setWidth, BitVec.extractLsb'_toNat, Nat.shiftRight_eq_div_pow]
  omega

/-- Settles O55: two bytes are a field's number, and the field's two bytes are the field. -/
theorem headerRoundTrip : Obligations.HeaderRoundTrip := by
  refine ⟨fun b0 b1 b2 b3 b4 b5 b6 b7 rest => ?_, fun h rest => ?_, fun h => ⟨rfl, rfl⟩, fun bytes hlen => ?_⟩
  · exact ⟨_, rfl, toNat_append_bytes b1 b0, toNat_append_bytes b3 b2, rfl⟩
  · simp only [writeHeader, List.cons_append, parseHeader, highByte_append_lowByte]
  · unfold parseHeader
    split
    · simp only [List.length_cons] at hlen
      omega
    · rfl

/-! ### FILL and DATA -/

/-- Settles O56: both expansions have fuel for every byte. -/
theorem fillAndDataDecodeToTheirBytes : Obligations.FillAndDataDecodeToTheirBytes :=
  ⟨fun len v _ => decodesTo_asmFillFrom v (le_refl len), fun bs _ => decodesTo_asmDataFrom (le_refl bs.length)⟩

end Sys2Proof.Machine
end

section
/-! PROOFS. A record at the cursor of a DECOMPRESS: what the fetch finds there, what its instruction does, and where the
command ends. -/

namespace Sys2Proof.Machine

/-! ### The bytes of a record -/

/-- A record's encoding is a control byte, which tells its length, and its data bytes (30_encoding.md R75). -/
theorem exists_encode_eq_cons {i : Instr} (hkind : i.kind = .record) (hwf : i.wf = true) :
    ∃ cb data, encode i = cb :: data ∧ recordLength cb = i.byteLength ∧ data.length + 1 = i.byteLength := by
  cases i with
  | run r v => exact ⟨_, _, rfl, if_pos (runControl_lt r), rfl⟩
  | lit bs =>
    obtain ⟨hlo, hhi⟩ := (lit_wf_iff bs).1 hwf
    refine ⟨_, _, rfl, ?_, Nat.add_comm _ 1⟩
    rw [recordLength, literalCount, toNat_literalControl hlo, if_neg (by omega), Instr.byteLength]
    omega
  | decompress => cases hkind
  | compress => cases hkind
  | planarToRgb => cases hkind
  | rgbToPlanar => cases hkind
  | reservedLow x => cases hkind
  | reservedHigh x => cases hkind

theorem encode_length_of_record {i : Instr} (hkind : i.kind = .record) (hwf : i.wf = true) :
    (encode i).length = i.byteLength := by
  obtain ⟨cb, data, hencode, _, hlen⟩ := exists_encode_eq_cons hkind hwf
  rw [hencode, List.length_cons, hlen]

/-- A block is read in two parts. -/
theorem Memory.readAll_append {m : Memory} {a : Nat} {xs ys : List Byte} :
    Memory.readAll m a (xs ++ ys).length = some (xs ++ ys) ↔
      Memory.readAll m a xs.length = some xs ∧ Memory.readAll m (a + xs.length) ys.length = some ys := by
  induction xs generalizing a with
  | nil => simp [Memory.readAll]
  | cons x xs ih =>
    simp only [List.cons_append, List.length_cons, Memory.readAll_succ, List.cons.injEq]
    rw [Nat.add_comm xs.length 1, ← Nat.add_assoc]
    constructor
    · rintro ⟨_, _, ⟨rfl, rfl⟩, hx, hrest⟩
      obtain ⟨hxs, hys⟩ := ih.1 hrest
      exact ⟨⟨_, _, ⟨rfl, rfl⟩, hx, hxs⟩, hys⟩
    · rintro ⟨⟨_, _, ⟨rfl, rfl⟩, hx, hxs⟩, hys⟩
      exact ⟨_, _, ⟨rfl, rfl⟩, hx, ih.2 ⟨hxs, hys⟩⟩

/-! ### The fetch (40_decompress.md R103, R107, R108) -/

section
variable {s : State}

theorem fetchRecord_end (h : s.work.n ≤ s.work.pc) : fetchRecord s = .ok .endOfStream := if_neg (by omega)

/-- The control byte alone tells that the record passes the end of the stream. -/
theorem fetchRecord_truncated {cb : Byte} (hpc : s.work.pc < s.work.n) (hn : s.work.n ≤ s.srcSize.toNat)
    (hcb : s.src.read s.work.pc = some cb) (hlen : s.work.n < s.work.pc + recordLength cb) :
    fetchRecord s = .ok .truncated := by
  have hread : srcRead s s.work.pc = .ok cb := srcRead_eq_ok.2 ⟨by omega, hcb⟩
  rw [fetchRecord, if_pos hpc, hread, ok_bind, if_neg (by omega)]

/-- A whole record is fetched from its encoding. -/
theorem fetchRecord_encode {i : Instr} (hkind : i.kind = .record) (hwf : i.wf = true)
    (hfit : s.work.pc + i.byteLength ≤ s.work.n) (hn : s.work.n ≤ s.srcSize.toNat)
    (hread : s.src.readAll s.work.pc i.byteLength = some (encode i)) : fetchRecord s = .ok (.record i) := by
  obtain ⟨cb, data, hencode, hlen, hdata⟩ := exists_encode_eq_cons hkind hwf
  have hdecode : decodeRecord (cb :: data) = .ok (i, []) := by
    simpa [hencode] using decodeRecord_encode hkind hwf []
  rw [hencode, ← hdata, Memory.readAll_succ] at hread
  obtain ⟨_, _, heq, hcb, hrest⟩ := hread
  cases heq
  have hcb' : srcRead s s.work.pc = .ok cb := srcRead_eq_ok.2 ⟨by omega, hcb⟩
  have hrest' : srcReadAll s (s.work.pc + 1) (recordLength cb - 1) = .ok data := by
    rw [hlen, ← hdata, Nat.add_sub_cancel]
    exact srcReadAll_eq_ok.2 ⟨hrest, .inr (by omega)⟩
  rw [fetchRecord, if_pos (by omega), hcb', ok_bind, if_pos (by omega), hrest', ok_bind, hdecode]

/-! ### A record's instruction -/

/-- A record is performed as its bytes and its output say (40_decompress.md R105, R106). -/
theorem exec_record {i : Instr} (hd : s.decompressing = true) (hkind : i.kind = .record) :
    exec i s = toOut (performRecord i.byteLength i.output s) := by
  cases i with
  | run r v => exact if_pos hd
  | lit bs => exact if_pos hd
  | decompress => cases hkind
  | compress => cases hkind
  | planarToRgb => cases hkind
  | rgbToPlanar => cases hkind
  | reservedLow x => cases hkind
  | reservedHigh x => cases hkind

/-- The core's turn at a fetched record is its instruction. -/
theorem coreTurn_record {i : Instr} (hd : s.decompressing = true) (hfetch : fetchRecord s = .ok (.record i)) :
    coreTurn s = exec i s := by
  rw [coreTurn, if_pos hd, hfetch]

/-- The state with the cursor `len` bytes further and their output `out` emitted, `pos` the offset noted for an
overrun. -/
def State.consumed (s : State) (len : Nat) (out : List Byte) (pos : Nat) : State :=
  (emitted s out).setWork { (emitted s out).work with pc := s.work.pc + len, overpos := pos }

/-- The overrun offset after the record at the cursor emitted `out` (40_decompress.md R104). -/
def State.overposAfter (s : State) (out : List Byte) : Nat := (emitted s out).work.overpos

theorem performRecord_fits {len : Nat} {out : List Byte} (hcap : s.work.exp ≤ s.dstSize.toNat)
    (hfit : s.work.pc + len ≤ s.work.n) :
    performRecord len out s = .ok (s.consumed len out (s.overposAfter out)) :=
  performRecord_eq_ok.2 (.inl ⟨hfit, emitAll_of_capacity hcap out, rfl⟩)

theorem performRecord_truncated {len : Nat} {out : List Byte} (h : s.work.n < s.work.pc + len) :
    performRecord len out s = .ok (raiseError .truncatedStream s.work.pc s) :=
  performRecord_eq_ok.2 (.inr ⟨h, rfl⟩)

/-- What DST holds after output went through the primitive: the bytes below the expected length, from `p` up. -/
theorem emitted_dst_read (s : State) (out : List Byte) (a : Nat) :
    (emitted s out).dst.read a =
      if s.work.p ≤ a ∧ a < s.work.p + min out.length (s.work.exp - s.work.p) then out[a - s.work.p]?
      else s.dst.read a := by
  rw [emitted, Memory.read_writeAll, List.length_take, Nat.min_comm]
  split
  · rw [List.getElem?_take_of_lt (by omega)]
  · rfl

/-- A record that fits appends the part of its output that lies below the expected length, notes an overrun, moves the
cursor, and nothing else changes (40_decompress.md R104 to R106). -/
theorem exists_performed {i : Instr} {len pc : Nat} (hd : s.decompressing = true) (hkind : i.kind = .record)
    (hcap : s.work.exp ≤ s.dstSize.toNat) (hlen : i.output.length = len) (hpc : s.work.pc + i.byteLength = pc)
    (hfit : pc ≤ s.work.n) :
    ∃ t, exec i s = .next t ∧
      t = { s with
        dst := t.dst
        work := { s.work with
          pc := pc
          p := s.work.p + min len (s.work.exp - s.work.p)
          overrun := s.work.overrun || decide (s.work.exp - s.work.p < len)
          overpos := if s.work.overrun = false ∧ s.work.exp - s.work.p < len then s.work.pc else s.work.overpos } } ∧
      ∀ a, t.dst.read a =
        if s.work.p ≤ a ∧ a < s.work.p + min len (s.work.exp - s.work.p) then i.output[a - s.work.p]?
        else s.dst.read a := by
  subst hlen hpc
  refine ⟨s.consumed i.byteLength i.output (s.overposAfter i.output), ?_, rfl, emitted_dst_read s i.output⟩
  rw [exec_record hd hkind, performRecord_fits hcap hfit]
  rfl

/-- A record that passes the end of the stream ends the command (40_decompress.md R107). -/
theorem exec_record_truncated {i : Instr} (hd : s.decompressing = true) (hkind : i.kind = .record)
    (h : s.work.n < s.work.pc + i.byteLength) : exec i s = .next (raiseError .truncatedStream s.work.pc s) := by
  rw [exec_record hd hkind, performRecord_truncated h]
  rfl

/-! ### An error ends the command (60_exceptions.md R158, R159) -/

/-- An operation that raises an error answers the failed command, DST from the expected length up as it was. -/
theorem exists_failed {r : Out} {e : CodecError} {pos : Nat} (h : r = .next (raiseError e pos s)) :
    ∃ t, r = .next t ∧
      t = { Claim.failed s.cmdOp e.code pos s with work := t.work, dst := t.dst, dstSpoils := t.dstSpoils } ∧
      Claim.SameFrom s.work.exp s.dst t.dst := by
  refine ⟨_, h, by cases e <;> rfl, fun a ha => ?_⟩
  rw [raiseError_dst]
  split
  · rw [Memory.read_forget, if_pos ha]
  · rfl

end

end Sys2Proof.Machine
end

section
/-! PROOFS. A DECOMPRESS that stands before the rest of its stream: the core steps that perform whole records, one after
the other, and the whole command made of them. -/

namespace Sys2Proof.Machine

/-! ### Core steps one after the other -/

/-- A running command makes one core step. -/
def CoreMove (s t : State) : Prop := s.busy = true ∧ coreStep s = .ok t

/-- A command makes some core steps. -/
abbrev CoreMoves : State → State → Prop := Relation.ReflTransGen CoreMove

/-- Core steps that end in a completion are the run with any fuel that suffices. -/
theorem coreRun_of_moves {s t : State} (h : CoreMoves s t) (ht : t.busy = false) {fuel : Nat} (hl : s.RunLegal)
    (hfuel : s.stepsLeft ≤ fuel) : coreRun fuel s = .ok t := by
  induction h using Relation.ReflTransGen.head_induction_on generalizing fuel with
  | refl => exact coreRun_idle ht fuel
  | head hmove _ ih =>
    obtain ⟨hb, hstep⟩ := hmove
    have hless := stepsLeft_coreStep hb hl hstep
    obtain ⟨fuel, rfl⟩ : ∃ f, fuel = f + 1 := ⟨fuel - 1, by omega⟩
    rw [coreRun_busy hb, hstep, ok_bind]
    exact ih (runLegal_coreStep hb hl hstep) (by omega)

theorem stepsLeft_start (op : BitVec 4) (s : State) : (start op s).stepsLeft = stepBound s.srcLen.toNat :=
  stepsLeft_precheck (start_busy op s) rfl

/-- A command issued to an idle core answers the state its core steps end in. -/
theorem coreRun_start {op : BitVec 4} {s t : State} (h : CoreMoves (start op s) t) (ht : t.busy = false) :
    coreRun (stepBound s.srcLen.toNat) (start op s) = .ok t :=
  coreRun_of_moves h ht (runLegal_start op s) (stepsLeft_start op s).le

/-! ### The rest of the stream -/

/-- A DECOMPRESS in its record loop, with `bytes` the rest of its stream from the cursor to the end. -/
structure State.Facing (s : State) (bytes : List Byte) : Prop where
  decompressing : s.decompressing = true
  inSrc         : s.work.n ≤ s.srcSize.toNat
  capacity      : s.work.exp ≤ s.dstSize.toNat
  toEnd         : s.work.pc + bytes.length = s.work.n
  stream        : s.src.readAll s.work.pc bytes.length = some bytes

section
variable {s : State}

theorem State.Facing.busy {bytes : List Byte} (h : s.Facing bytes) : s.busy = true :=
  (decompressing_iff.1 h.decompressing).1

@[simp] theorem consumed_pc (len : Nat) (out : List Byte) (pos : Nat) :
    (s.consumed len out pos).work.pc = s.work.pc + len := rfl
@[simp] theorem consumed_p (len : Nat) (out : List Byte) (pos : Nat) :
    (s.consumed len out pos).work.p = s.work.p + min out.length (s.work.exp - s.work.p) := rfl
@[simp] theorem consumed_exp (len : Nat) (out : List Byte) (pos : Nat) :
    (s.consumed len out pos).work.exp = s.work.exp := rfl
@[simp] theorem consumed_n (len : Nat) (out : List Byte) (pos : Nat) :
    (s.consumed len out pos).work.n = s.work.n := rfl
@[simp] theorem consumed_overrun (len : Nat) (out : List Byte) (pos : Nat) :
    (s.consumed len out pos).work.overrun = (s.work.overrun || decide (s.work.exp - s.work.p < out.length)) := rfl
@[simp] theorem consumed_overpos (len : Nat) (out : List Byte) (pos : Nat) :
    (s.consumed len out pos).work.overpos = pos := rfl

theorem consumed_dst_of_room {out : List Byte} (h : out.length ≤ s.work.exp - s.work.p) (len pos : Nat) :
    (s.consumed len out pos).dst = s.dst.writeAll s.work.p out :=
  congrArg (s.dst.writeAll s.work.p) (List.take_of_length_le h)

theorem consumed_zero (s : State) : s.consumed 0 [] s.work.overpos = s := by
  rw [State.consumed, emitted_nil]
  rfl

/-- Stretch after stretch is one stretch. -/
theorem consumed_consumed (s : State) (len len' : Nat) (out out' : List Byte) (pos pos' : Nat) :
    (s.consumed len out pos).consumed len' out' pos' = s.consumed (len + len') (out ++ out') pos' := by
  calc (s.consumed len out pos).consumed len' out' pos'
      = (emitted (emitted s out) out').setWork { (emitted (emitted s out) out').work with
          pc := s.work.pc + len + len', overpos := pos' } := rfl
    _ = s.consumed (len + len') (out ++ out') pos' := by rw [emitted_append, Nat.add_assoc]; rfl

theorem State.Facing.consumed {bytes rest : List Byte} (h : s.Facing (bytes ++ rest)) (out : List Byte) (pos : Nat) :
    (s.consumed bytes.length out pos).Facing rest where
  decompressing := h.decompressing
  inSrc := h.inSrc
  capacity := h.capacity
  toEnd := by
    have hend := h.toEnd
    rw [List.length_append] at hend
    rw [consumed_pc, consumed_n]
    omega
  stream := (Memory.readAll_append.1 h.stream).2

/-- The core step at a whole record performs it. -/
theorem State.Facing.coreMove_record {i : Instr} {rest : List Byte} (h : s.Facing (encode i ++ rest))
    (hkind : i.kind = .record) (hwf : i.wf = true) :
    CoreMove s (s.consumed (encode i).length i.output (s.overposAfter i.output)) := by
  have hlen := encode_length_of_record hkind hwf
  have hfit : s.work.pc + i.byteLength ≤ s.work.n := by
    have hend := h.toEnd
    rw [List.length_append] at hend
    omega
  have hread := (Memory.readAll_append.1 h.stream).1
  rw [hlen] at hread
  have hfetch := fetchRecord_encode hkind hwf hfit h.inSrc hread
  have hperform := performRecord_fits (out := i.output) h.capacity hfit
  have hturn := coreTurn_record h.decompressing hfetch
  rw [coreTurn_eq, exec_record h.decompressing hkind, hperform] at hturn
  exact ⟨h.busy, hlen ▸ toOut_eq_next.1 hturn⟩

/-- The core step at a record cut short ends the command. -/
theorem State.Facing.coreMove_truncated {tail : List Byte} (h : s.Facing tail) (htail : Claim.IsTruncated tail) :
    CoreMove s (raiseError .truncatedStream s.work.pc s) := by
  obtain ⟨cb, rest, rfl, hlen⟩ := htail
  have hend := h.toEnd
  rw [List.length_cons] at hend
  obtain ⟨_, _, heq, hcb, _⟩ := (Memory.readAll_succ _ _ _ _).1 h.stream
  cases heq
  have hcut : rest.length + 1 < recordLength cb := hlen
  have hfetch := fetchRecord_truncated (by omega) h.inSrc hcb (by omega)
  refine ⟨h.busy, ?_⟩
  rw [coreStep_decompressing h.decompressing, decompressStep, hfetch]
  rfl

/-- The core step at the end of the stream is the end check. -/
theorem State.Facing.coreMove_end (h : s.Facing []) : CoreMove s (decompressEnd s) := by
  have hfetch := fetchRecord_end h.toEnd.ge
  refine ⟨h.busy, ?_⟩
  rw [coreStep_decompressing h.decompressing, decompressStep, hfetch]
  rfl

/-- A first overrun is noted once. -/
theorem overposAfter_of_overrun (h : s.work.overrun = true) (out : List Byte) :
    s.overposAfter out = s.work.overpos := if_neg (by simp [h])

/-- The record that overruns first is the one noted. -/
theorem overposAfter_of_first (h : s.work.overrun = false) {out : List Byte}
    (hout : s.work.exp - s.work.p < out.length) : s.overposAfter out = s.work.pc := if_pos ⟨h, hout⟩

/-- Whole records are performed one after the other, each moving the cursor and emitting its output; an overrun noted
before stays noted where it was. -/
theorem State.Facing.moves_records {records : List Instr} {tail : List Byte}
    (h : s.Facing (assemble records ++ tail)) (hrecords : Claim.IsStream records) :
    ∃ pos, (s.work.overrun = true → pos = s.work.overpos) ∧
      CoreMoves s (s.consumed (assemble records).length (outputOf records) pos) := by
  induction records generalizing s with
  | nil =>
    refine ⟨s.work.overpos, fun _ => rfl, ?_⟩
    show CoreMoves s (s.consumed 0 [] s.work.overpos)
    rw [consumed_zero]
  | cons i records ih =>
    obtain ⟨⟨hkind, hwf⟩, hrest⟩ := isStream_cons.1 hrecords
    have hbytes : assemble (i :: records) = encode i ++ assemble records := rfl
    rw [hbytes, List.append_assoc] at h
    obtain ⟨pos, hpos, hmoves⟩ := ih (h.consumed i.output (s.overposAfter i.output)) hrest
    rw [consumed_consumed, ← List.length_append] at hmoves
    refine ⟨pos, fun hover => ?_, .head (h.coreMove_record hkind hwf) hmoves⟩
    exact (hpos (by simp [hover])).trans (overposAfter_of_overrun hover _)

/-! ### The end check (40_decompress.md R108) -/

theorem decompressEnd_overrun (h : s.work.overrun = true) :
    decompressEnd s = raiseError .sizeMismatch s.work.overpos s := if_pos h

theorem decompressEnd_short (hover : s.work.overrun = false) (hp : s.work.p ≠ s.work.exp) :
    decompressEnd s = raiseError .sizeMismatch s.work.n s := (if_neg (by simp [hover])).trans (if_pos hp)

theorem decompressEnd_exact (hover : s.work.overrun = false) (hp : s.work.p = s.work.exp) :
    decompressEnd s = finish s.work.exp s := (if_neg (by simp [hover])).trans (if_neg (by simpa using hp))

/-! ### The whole command -/

/-- A DECOMPRESS past its prechecks (60_exceptions.md R154, 40_decompress.md R102). -/
def decompressEntry (s : State) : State := dispatch (start 0 s)

@[simp] theorem decompressEntry_pc (s : State) : (decompressEntry s).work.pc = 0 := rfl
@[simp] theorem decompressEntry_p (s : State) : (decompressEntry s).work.p = 0 := rfl
@[simp] theorem decompressEntry_overrun (s : State) : (decompressEntry s).work.overrun = false := rfl
@[simp] theorem decompressEntry_exp (s : State) :
    (decompressEntry s).work.exp = 3 * s.width.toNat * s.height.toNat := rfl

/-- A DECOMPRESS whose lengths are in range passes its prechecks and stands before its whole stream. -/
theorem decompressEntry_facing {bytes : List Byte} (hread : s.src.readAll 0 s.srcLen.toNat = some bytes)
    (hn : s.srcLen.toNat ≤ s.srcSize.toNat) (hcap : 3 * s.width.toNat * s.height.toNat ≤ s.dstSize.toNat) :
    (decompressEntry s).Facing bytes ∧ CoreMove (start 0 s) (decompressEntry s) := by
  have hlen : bytes.length = s.srcLen.toNat := ((Memory.readAll_eq_some _ _ _ _).1 hread).1
  have hpass : precheck (start 0 s) = decompressEntry s := by
    obtain ⟨hop, _⟩ | ⟨_, hbad, _⟩ | ⟨_, _, _, hshort, _⟩ | ⟨_, _, _, _, h⟩ := precheck_cases (start 0 s)
    · exact absurd hop (by simp)
    · simp only [start_srcSize, start_work, latched_n, latched_op] at hbad
      rcases hbad with hbad | ⟨hop, _⟩
      · omega
      · simp at hop
    · exact absurd (show s.dstSize.toNat < 3 * s.width.toNat * s.height.toNat from hshort) (by omega)
    · exact h
  refine ⟨⟨rfl, hn, hcap, ?_, hlen ▸ hread⟩, rfl, congrArg Except.ok hpass⟩
  exact (Nat.zero_add _).trans hlen

end

/-- What is the core's, and the rest as it was. -/
theorem SameOutsideCore.eq {s t : State} (h : SameOutsideCore s t) :
    t = { s with
      busy := t.busy, done := t.done, err := t.err, ecode := t.ecode, outLen := t.outLen, errPos := t.errPos
      work := t.work, dst := t.dst, dstSpoils := t.dstSpoils } := by
  rw [← h.cmdOp, ← h.width, ← h.height, ← h.srcLen, ← h.srcSize, ← h.dstSize, ← h.src, ← h.program, ← h.schedule,
    ← h.saw, ← h.draws, ← h.resets]

/-- A DECOMPRESS whose core steps end in an error answers the failed command. -/
theorem decompress_fails {s u : State} {e : CodecError} {pos : Nat} (hb : s.busy = false)
    (h : CoreMoves (start 0 s) (raiseError e pos u)) :
    ∃ t, exec .decompress s = .next t ∧
      t = { Claim.failed 0 e.code pos s with work := t.work, dst := t.dst, dstSpoils := t.dstSpoils } ∧
      Claim.SameFrom (3 * s.width.toNat * s.height.toNat) s.dst t.dst := by
  have hrun := coreRun_start h (raiseError_busy e pos u)
  have hout := sameOutsideCore_coreRun hrun
  exact ⟨_, issue_eq_next.2 (.inr ⟨hb, hrun⟩), hout.eq.trans (by cases e <;> rfl), sameFrom_coreRun hrun⟩

/-- A DECOMPRESS performs the whole records its stream begins with, and stands before the rest. -/
theorem decompress_records {s : State} {records : List Instr} {tail : List Byte} (hrecords : Claim.IsStream records)
    (hread : s.src.readAll 0 s.srcLen.toNat = some (assemble records ++ tail))
    (hn : s.srcLen.toNat ≤ s.srcSize.toNat) (hcap : 3 * s.width.toNat * s.height.toNat ≤ s.dstSize.toNat) :
    ∃ pos,
      ((decompressEntry s).consumed (assemble records).length (outputOf records) pos).Facing tail ∧
      CoreMoves (start 0 s) ((decompressEntry s).consumed (assemble records).length (outputOf records) pos) := by
  obtain ⟨hfacing, hentry⟩ := decompressEntry_facing hread hn hcap
  obtain ⟨pos, _, hmoves⟩ := hfacing.moves_records hrecords
  exact ⟨pos, hfacing.consumed _ pos, .head hentry hmoves⟩

end Sys2Proof.Machine
end

section
/-! PROOFS. How a command ends: its completion, how many core steps are left until then, and the fault that stops it. -/

namespace Sys2Proof.Machine

/-- A core step leaves the command running, or completed with OUT_LEN 0 where it failed (60_exceptions.md R157,
R158). -/
theorem CoreAnswer.busy_or_completed {s t : State} (h : CoreAnswer s t) (hb : s.busy = true) :
    t.busy = true ∨ t.done = true ∧ (t.err = true → t.outLen = 0) := by
  cases h with
  | finished len => exact .inr ⟨rfl, nofun⟩
  | raised e pos _ => exact .inr ⟨raiseError_done e pos s, fun _ => raiseError_outLen e pos s⟩
  | continued hc => exact .inl (hc.busy.trans hb)

/-- The body of a legally running command is one of the four commands'. -/
theorem State.BodyLegal.op_lt {s : State} (h : s.BodyLegal) : s.work.op.toNat < 4 := by
  have hranges := h.ranges
  unfold State.BodyRanges at hranges
  split at hranges
  case h_5 => exact hranges.elim
  all_goals omega

/-- A running command has at most `n + 2` core steps left (log entry 26). -/
theorem stepsLeft_le {s : State} (hl : s.RunLegal) (hb : s.busy = true) : s.stepsLeft ≤ s.work.n + 2 := by
  cases hp : s.work.phase with
  | precheck => exact (stepsLeft_precheck hb hp).le
  | body =>
    rw [stepsLeft_body hb hp]
    have hlegal := hl.body hb hp
    suffices h : s.bodyLeft ≤ s.work.n by omega
    rcases op_cases hlegal.op_lt with h | h | h
    · rw [bodyLeft_decompress h]
      omega
    · rw [bodyLeft_compress h]
      omega
    · have hlength := ((bodyRanges_convert h).1 hlegal.ranges).1
      have hne : s.work.op ≠ 1 := by rcases h with h | h <;> simp [h]
      rw [bodyLeft_convert h, hlength, hlegal.expected, if_neg hne, expectedLength_eq]
      omega

/-- A run of core steps that faults is that many steps of the machine where no other agent has a turn. -/
theorem exists_run_fault_of_coreRun {fuel : Nat} {s : State} {f : Fault} (hs : s.schedule = [])
    (h : coreRun fuel s = .error f) : ∃ k, k ≤ fuel ∧ Host.Core.run Sys2Proof.core k s = .fault f := by
  induction fuel generalizing s with
  | zero => cases h
  | succ fuel ih =>
    cases hb : s.busy with
    | false => rw [coreRun_idle hb] at h; cases h
    | true =>
      rw [coreRun_busy hb] at h
      obtain h | ⟨u, hu, h⟩ := bind_eq_error.1 h
      · have hstep : Sys2Proof.core.step s = .fault f := (step_of_busy hs hb).trans (congrArg toOut h)
        exact ⟨1, by omega, by simp only [Host.Core.run, hstep]⟩
      · have hstep : step s = .next u := (step_of_busy hs hb).trans (congrArg toOut hu)
        obtain ⟨k, hk, hrun⟩ := ih ((sameOutsideCore_coreStep hu).schedule.trans hs) h
        exact ⟨k + 1, by omega, (run_succ_of_step hstep k).trans hrun⟩

end Sys2Proof.Machine
end

section
/-! PROOFS. The obligations of 40_decompress.md. -/

namespace Sys2Proof.Machine

/-! ### The whole stream -/

/-- Settles O10: the records are performed one after the other without an overrun, `p` comes out at the expected length,
and the end check finishes. -/
theorem decompressDecodesWholeStream : Obligations.DecompressDecodesWholeStream := by
  intro s records hb hrecords hread hn hout hcap
  rw [← List.append_nil (assemble records)] at hread
  obtain ⟨pos, hend, hmoves⟩ := decompress_records hrecords hread hn hcap
  have hlast := hend.coreMove_end
  rw [decompressEnd_exact (by simp [hout]) (by simp [hout])] at hlast
  have hrun := coreRun_start (hmoves.tail hlast) (finish_busy _ _)
  have hdst : ((decompressEntry s).consumed (assemble records).length (outputOf records) pos).dst =
      s.dst.writeAll 0 (outputOf records) := consumed_dst_of_room hout.le _ _
  refine ⟨_, issue_eq_next.2 (.inr ⟨hb, hrun⟩), ?_⟩
  calc finish (3 * s.width.toNat * s.height.toNat)
        ((decompressEntry s).consumed (assemble records).length (outputOf records) pos)
      = { Claim.succeeded 0 (outputOf records) s with
          outLen := BitVec.ofNat 64 (3 * s.width.toNat * s.height.toNat)
          dst := ((decompressEntry s).consumed (assemble records).length (outputOf records) pos).dst
          work := Work.blank } := rfl
    _ = { Claim.succeeded 0 (outputOf records) s with work := Work.blank } := by rw [hdst, ← hout]; rfl

/-- Settles O12: the records leave `p` below the expected length, so the end check fails at the end of the stream. -/
theorem decompressTooFewBytesFails : Obligations.DecompressTooFewBytesFails := by
  intro s records hb hrecords hread hn hout hcap
  rw [← List.append_nil (assemble records)] at hread
  obtain ⟨pos, hend, hmoves⟩ := decompress_records hrecords hread hn hcap
  have hlast := hend.coreMove_end
  rw [decompressEnd_short (by simp; omega) (by simp; omega)] at hlast
  exact decompress_fails hb (hmoves.tail hlast)

/-- Settles O11: the whole records are performed, whatever they overran, and the step at the record cut short ends the
command there. -/
theorem decompressTruncatedStreamFails : Obligations.DecompressTruncatedStreamFails := by
  intro s records tail hb hrecords htail hread hn hcap
  obtain ⟨pos, hend, hmoves⟩ := decompress_records hrecords hread hn hcap
  have hlast := hend.coreMove_truncated htail
  rw [consumed_pc, decompressEntry_pc, Nat.zero_add] at hlast
  exact decompress_fails hb (hmoves.tail hlast)

/-- Settles O13: the records before leave room for all their output, the next one overruns and is noted, the records
after it leave that noted, and the end check fails there. -/
theorem decompressTooManyBytesFails : Obligations.DecompressTooManyBytesFails := by
  intro s before i after hb hrecords hread hn hbefore hover hcap
  have hbytes : assemble (before ++ i :: after) = assemble before ++ (encode i ++ (assemble after ++ [])) := by
    rw [assemble, List.flatMap_append, List.flatMap_cons, List.append_nil]
    rfl
  obtain ⟨hstream, hi, hafter⟩ : Claim.IsStream before ∧ (i.kind = .record ∧ i.wf = true) ∧ Claim.IsStream after := by
    rw [← isStream_cons]
    exact List.forall_mem_append.1 hrecords
  rw [hbytes] at hread
  obtain ⟨pos, hfacing, hmoves⟩ := decompress_records hstream hread hn hcap
  set u := (decompressEntry s).consumed (assemble before).length (outputOf before) pos
  have hnone : u.work.overrun = false := by simpa [u] using hbefore
  have hroom : u.work.exp - u.work.p < i.output.length := by
    simp only [u, consumed_exp, consumed_p, decompressEntry_exp, decompressEntry_p]
    omega
  have hfirst : u.overposAfter i.output = (assemble before).length :=
    (overposAfter_of_first hnone hroom).trans (Nat.zero_add _)
  have hfacing' := hfacing.consumed i.output (u.overposAfter i.output)
  obtain ⟨pos', hpos', hmoves'⟩ := hfacing'.moves_records hafter
  have hnoted : pos' = (assemble before).length := (hpos' (by simp [hroom])).trans hfirst
  have hlast := (hfacing'.consumed (outputOf after) pos').coreMove_end
  rw [decompressEnd_overrun (by simp [hroom]), consumed_overpos, hnoted] at hlast
  rw [hnoted] at hmoves'
  exact decompress_fails hb (((hmoves.tail (hfacing.coreMove_record hi.1 hi.2)).trans hmoves').tail hlast)

/-! ### One record -/

/-- Settles O6: a record of two bytes whose output is the copies. -/
theorem runRecordAppendsCopies : Obligations.RunRecordAppendsCopies := by
  intro s r v hd hcap len room
  refine ⟨fun hcut => ?_, fun hfit => ?_⟩
  · exact exists_failed (exec_record_truncated (i := .run r v) hd rfl (Nat.lt_succ_of_le hcut))
  · obtain ⟨t, hexec, ht, hread⟩ := exists_performed (i := .run r v) hd rfl hcap List.length_replicate rfl hfit
    refine ⟨t, hexec, ht, fun a => (hread a).trans (if_ctx_congr Iff.rfl (fun ha => ?_) fun _ => rfl)⟩
    rw [Instr.output, List.getElem?_replicate, if_pos]
    show a - s.work.p < len
    omega

/-- Settles O7: a record of `1 + K` bytes whose output is its data bytes. -/
theorem literalRecordAppendsBytes : Obligations.LiteralRecordAppendsBytes := by
  intro s bs hd hcap room
  have hlen : s.work.pc + Instr.byteLength (.lit bs) = s.work.pc + 1 + bs.length := (Nat.add_assoc _ _ _).symm
  exact ⟨fun hcut => exists_failed (exec_record_truncated hd rfl (hlen ▸ hcut)),
    fun hfit => exists_performed hd rfl hcap rfl hlen hfit⟩

/-- Settles O8: the fetch reads the control byte alone, and the command ends there. -/
theorem truncatedRecordEndsCommand : Obligations.TruncatedRecordEndsCommand := by
  intro s cb hd hs hpc hn hcb hcut
  refine exists_failed (e := .truncatedStream) ?_
  rw [step_of_busy hs (decompressing_iff.1 hd).1, coreStep_decompressing hd, decompressStep,
    fetchRecord_truncated hpc hn hcb hcut]
  rfl

/-- Settles O9: both records check for the loop. -/
theorem recordOutsideDecompressIsRefused : Obligations.RecordOutsideDecompressIsRefused := by
  intro s i hd hkind
  have houtside : ¬ s.decompressing = true := by simp [hd]
  cases i with
  | run r v => exact if_neg houtside
  | lit bs => exact if_neg houtside
  | decompress => cases hkind
  | compress => cases hkind
  | planarToRgb => cases hkind
  | rgbToPlanar => cases hkind
  | reservedLow x => cases hkind
  | reservedHigh x => cases hkind

/-- Settles O50: the core's turn fetches the record whose encoding stands at the cursor, whatever the schedule. -/
theorem stepRunsRecordAtCursor : Obligations.StepRunsRecordAtCursor := by
  intro s i hd hkind hwf hfit hn hread
  refine ⟨fun hs => ?_, fun rest hs => ?_⟩
  · rw [step, hs, ← coreTurn_record hd (fetchRecord_encode hkind hwf hfit hn hread)]
    exact if_pos (decompressing_iff.1 hd).1
  · rw [step, hs]
    exact coreTurn_record (s := { s with schedule := rest }) hd (fetchRecord_encode hkind hwf hfit hn hread)

/-! ### Every command ends -/

/-- Settles O26: a whole command stops only at an input byte without a value, it leaves the core idle, and its last core
step is a completion. -/
theorem commandOnDefinedInputCompletes : Obligations.CommandOnDefinedInputCompletes := by
  intro s i hb hkind hdefined
  obtain ⟨op, hop⟩ := (op?_isSome_iff i).2 hkind
  rw [exec_command hop]
  obtain ⟨t, ht⟩ | ⟨a, _, ha, hnone⟩ := safeAnswer_issue op s
  · have hidle : t.busy = false := (issue_busy ht).trans hb
    obtain ⟨hbusy, _⟩ | ⟨_, hrun⟩ := issue_eq_next.1 ht
    · simp [hb] at hbusy
    · have hend : t.busy = true ∨ t.done = true ∧ (t.err = true → t.outLen = 0) :=
        coreRun_answer_induction (P := fun u => u.busy = true ∨ u.done = true ∧ (u.err = true → u.outLen = 0))
          (fun _ _ hbusy _ hanswer _ => hanswer.busy_or_completed hbusy) hrun (runLegal_start op s) (.inl rfl)
      obtain ⟨hdone, hlen⟩ := hend.resolve_left (by simp [hidle])
      exact ⟨t, ht, hidle, hdone, hlen⟩
  · exact absurd hnone (hdefined a ha)

/-- Settles O30: a run of core steps with fuel for all that are left ends with the command complete, or at an input byte
without a value. -/
theorem runningCommandEnds : Obligations.RunningCommandEnds := by
  intro s hi hb hs
  have hl := hi.runLegal
  have hlock := (Twins.refl s).coreRun hl (s.work.n + 2)
  cases hrun : coreRun (s.work.n + 2) s with
  | ok t =>
    obtain ⟨k, hk, hk', _⟩ := exists_run_of_coreRun hs hrun
    exact ⟨k, hk, .inl ⟨t, hk', coreRun_completes hl (stepsLeft_le hl hb) hrun⟩⟩
  | error f =>
    obtain ⟨k, hk, hk'⟩ := exists_run_fault_of_coreRun hs hrun
    rw [hrun] at hlock
    cases hlock with
    | fault => exact ⟨k, hk, .inr ⟨_, hk'⟩⟩

end Sys2Proof.Machine
end

section
/-! PROOFS. The greedy policy of 41_compress.md on lists: its records one after the other, what they decode to, and what
its literals hold. -/

namespace Sys2Proof.Machine

/-! ### The two lengths (41_compress.md R122, R125) -/

theorem leadingRun_le_cap (x : List Byte) : Claim.leadingRun x ≤ 130 := by
  cases x with
  | nil => simp [Claim.leadingRun]
  | cons b rest =>
    have hwhile := (List.takeWhile_prefix (l := rest.take 129) (· == b)).length_le
    have htake := List.length_take_le 129 rest
    simp only [Claim.leadingRun]
    omega

/-- The leading run is what the input begins with. -/
theorem take_leadingRun (b : Byte) (rest : List Byte) :
    (b :: rest).take (Claim.leadingRun (b :: rest)) = List.replicate (Claim.leadingRun (b :: rest)) b := by
  have hprefix : (rest.take 129).takeWhile (· == b) <+: rest :=
    (List.takeWhile_prefix _).trans (List.take_prefix _ _)
  have hequal : (rest.take 129).takeWhile (· == b) =
      List.replicate ((rest.take 129).takeWhile (· == b)).length b :=
    List.eq_replicate_of_mem fun c hc => by simpa using List.mem_takeWhile_imp hc
  rw [Claim.leadingRun, Nat.add_comm 1, List.take_succ_cons, List.replicate_succ,
    ← List.prefix_iff_eq_take.1 hprefix, ← hequal]

theorem leadingRun_le_length (x : List Byte) : Claim.leadingRun x ≤ x.length := by
  cases x with
  | nil => exact le_refl _
  | cons b rest =>
    have hlen := congrArg List.length (take_leadingRun b rest)
    rw [List.length_take, List.length_replicate] at hlen
    omega

theorem three_le_leadingRun {x : List Byte} (h : Claim.startsTriple x = true) : 3 ≤ Claim.leadingRun x := by
  match x with
  | [] => cases h
  | [_] => cases h
  | [_, _] => cases h
  | a :: b :: c :: rest =>
    obtain ⟨rfl, rfl⟩ : a = b ∧ b = c := by simpa [Claim.startsTriple] using h
    simp [Claim.leadingRun]
    omega

theorem beforeTriple_le (cap : Nat) (x : List Byte) :
    Claim.beforeTriple cap x ≤ cap ∧ Claim.beforeTriple cap x ≤ x.length := by
  induction cap generalizing x with
  | zero => simp [Claim.beforeTriple]
  | succ cap ih =>
    cases x with
    | nil => simp [Claim.beforeTriple]
    | cons b rest =>
      obtain ⟨hcap, hlen⟩ := ih rest
      simp only [Claim.beforeTriple, List.length_cons]
      split <;> omega

/-- Before the place where a literal stops no three equal bytes begin. -/
theorem startsTriple_drop_of_lt {cap j : Nat} {x : List Byte} (h : j < Claim.beforeTriple cap x) :
    Claim.startsTriple (x.drop j) = false := by
  induction cap generalizing x j with
  | zero => simp [Claim.beforeTriple] at h
  | succ cap ih =>
    cases x with
    | nil => simp [Claim.beforeTriple] at h
    | cons b rest =>
      simp only [Claim.beforeTriple] at h
      split at h
      · omega
      · next hstart =>
        cases j with
        | zero => simpa using hstart
        | succ j =>
          rw [List.drop_succ_cons]
          exact ih (by omega)

/-- Three equal bytes at `j` begin the input from there. -/
theorem startsTriple_drop {x : List Byte} {j : Nat} (hj : j + 2 < x.length) (h01 : x[j]? = x[j + 1]?)
    (h12 : x[j + 1]? = x[j + 2]?) : Claim.startsTriple (x.drop j) = true := by
  rw [List.drop_eq_getElem_cons (by omega), List.drop_eq_getElem_cons (by omega), List.drop_eq_getElem_cons hj]
  rw [List.getElem?_eq_getElem (by omega), List.getElem?_eq_getElem (by omega), Option.some_inj] at h01 h12
  simp [Claim.startsTriple, h01, h12]

/-! ### One record (41_compress.md R123) -/

/-- How many bytes of `b :: rest` the policy's first record takes. -/
def greedyTaken (b : Byte) (rest : List Byte) : Nat :=
  if 3 ≤ Claim.leadingRun (b :: rest) then Claim.leadingRun (b :: rest) else 1 + Claim.beforeTriple 126 rest

/-- The policy's first record of `b :: rest`. -/
def greedyRecord (b : Byte) (rest : List Byte) : Instr :=
  if 3 ≤ Claim.leadingRun (b :: rest) then .run (BitVec.ofNat 7 (Claim.leadingRun (b :: rest) - 3)) b
  else .lit ((b :: rest).take (1 + Claim.beforeTriple 126 rest))

theorem greedyTaken_run {b : Byte} {rest : List Byte} (h : 3 ≤ Claim.leadingRun (b :: rest)) :
    greedyTaken b rest = Claim.leadingRun (b :: rest) := if_pos h

theorem greedyTaken_lit {b : Byte} {rest : List Byte} (h : ¬ 3 ≤ Claim.leadingRun (b :: rest)) :
    greedyTaken b rest = 1 + Claim.beforeTriple 126 rest := if_neg h

theorem greedyRecord_run {b : Byte} {rest : List Byte} (h : 3 ≤ Claim.leadingRun (b :: rest)) :
    greedyRecord b rest = .run (BitVec.ofNat 7 (greedyTaken b rest - 3)) b := by
  rw [greedyTaken_run h]
  exact if_pos h

theorem greedyRecord_lit {b : Byte} {rest : List Byte} (h : ¬ 3 ≤ Claim.leadingRun (b :: rest)) :
    greedyRecord b rest = .lit ((b :: rest).take (greedyTaken b rest)) := by
  rw [greedyTaken_lit h]
  exact if_neg h

theorem greedyTaken_pos (b : Byte) (rest : List Byte) : 1 ≤ greedyTaken b rest := by
  unfold greedyTaken
  split <;> omega

theorem greedyTaken_le (b : Byte) (rest : List Byte) : greedyTaken b rest ≤ (b :: rest).length := by
  have hrun := leadingRun_le_length (b :: rest)
  obtain ⟨_, hlit⟩ := beforeTriple_le 126 rest
  unfold greedyTaken
  rw [List.length_cons] at hrun ⊢
  split <;> omega

theorem length_take_greedyTaken (b : Byte) (rest : List Byte) :
    ((b :: rest).take (greedyTaken b rest)).length = greedyTaken b rest :=
  List.length_take_of_le (greedyTaken_le b rest)

/-- What comes after the first record is shorter. -/
theorem length_drop_greedyTaken (b : Byte) (rest : List Byte) :
    ((b :: rest).drop (greedyTaken b rest)).length ≤ rest.length := by
  have hpos := greedyTaken_pos b rest
  rw [List.length_drop, List.length_cons]
  omega

/-- A literal takes at most 127 bytes (41_compress.md R125). -/
theorem greedyTaken_lit_le {b : Byte} {rest : List Byte} (h : ¬ 3 ≤ Claim.leadingRun (b :: rest)) :
    greedyTaken b rest ≤ 127 := by
  obtain ⟨hcap, _⟩ := beforeTriple_le 126 rest
  rw [greedyTaken_lit h]
  omega

/-! ### The records one after the other -/

theorem greedyFrom_succ (fuel : Nat) (b : Byte) (rest : List Byte) :
    Claim.greedyFrom (fuel + 1) (b :: rest) =
      greedyRecord b rest :: Claim.greedyFrom fuel ((b :: rest).drop (greedyTaken b rest)) := by
  unfold greedyRecord greedyTaken
  rw [Claim.greedyFrom]
  split <;> rfl

theorem greedyFrom_nil (fuel : Nat) : Claim.greedyFrom fuel [] = [] := by cases fuel <;> rfl

/-- Fuel for every byte is as good as any more. -/
theorem greedyFrom_congr {fuel fuel' : Nat} {x : List Byte} (h : x.length ≤ fuel) (h' : x.length ≤ fuel') :
    Claim.greedyFrom fuel x = Claim.greedyFrom fuel' x := by
  induction fuel generalizing fuel' x with
  | zero =>
    obtain rfl : x = [] := List.eq_nil_of_length_eq_zero (by omega)
    rw [greedyFrom_nil, greedyFrom_nil]
  | succ fuel ih =>
    cases x with
    | nil => rw [greedyFrom_nil, greedyFrom_nil]
    | cons b rest =>
      have hdrop := length_drop_greedyTaken b rest
      rw [List.length_cons] at h h'
      obtain ⟨fuel', rfl⟩ : ∃ f, fuel' = f + 1 := ⟨fuel' - 1, by omega⟩
      rw [greedyFrom_succ, greedyFrom_succ]
      exact congrArg _ (ih (by omega) (by omega))

theorem greedy_cons (b : Byte) (rest : List Byte) :
    Claim.greedy (b :: rest) = greedyRecord b rest :: Claim.greedy ((b :: rest).drop (greedyTaken b rest)) :=
  (greedyFrom_succ rest.length b rest).trans
    (congrArg _ (greedyFrom_congr (length_drop_greedyTaken b rest) (le_refl _)))

/-- What holds of no input, and of an input where it holds past the first record, holds of every input. -/
theorem greedy_induction {P : List Byte → Prop} (nil : P [])
    (cons : ∀ b rest, P ((b :: rest).drop (greedyTaken b rest)) → P (b :: rest)) (x : List Byte) : P x := by
  induction hlen : x.length using Nat.strong_induction_on generalizing x with
  | _ n ih =>
    subst hlen
    cases x with
    | nil => exact nil
    | cons b rest => exact cons b rest (ih _ (Nat.lt_succ_of_le (length_drop_greedyTaken b rest)) _ rfl)

/-! ### What the records say -/

/-- The first record, put before a stream for the bytes after it, decodes to the whole (41_compress.md R126). -/
theorem decodesTo_greedyRecord_cons {records : List Instr} {b : Byte} {rest : List Byte}
    (h : DecodesTo records ((b :: rest).drop (greedyTaken b rest))) :
    DecodesTo (greedyRecord b rest :: records) (b :: rest) := by
  rw [← List.take_append_drop (greedyTaken b rest) (b :: rest)]
  by_cases hrun : 3 ≤ Claim.leadingRun (b :: rest)
  · have hcap := leadingRun_le_cap (b :: rest)
    have hlength : runLength (BitVec.ofNat 7 (greedyTaken b rest - 3)) = greedyTaken b rest := by
      rw [greedyTaken_run hrun]
      exact runLength_ofNat hrun hcap
    have hout := h.run (BitVec.ofNat 7 (greedyTaken b rest - 3)) b
    rw [hlength, greedyTaken_run hrun, ← take_leadingRun, ← greedyTaken_run hrun] at hout
    rwa [← greedyRecord_run hrun] at hout
  · have hlen := length_take_greedyTaken b rest
    have hpos := greedyTaken_pos b rest
    have hcap := greedyTaken_lit_le hrun
    rw [greedyRecord_lit hrun]
    exact h.lit (by omega) (by omega)

/-- The greedy stream decodes to its input. -/
theorem decodesTo_greedy (x : List Byte) : DecodesTo (Claim.greedy x) x := by
  induction x using greedy_induction with
  | nil => exact decodesTo_nil
  | cons b rest ih =>
    rw [greedy_cons]
    exact decodesTo_greedyRecord_cons ih

/-- No three equal bytes in a row begin inside a literal: not at its first byte, which begins no run of 3, nor at a later
one, where the literal would have stopped (41_compress.md R125, R126). -/
theorem startsTriple_inside_literal {b : Byte} {rest : List Byte} (h : ¬ 3 ≤ Claim.leadingRun (b :: rest)) {j : Nat}
    (hj : j < greedyTaken b rest) : Claim.startsTriple ((b :: rest).drop j) = false := by
  cases j with
  | zero => exact Bool.eq_false_iff.2 (mt three_le_leadingRun h)
  | succ j =>
    rw [greedyTaken_lit h] at hj
    rw [List.drop_succ_cons]
    exact startsTriple_drop_of_lt (cap := 126) (by omega)

/-- A literal of at most 127 bytes, no three equal ones in a row (41_compress.md R126). -/
def LiteralLegal (bs : List Byte) : Prop :=
  bs.length ≤ 127 ∧ ∀ j, j + 2 < bs.length → ¬ (bs[j]? = bs[j + 1]? ∧ bs[j + 1]? = bs[j + 2]?)

theorem literalLegal_of_greedyRecord {b : Byte} {rest bs : List Byte} (h : greedyRecord b rest = .lit bs) :
    LiteralLegal bs := by
  by_cases hrun : 3 ≤ Claim.leadingRun (b :: rest)
  · rw [greedyRecord_run hrun] at h
    cases h
  · rw [greedyRecord_lit hrun] at h
    cases h
    have hle := greedyTaken_le b rest
    have hcap := greedyTaken_lit_le hrun
    rw [LiteralLegal, length_take_greedyTaken]
    refine ⟨hcap, fun j hj ⟨h01, h12⟩ => ?_⟩
    rw [List.getElem?_take_of_lt (by omega), List.getElem?_take_of_lt (by omega)] at h01 h12
    have htriple := startsTriple_drop (by omega) h01 h12
    rw [startsTriple_inside_literal hrun (by omega)] at htriple
    cases htriple

theorem literalLegal_of_mem_greedy {bs : List Byte} (x : List Byte) (h : Instr.lit bs ∈ Claim.greedy x) :
    LiteralLegal bs := by
  induction x using greedy_induction with
  | nil => cases h
  | cons b rest ih =>
    rw [greedy_cons, List.mem_cons] at h
    obtain h | h := h
    · exact literalLegal_of_greedyRecord h.symm
    · exact ih h

end Sys2Proof.Machine
end

section
/-! PROOFS. A COMPRESS that stands before the rest of its input: the parts of its policy are those on lists, its core steps
store the greedy records one after the other, and the whole command is made of them. -/

namespace Sys2Proof.Machine

/-! ### The rest of the input -/

/-- The running command's input from offset `a` to its end is `rest`. -/
structure State.InputFrom (s : State) (a : Nat) (rest : List Byte) : Prop where
  inSrc : s.work.n ≤ s.srcSize.toNat
  toEnd : a + rest.length = s.work.n
  bytes : s.src.readAll a rest.length = some rest

section
variable {s : State} {a : Nat} {b : Byte} {rest : List Byte}

theorem State.InputFrom.lt (h : s.InputFrom a (b :: rest)) : a < s.work.n := by
  have hend := h.toEnd
  rw [List.length_cons] at hend
  omega

theorem State.InputFrom.le_of_nil (h : s.InputFrom a []) : s.work.n ≤ a := h.toEnd.ge

/-- The input behind its first bytes. -/
theorem State.InputFrom.append {bytes : List Byte} (h : s.InputFrom a (bytes ++ rest)) :
    s.InputFrom (a + bytes.length) rest where
  inSrc := h.inSrc
  toEnd := by
    have hend := h.toEnd
    rw [List.length_append] at hend
    omega
  bytes := (Memory.readAll_append.1 h.bytes).2

theorem State.InputFrom.tail (h : s.InputFrom a (b :: rest)) : s.InputFrom (a + 1) rest :=
  State.InputFrom.append (bytes := [b]) h

theorem State.InputFrom.drop {len : Nat} (h : s.InputFrom a rest) (hlen : len ≤ rest.length) :
    s.InputFrom (a + len) (rest.drop len) := by
  rw [← List.take_append_drop len rest] at h
  have hdrop := h.append
  rwa [List.length_take_of_le hlen] at hdrop

/-- A block read at the front of the rest gives its first bytes. -/
theorem State.InputFrom.srcReadAll_eq {len : Nat} (h : s.InputFrom a rest) (hlen : len ≤ rest.length) :
    srcReadAll s a len = .ok (rest.take len) := by
  have hend := h.toEnd
  have hin := h.inSrc
  have hbytes := h.bytes
  rw [← List.take_append_drop len rest] at hbytes
  have hread := (Memory.readAll_append.1 hbytes).1
  rw [List.length_take_of_le hlen] at hread
  exact srcReadAll_eq_ok.2 ⟨hread, .inr (by omega)⟩

theorem State.InputFrom.srcRead_eq (h : s.InputFrom a (b :: rest)) : srcRead s a = .ok b := by
  have hlt := h.lt
  have hin := h.inSrc
  obtain ⟨_, _, heq, hb, _⟩ := (Memory.readAll_succ _ _ _ _).1 h.bytes
  cases heq
  exact srcRead_eq_ok.2 ⟨by omega, hb⟩

/-! ### The policy on the machine is the policy on lists (41_compress.md R122, R123, R125) -/

theorem runLenFrom_eq {i r : Nat} (left : Nat) (h : s.InputFrom (i + r) rest) :
    runLenFrom s i b left r = .ok (r + ((rest.take left).takeWhile (· == b)).length) := by
  induction left generalizing r rest with
  | zero => simp [runLenFrom]
  | succ left ih =>
    cases rest with
    | nil =>
      have hend := h.le_of_nil
      rw [runLenFrom, if_neg (by omega)]
      simp
    | cons c rest =>
      rw [runLenFrom, if_pos h.lt, h.srcRead_eq, ok_bind, List.take_succ_cons]
      by_cases hc : c = b
      · rw [if_pos hc, ih h.tail, List.takeWhile_cons_of_pos (by simp [hc]), List.length_cons, Nat.add_assoc,
          Nat.add_comm 1]
      · rw [if_neg hc, List.takeWhile_cons_of_neg (by simp [hc])]
        rfl

theorem runLen_eq (h : s.InputFrom a (b :: rest)) : runLen s a = .ok (Claim.leadingRun (b :: rest)) := by
  rw [runLen, h.srcRead_eq, ok_bind]
  exact runLenFrom_eq 129 h.tail

theorem triple_eq (h : s.InputFrom a rest) : triple s a = .ok (Claim.startsTriple rest) := by
  have hend := h.toEnd
  match rest with
  | [] => exact if_neg (by simp at hend; omega)
  | [_] => exact if_neg (by simp at hend; omega)
  | [_, _] => exact if_neg (by simp at hend; omega)
  | x :: y :: z :: _ =>
    rw [triple, if_pos h.tail.tail.lt, h.srcRead_eq, ok_bind, h.tail.srcRead_eq, ok_bind, h.tail.tail.srcRead_eq]
    by_cases hxy : x = y <;> simp [Claim.startsTriple, hxy, beq_eq_decide]

theorem litLenFrom_eq {i len : Nat} (left : Nat) (h : s.InputFrom (i + len) rest) :
    litLenFrom s i left len = .ok (len + Claim.beforeTriple left rest) := by
  induction left generalizing len rest with
  | zero => rfl
  | succ left ih =>
    cases rest with
    | nil =>
      have hend := h.le_of_nil
      rw [litLenFrom, if_neg (by omega)]
      rfl
    | cons c rest =>
      rw [litLenFrom, if_pos h.lt, triple_eq h, ok_bind, Claim.beforeTriple]
      by_cases hstop : Claim.startsTriple (c :: rest) = true
      · rw [if_pos hstop, if_pos hstop]
        rfl
      · rw [if_neg hstop, if_neg hstop, ih h.tail, Nat.add_assoc]

theorem litLen_eq (h : s.InputFrom a (b :: rest)) : litLen s a = .ok (1 + Claim.beforeTriple 126 rest) :=
  litLenFrom_eq 126 h.tail

/-- The record COMPRESS emits next is the greedy policy's first one. -/
theorem nextRecord_eq (h : s.InputFrom s.work.i (b :: rest)) :
    nextRecord s = .ok (greedyRecord b rest, greedyTaken b rest) := by
  rw [nextRecord, h.srcRead_eq, ok_bind, runLen_eq h, ok_bind]
  by_cases hrun : 3 ≤ Claim.leadingRun (b :: rest)
  · rw [if_pos hrun, greedyRecord_run hrun, greedyTaken_run hrun]
  · have hread := h.srcReadAll_eq (greedyTaken_le b rest)
    rw [greedyTaken_lit hrun] at hread
    rw [if_neg hrun, litLen_eq h, ok_bind, hread, ok_bind, greedyRecord_lit hrun, greedyTaken_lit hrun]

end

/-! ### The core steps -/

/-- A COMPRESS in its loop, with `rest` the rest of its input and its output within R124's bound. -/
structure State.Compressing (s : State) (rest : List Byte) : Prop where
  busy     : s.busy = true
  phase    : s.work.phase = .body
  op       : s.work.op = 1
  capacity : compressBound s.work.n ≤ s.dstSize.toNat
  room     : s.work.o ≤ s.compressRoom
  input    : s.InputFrom s.work.i rest

/-- The state `taken` input bytes further, with `bytes` put behind the output. -/
def State.stored (s : State) (taken : Nat) (bytes : List Byte) : State :=
  { s with
    dst := s.dst.writeAll s.work.o bytes
    work := { s.work with o := s.work.o + bytes.length, i := s.work.i + taken } }

/-- Stretch after stretch is one stretch. -/
theorem stored_stored (s : State) (taken taken' : Nat) (bytes bytes' : List Byte) :
    (s.stored taken bytes).stored taken' bytes' = s.stored (taken + taken') (bytes ++ bytes') := by
  simp only [State.stored, Memory.writeAll_append, List.length_append, Nat.add_assoc]

section
variable {s : State} {b : Byte} {rest : List Byte}

theorem State.Compressing.coreStep_eq (h : s.Compressing rest) : coreStep s = compressStep s := by
  rw [coreStep, if_pos h.busy, h.phase]
  simp [bodyStep, h.op]

/-- Storing the next record leaves COMPRESS before the input behind it, within R124's bound. -/
theorem State.Compressing.stored (h : s.Compressing (b :: rest)) :
    (s.stored (greedyTaken b rest) (encode (greedyRecord b rest))).Compressing
      ((b :: rest).drop (greedyTaken b rest)) where
  busy := h.busy
  phase := h.phase
  op := h.op
  capacity := h.capacity
  room := by
    have hnext := nextRecord_eq h.input
    have hlen := nextRecord_byteLength hnext
    obtain ⟨_, _, hroom⟩ := nextRecord_room hnext h.input.lt h.room
      (t := s.stored (greedyTaken b rest) (encode (greedyRecord b rest))) rfl rfl rfl
      (congrArg (s.work.o + ·) hlen)
    exact hroom
  input :=
    have hdrop := h.input.drop (greedyTaken_le b rest)
    ⟨hdrop.inSrc, hdrop.toEnd, hdrop.bytes⟩

/-- Its output never passes R124's bound. -/
theorem State.Compressing.o_le (h : s.Compressing rest) : s.work.o ≤ compressBound s.work.n := by
  have hend := h.input.toEnd
  exact h.room.trans (compressRoom_le (by omega))

/-- The core step before a byte stores the greedy policy's first record. -/
theorem State.Compressing.coreMove_record (h : s.Compressing (b :: rest)) :
    CoreMove s (s.stored (greedyTaken b rest) (encode (greedyRecord b rest))) := by
  have hnext := nextRecord_eq h.input
  have hlen := nextRecord_byteLength hnext
  have hfit : s.work.o + (encode (greedyRecord b rest)).length ≤ s.dstSize.toNat :=
    h.stored.o_le.trans h.capacity
  have hwrite := dstWriteAll_eq_ok.2 ⟨.inr hfit, rfl⟩
  refine ⟨h.busy, ?_⟩
  rw [h.coreStep_eq, compressStep, if_pos h.input.lt, hnext]
  simp only [ok_bind, hwrite, State.stored, hlen]
  rfl

/-- The core step at the end of the input finishes. -/
theorem State.Compressing.coreMove_end (h : s.Compressing []) : CoreMove s (finish s.work.o s) := by
  have hend := h.input.le_of_nil
  exact ⟨h.busy, h.coreStep_eq.trans (if_neg (by omega))⟩

/-- The greedy records are stored one after the other, up to the end of the input. -/
theorem State.Compressing.moves_greedy (h : s.Compressing rest) :
    (s.stored rest.length (assemble (Claim.greedy rest))).Compressing [] ∧
      CoreMoves s (s.stored rest.length (assemble (Claim.greedy rest))) := by
  induction rest using greedy_induction generalizing s with
  | nil => exact ⟨h, .refl⟩
  | cons b rest ih =>
    obtain ⟨hend, hmoves⟩ := ih h.stored
    have hlen : greedyTaken b rest + ((b :: rest).drop (greedyTaken b rest)).length = (b :: rest).length := by
      rw [List.length_drop, Nat.add_sub_cancel' (greedyTaken_le b rest)]
    have hbytes : assemble (Claim.greedy (b :: rest)) = encode (greedyRecord b rest) ++
        assemble (Claim.greedy ((b :: rest).drop (greedyTaken b rest))) := by
      rw [greedy_cons]
      rfl
    rw [stored_stored, hlen, ← hbytes] at hend hmoves
    exact ⟨hend, .head h.coreMove_record hmoves⟩

end

/-! ### The whole command -/

/-- A COMPRESS past its prechecks (60_exceptions.md R154, 41_compress.md R121). -/
def compressEntry (s : State) : State := dispatch (start 1 s)

section
variable {s t : State}

/-- A COMPRESS begins its loop where its lengths are in range, and fails its prechecks elsewhere. -/
theorem precheck_compress_cases (s : State) :
    ((s.srcLen.toNat ≤ s.srcSize.toNat ∧ compressBound s.srcLen.toNat ≤ s.dstSize.toNat) ∧
        precheck (start 1 s) = compressEntry s) ∨
      (¬ (s.srcLen.toNat ≤ s.srcSize.toNat ∧ compressBound s.srcLen.toNat ≤ s.dstSize.toNat) ∧
        ∃ e, precheck (start 1 s) = raiseError e 0 (start 1 s)) := by
  obtain ⟨hop, _⟩ | ⟨_, hbad, h⟩ | ⟨_, _, _, hshort, h⟩ | ⟨_, hn, _, hcap, h⟩ := precheck_cases (start 1 s)
  · exact absurd hop (by simp)
  · have hbad : s.srcSize.toNat < s.srcLen.toNat := hbad.resolve_right (by simp)
    exact .inr ⟨by omega, _, h⟩
  · have hshort : s.dstSize.toNat < compressBound s.srcLen.toNat := hshort
    exact .inr ⟨by omega, _, h⟩
  · exact .inl ⟨⟨hn, hcap⟩, h⟩

/-- A COMPRESS whose lengths are in range passes its prechecks and stands before its whole input. -/
theorem compressEntry_compressing {x : List Byte} (hread : s.src.readAll 0 s.srcLen.toNat = some x)
    (hn : s.srcLen.toNat ≤ s.srcSize.toNat) (hcap : compressBound s.srcLen.toNat ≤ s.dstSize.toNat) :
    (compressEntry s).Compressing x ∧ CoreMove (start 1 s) (compressEntry s) := by
  have hlen : x.length = s.srcLen.toNat := ((Memory.readAll_eq_some _ _ _ _).1 hread).1
  have hpass : precheck (start 1 s) = compressEntry s := by
    obtain ⟨_, h⟩ | ⟨hout, _⟩ := precheck_compress_cases s
    · exact h
    · exact absurd ⟨hn, hcap⟩ hout
  exact ⟨⟨rfl, rfl, rfl, hcap, Nat.zero_le _, hn, (Nat.zero_add _).trans hlen, hlen ▸ hread⟩, rfl,
    congrArg Except.ok hpass⟩

/-- COMPRESS leaves the greedy stream in DST, within R124's bound (41_compress.md R123, R124). -/
theorem compress_succeeds {x : List Byte} (hb : s.busy = false) (hread : s.src.readAll 0 s.srcLen.toNat = some x)
    (hn : s.srcLen.toNat ≤ s.srcSize.toNat) (hcap : compressBound s.srcLen.toNat ≤ s.dstSize.toNat) :
    exec .compress s = .next { Claim.succeeded 1 (assemble (Claim.greedy x)) s with work := Work.blank } ∧
      (assemble (Claim.greedy x)).length ≤ compressBound s.srcLen.toNat := by
  obtain ⟨hstart, hentry⟩ := compressEntry_compressing hread hn hcap
  obtain ⟨hend, hmoves⟩ := hstart.moves_greedy
  have hlen : ((compressEntry s).stored x.length (assemble (Claim.greedy x))).work.o =
      (assemble (Claim.greedy x)).length := Nat.zero_add _
  have hlast := hend.coreMove_end
  rw [hlen] at hlast
  have hrun := coreRun_start ((Relation.ReflTransGen.head hentry hmoves).tail hlast) (finish_busy _ _)
  exact ⟨issue_eq_next.2 (.inr ⟨hb, hrun⟩), hlen ▸ hend.o_le⟩

/-- A COMPRESS that succeeded had passed its prechecks. -/
theorem compress_inRange (hb : s.busy = false) (h : exec .compress s = .next t) (herr : t.err = false) :
    s.srcLen.toNat ≤ s.srcSize.toNat ∧ compressBound s.srcLen.toNat ≤ s.dstSize.toNat := by
  obtain ⟨hbusy, _⟩ | ⟨_, hrun⟩ := issue_eq_next.1 h
  · simp [hb] at hbusy
  · obtain ⟨hrange, _⟩ | ⟨_, e, hfail⟩ := precheck_compress_cases s
    · exact hrange
    · have hstep : coreStep (start 1 s) = .ok (raiseError e 0 (start 1 s)) := congrArg Except.ok hfail
      rw [stepBound, coreRun_busy (start_busy 1 s), hstep, ok_bind, coreRun_idle (raiseError_busy _ _ _)] at hrun
      cases hrun
      simp at herr

end

end Sys2Proof.Machine
end

section
/-! PROOFS. The obligations of 41_compress.md. -/

namespace Sys2Proof.Machine

/-! ### A result, and the host's copy of it -/

/-- A block just written reads back. -/
theorem Memory.readAll_writeAll (m : Memory) (a : Nat) (vs : List Byte) :
    Memory.readAll (Memory.writeAll m a vs) a vs.length = some vs := by
  refine (Memory.readAll_eq_some _ _ _ _).2 ⟨rfl, fun j hj => ?_⟩
  rw [Memory.read_writeAll, if_pos (by omega), Nat.add_sub_cancel_left]

/-- A result that fits DST has a length that OUT_LEN holds. -/
theorem succeeded_outLen {s : State} {out : List Byte} (h : out.length ≤ s.dstSize.toNat) (op : BitVec 4) :
    (Claim.succeeded op out s).outLen.toNat = out.length :=
  (BitVec.toNat_ofNat _ _).trans (Nat.mod_eq_of_lt (h.trans_lt s.dstSize.isLt))

/-- OUT_LEN says where the result ends. -/
theorem succeeded_result {s : State} {out : List Byte} (h : out.length ≤ s.dstSize.toNat) (op : BitVec 4) :
    (Claim.succeeded op out s).dst.readAll 0 (Claim.succeeded op out s).outLen.toNat = some out := by
  rw [succeeded_outLen h]
  exact Memory.readAll_writeAll s.dst 0 out

/-- The host's copy makes a command's result the input of the next one (70_reset_and_hazards.md R188). -/
theorem chained_input {s : State} {out : List Byte} (h : s.dst.readAll 0 s.outLen.toNat = some out) :
    (Claim.chained s).src.readAll 0 (Claim.chained s).srcLen.toNat = some out := by
  have hlen := ((Memory.readAll_eq_some _ _ _ _).1 h).1
  have hsrc : (Claim.chained s).src = s.src.writeAll 0 out := by rw [Claim.chained, h]; rfl
  rw [hsrc, Claim.chained, ← hlen]
  exact Memory.readAll_writeAll s.src 0 out

/-! ### The stream (41_compress.md R123, R126, R127) -/

/-- Settles O14: the core steps store the greedy records of the whole input, and the last one finishes. -/
theorem compressEmitsGreedyStream : Obligations.CompressEmitsGreedyStream := by
  intro s x hb hread hn hcap
  have hlen := ((Memory.readAll_eq_some _ _ _ _).1 hread).1
  rw [hlen, ← compressBound_eq] at hcap
  exact ⟨_, (compress_succeeds hb hread hn hcap).1, rfl⟩

/-- Settles O15: the stream is the greedy one, which decodes to the input, its literals legal. -/
theorem compressedStreamDecodesToInput : Obligations.CompressedStreamDecodesToInput := by
  intro s t x hb hread h herr
  obtain ⟨hn, hcap⟩ := compress_inRange hb h herr
  obtain ⟨hexec, hbound⟩ := compress_succeeds hb hread hn hcap
  obtain ⟨hstream, hout⟩ := decodesTo_greedy x
  rw [hexec] at h
  cases h
  exact ⟨Claim.greedy x, hstream, succeeded_result (hbound.trans hcap) 1, hout, fun _ => literalLegal_of_mem_greedy x⟩

/-- Settles O17: the copied stream is whole records that decode to the input, as long as the dimensions ask, so
DECOMPRESS writes the input. -/
theorem compressThenDecompressIsIdentity : Obligations.CompressThenDecompressIsIdentity := by
  intro s x hb hread hdim hn hcap
  have hlen := ((Memory.readAll_eq_some _ _ _ _).1 hread).1
  have hfit : x.length ≤ s.dstSize.toNat := by omega
  rw [hlen] at hn
  rw [hlen, ← compressBound_eq] at hcap
  obtain ⟨hexec, hbound⟩ := compress_succeeds hb hread hn hcap
  obtain ⟨hstream, hout⟩ := decodesTo_greedy x
  refine ⟨_, hexec, rfl, fun hsrc => ?_⟩
  set t : State := { Claim.succeeded 1 (assemble (Claim.greedy x)) s with work := Work.blank }
  have hcopied : (Claim.chained t).src.readAll 0 (Claim.chained t).srcLen.toNat =
      some (assemble (Claim.greedy x)) := chained_input (s := t) (succeeded_result (hbound.trans hcap) 1)
  obtain ⟨u, hu, hsucceeded⟩ := decompressDecodesWholeStream (Claim.chained t) (Claim.greedy x) rfl hstream hcopied hsrc
    ((congrArg List.length hout).trans hdim) (hdim.ge.trans hfit)
  rw [hout] at hsucceeded
  refine ⟨u, hu, ?_, ?_, ?_⟩ <;> rw [hsucceeded]
  · rfl
  · exact succeeded_outLen (s := Claim.chained t) hfit 0
  · exact Memory.readAll_writeAll t.dst 0 x

/-! ### Its length (41_compress.md R124) -/

/-- A core step of COMPRESS leaves it running, failed, or complete within R124's bound: the invariant's range of the output
index bounds what the completion reports. -/
theorem outLen_le_of_coreStep {s t : State} (hb : s.busy = true) (hl : s.RunLegal) (hop : s.cmdOp = 1)
    (h : coreStep s = .ok t) :
    t.busy = true ∨ t.err = true ∨ t.outLen.toNat ≤ compressBound s.srcLen.toNat := by
  obtain ⟨hop', _, _, hn⟩ := hl.latched hb
  have hop := hop'.trans hop
  obtain ⟨hidle, _⟩ | ⟨_, _, rfl⟩ | ⟨_, hp, h⟩ := coreStep_cases h
  · simp [hb] at hidle
  · obtain ⟨_, h⟩ | ⟨_, _, h⟩ | ⟨_, _, _, _, h⟩ | ⟨_, _, _, _, h⟩ := precheck_cases s <;> rw [h]
    · exact .inr (.inl (raiseError_err _ _ _))
    · exact .inr (.inl (raiseError_err _ _ _))
    · exact .inr (.inl (raiseError_err _ _ _))
    · exact .inl hb
  · simp only [hop] at h
    have h : compressStep s = .ok t := by simpa using h
    obtain ⟨_, rfl⟩ | ⟨_, _, _, _, _, rfl⟩ := compressStep_cases h
    · obtain ⟨hi, ho⟩ := (bodyRanges_compress hop).1 (hl.body hb hp).ranges
      have hmod : (finish s.work.o s).outLen.toNat ≤ s.work.o :=
        (BitVec.toNat_ofNat _ _).trans_le (Nat.mod_le _ _)
      exact .inr (.inr (hmod.trans (ho.trans (hn ▸ compressRoom_le hi))))
    · exact .inl hb

/-- What a COMPRESS that succeeded says it wrote is within R124's bound. -/
theorem compress_outLen_le {s t : State} (hb : s.busy = false) (h : exec .compress s = .next t)
    (herr : t.err = false) : t.outLen.toNat ≤ compressBound s.srcLen.toNat := by
  have hidle : t.busy = false := (issue_busy h).trans hb
  obtain ⟨hbusy, _⟩ | ⟨_, hrun⟩ := issue_eq_next.1 h
  · simp [hb] at hbusy
  · obtain ⟨_, _, hend⟩ := coreRun_induction
      (P := fun u => u.RunLegal ∧ SameOutsideCore (start 1 s) u ∧
        (u.busy = true ∨ u.err = true ∨ u.outLen.toNat ≤ compressBound s.srcLen.toNat))
      (fun u v hbusy hstep ⟨hl, hout, _⟩ => ⟨runLegal_coreStep hbusy hl hstep,
        hout.trans (sameOutsideCore_coreStep hstep),
        congrArg BitVec.toNat hout.srcLen ▸ outLen_le_of_coreStep hbusy hl hout.cmdOp hstep⟩)
      hrun ⟨runLegal_start 1 s, .refl _, .inl rfl⟩
    simpa [hidle, herr] using hend

/-- One byte of input. -/
def oneByteInput : State := { State.reset with srcLen := 1, src := [(0, 9)] }

/-- Settles O16: the invariant bounds the output index, and one byte, a literal of two bytes, reaches the bound. -/
theorem compressOutputBound : Obligations.CompressOutputBound := by
  refine ⟨fun s t hb h herr => ?_, ?_⟩
  · rw [← compressBound_eq]
    exact compress_outLen_le hb h herr
  · obtain ⟨hexec, _⟩ :=
      compress_succeeds (s := oneByteInput) (x := [9]) rfl (by decide) (by decide) (by decide)
    exact ⟨oneByteInput, _, rfl, by decide, hexec, rfl, by decide⟩

end Sys2Proof.Machine
end

section
/-! PROOFS. The byte positions of an image's two layouts (42_convert.md R143), and when a planar buffer and a pixel
buffer hold one image. -/

namespace Sys2Proof.Machine

/-! ### Each layout numbers its bytes once -/

theorem planeOffset_blue (N k : Nat) : planeOffset N 0 k = k := by simp [planeOffset]

theorem planeOffset_green (N k : Nat) : planeOffset N 1 k = N + k := by simp [planeOffset]

theorem planeOffset_lt {N c k : Nat} (hc : c ≤ 2) (hk : k < N) : planeOffset N c k < 3 * N := by
  have hplane : c * N ≤ 2 * N := Nat.mul_le_mul_right N hc
  rw [planeOffset]
  omega

theorem pixelOffset_lt {N c k : Nat} (hk : k < N) : pixelOffset c k < 3 * N := by
  rw [pixelOffset]
  omega

theorem planeOffset_inj {N c c' k k' : Nat} (hk : k < N) (hk' : k' < N)
    (h : planeOffset N c k = planeOffset N c' k') : c = c' ∧ k = k' := by
  have hmod : k = k' := by
    simpa [planeOffset, Nat.mod_eq_of_lt hk, Nat.mod_eq_of_lt hk'] using congrArg (· % N) h
  subst hmod
  exact ⟨Nat.eq_of_mul_eq_mul_right (by omega : 0 < N) (Nat.add_right_cancel h), rfl⟩

theorem pixelOffset_inj {c c' k k' : Nat} (hc : c ≤ 2) (hc' : c' ≤ 2) (h : pixelOffset c k = pixelOffset c' k') :
    c = c' ∧ k = k' := by
  simp only [pixelOffset] at h
  omega

theorem exists_planeOffset {N a : Nat} (ha : a < 3 * N) : ∃ c k, c ≤ 2 ∧ k < N ∧ a = planeOffset N c k :=
  have hN : 0 < N := by omega
  ⟨a / N, a % N, Nat.lt_succ_iff.1 ((Nat.div_lt_iff_lt_mul hN).2 ha), Nat.mod_lt a hN, (Nat.div_add_mod' a N).symm⟩

theorem exists_pixelOffset {N a : Nat} (ha : a < 3 * N) : ∃ c k, c ≤ 2 ∧ k < N ∧ a = pixelOffset c k :=
  ⟨2 - a % 3, a / 3, by omega, by omega, by rw [pixelOffset]; omega⟩

/-! ### One image in two layouts -/

/-- A planar buffer and a pixel buffer of `N` pixels hold the same image. -/
structure SameImage (N : Nat) (planar pixels : List Byte) : Prop where
  planarLength : planar.length = 3 * N
  pixelsLength : pixels.length = 3 * N
  bytes        : ∀ c k, c ≤ 2 → k < N → pixels[pixelOffset c k]? = planar[planeOffset N c k]?

section
variable {N N' : Nat} {x y z : List Byte}

/-- The planes determine the pixels. -/
theorem SameImage.pixels_unique (h : SameImage N x y) (h' : SameImage N' x z) : y = z := by
  obtain rfl : N = N' := by have := h.planarLength; have := h'.planarLength; omega
  have hlen : y.length = z.length := h.pixelsLength.trans h'.pixelsLength.symm
  refine List.ext_getElem?' fun a ha => ?_
  have ha : a < 3 * N := by rw [← h.pixelsLength]; omega
  obtain ⟨c, k, hc, hk, rfl⟩ := exists_pixelOffset ha
  rw [h.bytes c k hc hk, h'.bytes c k hc hk]

/-- The pixels determine the planes. -/
theorem SameImage.planar_unique (h : SameImage N x z) (h' : SameImage N' y z) : x = y := by
  obtain rfl : N = N' := by have := h.pixelsLength; have := h'.pixelsLength; omega
  have hlen : x.length = y.length := h.planarLength.trans h'.planarLength.symm
  refine List.ext_getElem?' fun a ha => ?_
  have ha : a < 3 * N := by rw [← h.planarLength]; omega
  obtain ⟨c, k, hc, hk, rfl⟩ := exists_planeOffset ha
  rw [← h.bytes c k hc hk, ← h'.bytes c k hc hk]

end

end Sys2Proof.Machine
end

section
/-! PROOFS. A converter's run: one pixel per core step, and what stands in DST at each of them. The two converters
differ only in which layout they read and which they write, so both are followed as one. -/

namespace Sys2Proof.Machine

/-! ### Where a converter reads and writes -/

/-- OP is one of the two converters'. -/
def IsConverter (op : BitVec 4) : Prop := op = 2 ∨ op = 3

/-- Where converter `op` reads channel `c` of pixel `k` (42_convert.md R140, R141). -/
def convertFrom (op : BitVec 4) (N c k : Nat) : Nat := if op = 2 then planeOffset N c k else pixelOffset c k

/-- Where converter `op` writes channel `c` of pixel `k` (42_convert.md R140, R141). -/
def convertTo (op : BitVec 4) (N c k : Nat) : Nat := if op = 2 then pixelOffset c k else planeOffset N c k

section
variable {op : BitVec 4} {N c c' k k' : Nat}

theorem convertFrom_lt (hc : c ≤ 2) (hk : k < N) : convertFrom op N c k < 3 * N := by
  unfold convertFrom
  split
  · exact planeOffset_lt hc hk
  · exact pixelOffset_lt hk

theorem convertTo_lt (hc : c ≤ 2) (hk : k < N) : convertTo op N c k < 3 * N := by
  unfold convertTo
  split
  · exact pixelOffset_lt hk
  · exact planeOffset_lt hc hk

/-- No byte of the result is written twice. -/
theorem convertTo_inj (hc : c ≤ 2) (hc' : c' ≤ 2) (hk : k < N) (hk' : k' < N)
    (h : convertTo op N c k = convertTo op N c' k') : c = c' ∧ k = k' := by
  unfold convertTo at h
  split at h
  · exact pixelOffset_inj hc hc' h
  · exact planeOffset_inj hk hk' h

/-- Every byte of the result is written. -/
theorem exists_convertTo {a : Nat} (ha : a < 3 * N) : ∃ c k, c ≤ 2 ∧ k < N ∧ a = convertTo op N c k := by
  unfold convertTo
  split
  · exact exists_pixelOffset ha
  · exact exists_planeOffset ha

end

/-! ### One pixel -/

/-- The number of pixels of the image (42_convert.md R140, R141). -/
def State.pixelCount (s : State) : Nat := s.width.toNat * s.height.toNat

/-- A converter's operands are in order: its input has a value at every byte, is as long as the dimensions ask, and fits
both buffers. -/
structure State.Convertible (s : State) : Prop where
  defined : s.InputDefined
  length  : s.srcLen.toNat = 3 * s.pixelCount
  inSrc   : s.srcLen.toNat ≤ s.srcSize.toNat
  inDst   : 3 * s.pixelCount ≤ s.dstSize.toNat

/-- The converter `op` started from `s`, past its prechecks, with `k` pixels done and `d` in DST. -/
def State.atPixel (s : State) (op : BitVec 4) (d : Memory) (k : Nat) : State :=
  { dispatch (start op s) with dst := d, work := { (dispatch (start op s)).work with k := k } }

/-- The pixels below `k` stand in `d` where converter `op` puts them. -/
def State.Converted (s : State) (op : BitVec 4) (d : Memory) (k : Nat) : Prop :=
  ∀ c j, c ≤ 2 → j < k → d.read (convertTo op s.pixelCount c j) = s.src.read (convertFrom op s.pixelCount c j)

/-- A byte of the input moved into room of DST. -/
theorem moveByte_of_defined {u : State} {a b : Nat} (hsize : a < u.srcSize.toNat) (hvalue : u.src.read a ≠ none)
    (hb : b < u.dstSize.toNat) :
    ∃ v, u.src.read a = some v ∧ moveByte a b u = .ok { u with dst := u.dst.write b v } := by
  obtain ⟨v, hv⟩ := Option.ne_none_iff_exists'.1 hvalue
  exact ⟨v, hv, moveByte_eq_ok.2 ⟨v, hsize, hv, hb, rfl⟩⟩

/-- A pixel moved, its channels in any order, is three bytes of DST set to bytes of SRC, and no other byte touched. -/
theorem movePixel_of_defined {u : State} {a b : Nat → Nat} {i j l : Nat}
    (ha : ∀ c, c ≤ 2 → a c < u.srcSize.toNat ∧ u.src.read (a c) ≠ none)
    (hb : ∀ c, c ≤ 2 → b c < u.dstSize.toNat) (hinj : ∀ c c', c ≤ 2 → c' ≤ 2 → b c = b c' → c = c')
    (hperm : (i ≤ 2 ∧ j ≤ 2 ∧ l ≤ 2) ∧ i ≠ j ∧ i ≠ l ∧ j ≠ l) :
    ∃ d, movePixel (a i) (b i) (a j) (b j) (a l) (b l) u = .ok (nextPixel { u with dst := d }) ∧
      (∀ c, c ≤ 2 → d.read (b c) = u.src.read (a c)) ∧
      ∀ x, (∀ c, c ≤ 2 → x ≠ b c) → d.read x = u.dst.read x := by
  obtain ⟨⟨hi, hj, hl⟩, hij, hil, hjl⟩ := hperm
  obtain ⟨v, hv, hmove⟩ := moveByte_of_defined (ha i hi).1 (ha i hi).2 (hb i hi)
  obtain ⟨v', hv', hmove'⟩ := moveByte_of_defined (u := { u with dst := u.dst.write (b i) v })
    (ha j hj).1 (ha j hj).2 (hb j hj)
  obtain ⟨v'', hv'', hmove''⟩ :=
    moveByte_of_defined (u := { u with dst := (u.dst.write (b i) v).write (b j) v' })
      (ha l hl).1 (ha l hl).2 (hb l hl)
  refine ⟨((u.dst.write (b i) v).write (b j) v').write (b l) v'', ?_, fun c hc => ?_, fun x hx => ?_⟩
  · rw [movePixel, hmove, ok_bind, hmove', ok_bind, hmove'', ok_bind]
  · obtain rfl | rfl | rfl : c = i ∨ c = j ∨ c = l := by omega
    · rw [Memory.read_write_ne _ _ fun h => hil (hinj _ _ hl hi h).symm,
        Memory.read_write_ne _ _ fun h => hij (hinj _ _ hj hi h).symm, Memory.read_write_same, hv]
    · rw [Memory.read_write_ne _ _ fun h => hjl (hinj _ _ hl hj h).symm, Memory.read_write_same]
      exact hv'.symm
    · rw [Memory.read_write_same]
      exact hv''.symm
  · rw [Memory.read_write_ne _ _ (hx l hl).symm, Memory.read_write_ne _ _ (hx j hj).symm,
      Memory.read_write_ne _ _ (hx i hi).symm]

section
variable {s : State} {op : BitVec 4} {d d' : Memory} {k : Nat}

/-- One more pixel written where it belongs leaves the pixels before it. -/
theorem State.Converted.succ (h : s.Converted op d k) (hk : k < s.pixelCount)
    (hpixel : ∀ c, c ≤ 2 →
      d'.read (convertTo op s.pixelCount c k) = s.src.read (convertFrom op s.pixelCount c k))
    (hrest : ∀ a, (∀ c, c ≤ 2 → a ≠ convertTo op s.pixelCount c k) → d'.read a = d.read a) :
    s.Converted op d' (k + 1) := by
  intro c j hc hj
  by_cases hjk : j = k
  · exact hjk ▸ hpixel c hc
  · have hj : j < k := by omega
    rw [hrest _ fun c' hc' heq => hjk (convertTo_inj hc hc' (hj.trans hk) hk heq).2, h c j hc hj]

/-- The core step before a pixel moves it (70_reset_and_hazards.md R191). -/
theorem State.Converted.coreMove_pixel (h : s.Converted op d k) (hs : s.Convertible) (hop : IsConverter op)
    (hk : k < s.pixelCount) :
    ∃ d', s.Converted op d' (k + 1) ∧ CoreMove (s.atPixel op d k) (s.atPixel op d' (k + 1)) := by
  have hfrom : ∀ c, c ≤ 2 → convertFrom op s.pixelCount c k < s.srcSize.toNat ∧
      s.src.read (convertFrom op s.pixelCount c k) ≠ none := fun c hc =>
    have hin := (convertFrom_lt (op := op) hc hk).trans_eq hs.length.symm
    ⟨hin.trans_le hs.inSrc, hs.defined _ hin⟩
  have hto : ∀ c, c ≤ 2 → convertTo op s.pixelCount c k < s.dstSize.toNat := fun c hc =>
    (convertTo_lt hc hk).trans_le hs.inDst
  have hinj : ∀ c c', c ≤ 2 → c' ≤ 2 →
      convertTo op s.pixelCount c k = convertTo op s.pixelCount c' k → c = c' :=
    fun c c' hc hc' heq => (convertTo_inj hc hc' hk hk heq).1
  have hmove {i j l : Nat} := movePixel_of_defined (u := s.atPixel op d k) (i := i) (j := j) (l := l) hfrom hto hinj
  -- A core step computes to the converter's own pixel; only the order of the channels differs.
  rcases hop with rfl | rfl
  · obtain ⟨d', hstep, hpixel, hrest⟩ := hmove (i := 2) (j := 1) (l := 0) (by decide)
    exact ⟨d', h.succ hk hpixel hrest, rfl, (if_pos hk).trans hstep⟩
  · obtain ⟨d', hstep, hpixel, hrest⟩ := hmove (i := 0) (j := 1) (l := 2) (by decide)
    exact ⟨d', h.succ hk hpixel hrest, rfl, (if_pos hk).trans hstep⟩

end

/-! ### The whole command -/

theorem requiredLength_convert {op : BitVec 4} (hop : IsConverter op) (s : State) :
    requiredLength op s.width.toNat s.height.toNat s.srcLen.toNat = 3 * s.pixelCount := by
  rcases hop with rfl | rfl <;> exact expectedLength_eq _ _

section
variable {s : State} {op : BitVec 4} (hs : s.Convertible) (hop : IsConverter op)
include hs hop

/-- A converter whose operands are in order passes its prechecks (60_exceptions.md R154, 42_convert.md R142). -/
theorem coreMove_convertEntry : CoreMove (start op s) (s.atPixel op s.dst 0) := by
  have hlen : s.srcLen.toNat = expectedLength s.width.toNat s.height.toNat :=
    hs.length.trans (expectedLength_eq _ _).symm
  refine ⟨rfl, congrArg Except.ok (?_ : precheck (start op s) = dispatch (start op s))⟩
  obtain ⟨hbad, _⟩ | ⟨_, hbad | ⟨_, hbad⟩, _⟩ | ⟨_, _, _, hbad, _⟩ | ⟨_, _, _, _, h⟩ := precheck_cases (start op s)
  · rcases hop with rfl | rfl <;> simp at hbad
  · exact absurd hs.inSrc (not_le.2 hbad)
  · exact absurd hlen hbad
  · exact absurd ((requiredLength_convert hop s).trans_le hs.inDst) (not_le.2 hbad)
  · exact h

/-- The pixels are moved one after the other, from the first up. -/
theorem coreMoves_pixels {k : Nat} (hk : k ≤ s.pixelCount) :
    ∃ d, s.Converted op d k ∧ CoreMoves (start op s) (s.atPixel op d k) := by
  induction k with
  | zero => exact ⟨s.dst, nofun, .single (coreMove_convertEntry hs hop)⟩
  | succ k ih =>
    obtain ⟨d, hd, hmoves⟩ := ih (by omega)
    obtain ⟨d', hd', hmove⟩ := hd.coreMove_pixel hs hop hk
    exact ⟨d', hd', hmoves.tail hmove⟩

/-- A converter whose operands are in order moves every pixel and changes nothing else (42_convert.md R140, R141). -/
theorem convert_succeeds (hb : s.busy = false) :
    ∃ t, issue op s = .next t ∧
      t = { Claim.succeeded op [] s with
        outLen := BitVec.ofNat 64 (3 * s.pixelCount), work := t.work, dst := t.dst } ∧
      s.Converted op t.dst s.pixelCount ∧ Claim.SameFrom (3 * s.pixelCount) s.dst t.dst := by
  obtain ⟨d, hd, hmoves⟩ := coreMoves_pixels hs hop le_rfl
  have hlast : CoreMove (s.atPixel op d s.pixelCount) (finish (3 * s.pixelCount) (s.atPixel op d s.pixelCount)) := by
    rcases hop with rfl | rfl <;> exact ⟨rfl, if_neg (lt_irrefl s.pixelCount)⟩
  have hrun := coreRun_start (hmoves.tail hlast) (finish_busy _ _)
  have hsame := sameFrom_coreRun hrun
  rw [requiredLength_convert hop] at hsame
  exact ⟨_, issue_eq_next.2 (.inr ⟨hb, hrun⟩), rfl, hd, hsame⟩

end

end Sys2Proof.Machine
end

section
/-! PROOFS. Images in the buffers: what a converter makes of the image in SRC, and how a result becomes the next
command's input. -/

namespace Sys2Proof.Machine

/-! ### An image as input -/

/-- The core is idle, and both buffers have room for `len` bytes, one image of the dimensions. -/
structure State.FitsImage (s : State) (len : Nat) : Prop where
  idle   : s.busy = false
  length : len = 3 * s.width.toNat * s.height.toNat
  inSrc  : len ≤ s.srcSize.toNat
  inDst  : len ≤ s.dstSize.toNat

/-- `x` is the input, as long as one image of the dimensions. -/
structure State.HoldsImage (s : State) (x : List Byte) : Prop where
  fits  : s.FitsImage x.length
  input : s.src.readAll 0 s.srcLen.toNat = some x

/-- A whole command leaves the dimensions and the sizes, and the core idle. -/
theorem State.FitsImage.exec {s t : State} {len : Nat} {i : Instr} (h : s.FitsImage len) (hkind : i.kind = .command)
    (hexec : exec i s = .next t) : t.FitsImage len := by
  obtain ⟨op, hop⟩ := (op?_isSome_iff i).2 hkind
  obtain ⟨_, hwidth, hheight, _, hsrcSize, hdstSize, _⟩ := commandFrame s t i op h.idle hop hexec
  have hbusy := issue_busy ((exec_command hop s).symm.trans hexec)
  exact ⟨hbusy.trans h.idle, by rw [hwidth, hheight]; exact h.length, hsrcSize ▸ h.inSrc, hdstSize ▸ h.inDst⟩

/-- The host's copy leaves the dimensions and the sizes too. -/
theorem State.FitsImage.chained {s : State} {len : Nat} (h : s.FitsImage len) : (Claim.chained s).FitsImage len :=
  ⟨h.idle, h.length, h.inSrc, h.inDst⟩

section
variable {s : State} {x : List Byte} (h : s.HoldsImage x)
include h

theorem State.HoldsImage.srcLen_eq : s.srcLen.toNat = x.length :=
  ((Memory.readAll_eq_some _ _ _ _).1 h.input).1.symm

theorem State.HoldsImage.length_eq : x.length = 3 * s.pixelCount := h.fits.length.trans (Nat.mul_assoc _ _ _)

theorem State.HoldsImage.read_eq {a : Nat} (ha : a < x.length) : s.src.read a = x[a]? := by
  have hread := ((Memory.readAll_eq_some _ _ _ _).1 h.input).2 a (h.srcLen_eq ▸ ha)
  rwa [Nat.zero_add] at hread

theorem State.HoldsImage.convertible : s.Convertible where
  defined a ha := by
    rw [h.srcLen_eq] at ha
    simp [h.read_eq ha, ha]
  length := h.srcLen_eq.trans h.length_eq
  inSrc := h.srcLen_eq.trans_le h.fits.inSrc
  inDst := h.length_eq.ge.trans h.fits.inDst

end

/-! ### An image as result -/

/-- A block of bytes that have values reads as some list. -/
theorem Memory.exists_readAll {m : Memory} {a len : Nat} (h : ∀ j, j < len → m.read (a + j) ≠ none) :
    ∃ bs, m.readAll a len = some bs := by
  induction len generalizing a with
  | zero => exact ⟨[], rfl⟩
  | succ len ih =>
    obtain ⟨b, hb⟩ := Option.ne_none_iff_exists'.1 (h 0 (by omega))
    obtain ⟨bs, hbs⟩ := ih (a := a + 1) fun j hj => by rw [Nat.add_assoc, Nat.add_comm 1]; exact h (j + 1) (by omega)
    exact ⟨b :: bs, (Memory.readAll_succ _ _ _ _).2 ⟨b, bs, rfl, hb, hbs⟩⟩

/-- The command `i` on `s` succeeds in `t`, with the result `y`. -/
structure Gives (i : Instr) (s t : State) (y : List Byte) : Prop where
  exec   : exec i s = .next t
  err    : t.err = false
  outLen : t.outLen.toNat = y.length
  result : t.dst.readAll 0 y.length = some y

/-- The host's copy of a result as long as the input makes it the next input. -/
theorem Gives.chained {i : Instr} {s t : State} {x y : List Byte} (h : Gives i s t y) (hkind : i.kind = .command)
    (hs : s.HoldsImage x) (hlen : y.length = x.length) : (Claim.chained t).HoldsImage y :=
  ⟨((hlen ▸ hs.fits).exec hkind h.exec).chained, chained_input (h.outLen ▸ h.result)⟩

/-- A converter gives as many bytes as it takes, each one where its offsets say (42_convert.md R143). -/
theorem exists_convert_gives {i : Instr} {op : BitVec 4} (hi : i.op? = some op) (hop : IsConverter op) {s : State}
    {x : List Byte} (h : s.HoldsImage x) :
    ∃ t y, Gives i s t y ∧ y.length = 3 * s.pixelCount ∧ ∀ c k, c ≤ 2 → k < s.pixelCount →
      y[convertTo op s.pixelCount c k]? = x[convertFrom op s.pixelCount c k]? := by
  obtain ⟨t, hexec, ht, hconv, _⟩ := convert_succeeds h.convertible hop h.fits.idle
  have hbytes : ∀ c k, c ≤ 2 → k < s.pixelCount →
      t.dst.read (convertTo op s.pixelCount c k) = x[convertFrom op s.pixelCount c k]? := fun c k hc hk =>
    (hconv c k hc hk).trans (h.read_eq (h.length_eq ▸ convertFrom_lt hc hk))
  obtain ⟨y, hy⟩ : ∃ y, t.dst.readAll 0 (3 * s.pixelCount) = some y := by
    refine Memory.exists_readAll fun a ha => ?_
    obtain ⟨c, k, hc, hk, rfl⟩ := exists_convertTo (op := op) ha
    rw [Nat.zero_add, hbytes c k hc hk]
    simpa [h.length_eq] using convertFrom_lt (op := op) hc hk
  obtain ⟨hlen, hread⟩ := (Memory.readAll_eq_some _ _ _ _).1 hy
  refine ⟨t, y, ⟨(exec_command hi s).trans hexec, ?_, ?_, hlen.symm ▸ hy⟩, hlen, fun c k hc hk => ?_⟩
  · rw [ht]
    rfl
  · rw [ht, hlen]
    exact Nat.mod_eq_of_lt (h.convertible.inDst.trans_lt s.dstSize.isLt)
  · rw [← hread _ (convertTo_lt hc hk), Nat.zero_add, hbytes c k hc hk]

theorem exists_planarToRgb_gives {s : State} {x : List Byte} (h : s.HoldsImage x) :
    ∃ t y, Gives .planarToRgb s t y ∧ SameImage s.pixelCount x y := by
  obtain ⟨t, y, hgives, hlen, hbytes⟩ := exists_convert_gives (i := .planarToRgb) rfl (.inl rfl) h
  exact ⟨t, y, hgives, h.length_eq, hlen, hbytes⟩

theorem exists_rgbToPlanar_gives {s : State} {x : List Byte} (h : s.HoldsImage x) :
    ∃ t y, Gives .rgbToPlanar s t y ∧ SameImage s.pixelCount y x := by
  obtain ⟨t, y, hgives, hlen, hbytes⟩ := exists_convert_gives (i := .rgbToPlanar) rfl (.inr rfl) h
  exact ⟨t, y, hgives, hlen, h.length_eq, fun c k hc hk => (hbytes c k hc hk).symm⟩

end Sys2Proof.Machine
end

section
/-! PROOFS. The obligations of 42_convert.md. -/

namespace Sys2Proof.Machine

/-! ### One converter (42_convert.md R140, R141, R144) -/

/-- Settles O18: every pixel is moved from its three planes. -/
theorem planarToRgbInterleavesPlanes : Obligations.PlanarToRgbInterleavesPlanes := by
  intro s N hb hdefined hlen hsrc hdst
  obtain ⟨t, hexec, ht, hconv, hsame⟩ := convert_succeeds (op := 2) ⟨hdefined, hlen, hsrc, hdst⟩ (.inl rfl) hb
  exact ⟨t, hexec, ht, fun k hk => ⟨hconv 2 k (by omega) hk,
    (hconv 1 k (by omega) hk).trans (congrArg s.src.read (planeOffset_green N k)),
    (hconv 0 k (by omega) hk).trans (congrArg s.src.read (planeOffset_blue N k))⟩, hsame⟩

/-- Settles O19: every pixel is moved into its three planes. -/
theorem rgbToPlanarSplitsPixels : Obligations.RgbToPlanarSplitsPixels := by
  intro s N hb hdefined hlen hsrc hdst
  obtain ⟨t, hexec, ht, hconv, hsame⟩ := convert_succeeds (op := 3) ⟨hdefined, hlen, hsrc, hdst⟩ (.inr rfl) hb
  exact ⟨t, hexec, ht, fun k hk => ⟨
    (congrArg t.dst.read (planeOffset_blue N k)).symm.trans (hconv 0 k (by omega) hk),
    (congrArg t.dst.read (planeOffset_green N k)).symm.trans (hconv 1 k (by omega) hk),
    hconv 2 k (by omega) hk⟩, hsame⟩

/-! ### Both converters, and the whole chain (42_convert.md R143, R145) -/

/-- Settles O20: what the first converter gives holds the image in the other layout, and that determines what the second
gives. -/
theorem convertersAreInverse : Obligations.ConvertersAreInverse := by
  intro s x first second horder hb hread hlen hsrc hdst
  have hs : s.HoldsImage x := ⟨⟨hb, hlen, hsrc, hdst⟩, hread⟩
  suffices h : ∃ t u, (∃ y, Gives first s t y) ∧ Gives second (Claim.chained t) u x by
    obtain ⟨t, u, ⟨_, ht⟩, hu⟩ := h
    exact ⟨t, u, ht.exec, ht.err, hu.exec, hu.err, hu.outLen, hu.result⟩
  obtain ⟨rfl, rfl⟩ | ⟨rfl, rfl⟩ := horder
  · obtain ⟨t, y, ht, hxy⟩ := exists_planarToRgb_gives hs
    obtain ⟨u, z, hu, hzy⟩ := exists_rgbToPlanar_gives
      (ht.chained rfl hs (hxy.pixelsLength.trans hxy.planarLength.symm))
    obtain rfl := hxy.planar_unique hzy
    exact ⟨t, u, ⟨y, ht⟩, hu⟩
  · obtain ⟨t, y, ht, hyx⟩ := exists_rgbToPlanar_gives hs
    obtain ⟨u, z, hu, hyz⟩ := exists_planarToRgb_gives
      (ht.chained rfl hs (hyx.planarLength.trans hyx.pixelsLength.symm))
    obtain rfl := hyx.pixels_unique hyz
    exact ⟨t, u, ⟨y, ht⟩, hu⟩

/-- Settles O21: RGB_TO_PLANAR gives the image's planes, COMPRESS and DECOMPRESS give them back, and they determine the
pixels that PLANAR_TO_RGB gives. -/
theorem imageRoundTrip : Obligations.ImageRoundTrip := by
  intro s image hb hread hlen hsrc hdst
  have hs : s.HoldsImage image := ⟨⟨hb, hlen, hsrc, by omega⟩, hread⟩
  obtain ⟨t1, planar, h1, himage⟩ := exists_rgbToPlanar_gives hs
  have hplanar : planar.length = image.length := himage.planarLength.trans himage.pixelsLength.symm
  have hs1 := h1.chained rfl hs hplanar
  have hroom : planar.length + (planar.length + 126) / 127 ≤ (Claim.chained t1).dstSize.toNat := by
    rw [hplanar, show (Claim.chained t1).dstSize = s.dstSize from (issue_sizes (op := 3) h1.exec).2]
    exact hdst
  obtain ⟨t2, h2, herr2, hback⟩ := compressThenDecompressIsIdentity (Claim.chained t1) planar hs1.fits.idle hs1.input
    hs1.fits.length hs1.fits.inSrc hroom
  refine ⟨t1, t2, h1.exec, h1.err, h2, herr2, fun hstream => ?_⟩
  obtain ⟨t3, h3, herr3, hout3, hresult3⟩ := hback hstream
  have hs3 : (Claim.chained t3).HoldsImage planar :=
    ⟨((hs1.fits.exec rfl h2).chained.exec rfl h3).chained, chained_input (hout3 ▸ hresult3)⟩
  obtain ⟨t4, pixels, h4, hpixels⟩ := exists_planarToRgb_gives hs3
  obtain rfl := himage.pixels_unique hpixels
  exact ⟨t3, t4, h3, herr3, h4.exec, h4.err, h4.outLen, h4.result⟩

end Sys2Proof.Machine
end

section
/-! PROOFS. The obligations of 60_exceptions.md. -/

namespace Sys2Proof.Machine

/-! ### The start of a command (60_exceptions.md R155, R161) -/

/-- With no turn scheduled and an idle core the host moves. -/
theorem step_of_idle {s : State} (hs : s.schedule = []) (hb : s.busy = false) : step s = hostTurn s := by
  rw [step, hs]
  simp [hb]

/-- A 64-bit write to the CMD register starts its OP, or is ignored (10_state.md R22). -/
theorem hostAccess_cmdWrite (v : Dword) (s : State) :
    hostAccess (.regWrite 0x00 64 v) s = if s.busy then s else start (v.setWidth 4) s :=
  (hostAccess_regWrite .cmd (regAt_offset .cmd) v s).trans (writeReg_cmd v s)

/-- Settles O24: an issued command and a write to CMD both look at BUSY first. -/
theorem commandWhileBusyIsIgnored : Obligations.CommandWhileBusyIsIgnored := by
  intro s i v hkind hb
  obtain ⟨op, hop⟩ := (op?_isSome_iff i).2 hkind
  exact ⟨(exec_command hop s).trans (issue_eq_next.2 (.inl ⟨hb, rfl⟩)), (hostAccess_cmdWrite v s).trans (if_pos hb)⟩

/-- Settles O28: the step is the host's turn, and its write to CMD is the start of a command. -/
theorem cmdWriteStartsCommand : Obligations.CmdWriteStartsCommand := by
  intro s v rest hb hs hprogram
  have hturn : hostTurn s = .next (hostAccess (.regWrite 0x00 64 v) { s with program := rest }) := by
    rw [hostTurn, hprogram]
  have hstart : hostAccess (.regWrite 0x00 64 v) { s with program := rest } =
      start (v.setWidth 4) { s with program := rest } := by
    rw [hostAccess_cmdWrite, if_neg (by simp [hb])]
  exact ⟨_, (step_of_idle hs hb).trans (hturn.trans (congrArg _ hstart)), rfl, rfl, rfl, rfl, rfl⟩

/-! ### The prechecks' errors (60_exceptions.md R154, R158, R159) -/

/-- The claim's table of errors in the model's own words: OP as a field, the lengths by their names. -/
theorem precheckError_eq (op : BitVec 4) (w h n srcSize dstSize : Nat) :
    Claim.precheckError op.toNat w h n srcSize dstSize =
      if 4 ≤ op.toNat then some 5
      else if srcSize < n then some 4
      else if (op = 2 ∨ op = 3) ∧ n ≠ expectedLength w h then some 4
      else if dstSize < requiredLength op w h n then some 3
      else none := by
  have hconv : (op.toNat = 2 ∨ op.toNat = 3) ↔ (op = 2 ∨ op = 3) :=
    or_congr (BitVec.toNat_inj (y := 2)) (BitVec.toNat_inj (y := 3))
  simp only [Claim.precheckError, hconv, requiredLength_eq, expectedLength]

/-- Where the claim's table has an error, the prechecks of the command just started raise that error, and it is one that
spares DST (60_exceptions.md R154, R159). -/
theorem precheck_start_of_precheckError {s : State} {op code : BitVec 4}
    (h : Claim.precheckError op.toNat s.width.toNat s.height.toNat s.srcLen.toNat s.srcSize.toNat s.dstSize.toNat =
      some code) :
    ∃ e, e.code = code ∧ e.spoilsDst = false ∧ precheck (start op s) = raiseError e 0 (start op s) := by
  rw [precheckError_eq] at h
  have hcases := precheck_cases (start op s)
  simp only [start_work, start_srcSize, start_dstSize, latched_op, latched_w, latched_h, latched_n] at hcases
  obtain ⟨hop, hraise⟩ | ⟨hop, hbad, hraise⟩ | ⟨hop, hn, hconv, hcap, hraise⟩ | ⟨hop, hn, hconv, hcap, _⟩ := hcases
  · rw [if_pos hop] at h
    exact ⟨.illegalOp, Option.some.inj h, rfl, hraise⟩
  · rw [if_neg (by omega), ite_eq_left_iff.2 fun hn => if_pos (hbad.resolve_left hn)] at h
    exact ⟨.badLength, Option.some.inj h, rfl, hraise⟩
  · rw [if_neg (by omega), if_neg (by omega), if_neg (by tauto), if_pos hcap] at h
    exact ⟨.capacity, Option.some.inj h, rfl, hraise⟩
  · rw [if_neg (by omega), if_neg (by omega), if_neg (by tauto), if_neg (by omega)] at h
    cases h

/-- A command whose prechecks raise an error that spares DST fails in that one core step (60_exceptions.md R158, R159). -/
theorem issue_of_precheck_raises {op : BitVec 4} {s : State} {e : CodecError} (hb : s.busy = false)
    (hspares : e.spoilsDst = false) (h : precheck (start op s) = raiseError e 0 (start op s)) :
    issue op s = .next { Claim.failed op e.code 0 s with work := Work.blank } := by
  have hmove : CoreMove (start op s) (raiseError e 0 (start op s)) := ⟨rfl, congrArg Except.ok h⟩
  have hfailed : raiseError e 0 (start op s) = { Claim.failed op e.code 0 s with work := Work.blank } := by
    simp only [raiseError, hspares]
    rfl
  exact issue_eq_next.2 (.inr ⟨hb, hfailed ▸ coreRun_start (.single hmove) (raiseError_busy _ _ _)⟩)

/-- Settles O23: the prechecks are the command's first core step, and the error they raise its last. -/
theorem precheckErrorsInPriorityOrder : Obligations.PrecheckErrorsInPriorityOrder := by
  intro s i op code hb hop herror
  obtain ⟨e, rfl, hspares, hraise⟩ := precheck_start_of_precheckError herror
  exact ⟨_, (exec_command hop s).trans (issue_of_precheck_raises hb hspares hraise), rfl⟩

end Sys2Proof.Machine
end

section
/-! PROOFS. The obligation of 70_reset_and_hazards.md. -/

namespace Sys2Proof.Machine

/-- Where reset is the next scheduled turn, the step is the platform's reset, whatever the core is doing
(70_reset_and_hazards.md R180, R181). -/
theorem step_of_reset_turn {s : State} {rest : List Turn} (hs : s.schedule = .reset :: rest) :
    step s = .next (platformReset { s with schedule := rest }) := by
  rw [step, hs]

/-- Settles O48: the step is the platform's reset, whose registers are the reset state's and whose buffers are empty. -/
theorem resetAbortsAndClears : Obligations.ResetAbortsAndClears := by
  intro s rest hs
  exact ⟨platformReset { s with schedule := rest }, step_of_reset_turn hs, by simp⟩

end Sys2Proof.Machine
end
